-- ==== Sys2Proof/Word.lean ====
section
/-! DEFINITION. The word types of the engine: bytes, bus addresses, millisecond counts. -/

namespace Sys2Proof

/-- A byte: unsigned, 8 bits, bit 7 the most significant (R10). -/
abbrev Byte := BitVec 8

/-- A bus node address, `BUS_ADDR_W` = 7 bits wide (R7, R46). -/
abbrev Addr := BitVec 7

/-- A value of the millisecond clock, `CLOCK_W` = 32 bits wide (R7, R131). -/
abbrev Millis := BitVec 32

end Sys2Proof
end

