-- ==== Sys2Proof/Config.lean ====
section
/-! DEFINITION. The constants of R7, the control bytes of R63 to R73, the reception policy, and the one free value. -/

namespace Sys2Proof.Config

/-- `START`, R63. -/
def START : Byte := 0x82
/-- `END`, R64. -/
def END : Byte := 0x83
/-- `ACK`, R65. -/
def ACK : Byte := 0x86
/-- `NAK`, R66: defined, unused. -/
def NAK : Byte := 0x95
/-- `WRITE`, R67. -/
def WRITE : Byte := 0xD7
/-- `READ`, R68. -/
def READ : Byte := 0xD2
/-- `NO_DATA`, R69. -/
def NO_DATA : Byte := 0xB0
/-- `PING`, R70. -/
def PING : Byte := 0xB1
/-- `ESC`, R71: defined, unused. -/
def ESC : Byte := 0x9B
/-- The null byte, R72. -/
def NULL : Byte := 0x00
/-- `POLL_TERM`, R73. -/
def POLL_TERM : Byte := 0xFF

/-- `PARITY_MASK` of R7. -/
def PARITY_MASK : Byte := 0x7F
/-- `MAX_MSG_LEN` of R7: bytes of a message buffer, address prefix included. -/
abbrev MAX_MSG_LEN : Nat := 16
/-- `HUB_RXQ_CAP` of R7. -/
abbrev HUB_RXQ_CAP : Nat := 40
/-- `NODE_Q_CAP` of R7. -/
abbrev NODE_Q_CAP : Nat := 20
/-- `HUB_READ_LEN` of R7. -/
abbrev HUB_READ_LEN : Nat := 8
/-- `SCAN_INTERVAL_MS` of R7. -/
abbrev SCAN_INTERVAL_MS : Nat := 100
/-- `BUS_FILL` of R7: what the reference bus returns past the end of a reply (R49). -/
def BUS_FILL : Byte := 0xFF
/-- The value of `MAX_CLIENTS` this hardware takes (R7). -/
abbrev MAX_CLIENTS : Fin 127 := 16
/-- The greatest number of roster entries a legal `MAX_CLIENTS` (at most 126) asks for (R7, R24). -/
abbrev ROSTER_MAX : Nat := 125

/-- `RX_INVALID_POLICY` of R7: what N.RECV does with a packet whose parity test fails. -/
inductive Policy where
  /-- The default: an invalid packet is handled as if valid (R100, R122). -/
  | accept
  /-- An invalid packet leaves no trace (R100, R122). -/
  | drop
deriving DecidableEq, Repr

/-- FREE VALUE (DESIGN CHOICE, entry 18). The byte H.GET returns as the originating address of a queue
entry of length 0: R112 returns `m[0]`, which such an entry does not have. No body: nothing can be proved of it. -/
opaque freeByte : Nat → Byte

end Sys2Proof.Config
end

