-- ==== Sys2Proof/Syntax.lean ====
section
/-! DEFINITION. The abstract syntax: one constructor of `Instr` per row of spec/opcode_table.json. -/

namespace Sys2Proof

/-- Where a single control byte on the bus arrives (entry 4). -/
inductive Lane where
  /-- Hub to node: received by the node whose bus address is `a` (R44). -/
  | toNode (a : Addr)
  /-- Node to hub: read by the hub as the reply of a poll read (R75). -/
  | toHub
deriving DecidableEq, Repr

/-- A queue controller instance (R19, R95). -/
inductive QueueId where
  /-- `hub_rxq`. -/
  | hubRx
  /-- `node_rxq` of the node at `a`. -/
  | nodeRx (a : Addr)
  /-- `node_txq` of the node at `a`. -/
  | nodeTx (a : Addr)
deriving DecidableEq, Repr

/-- The rows of the opcode table. An operand `k` names the node whose port the operation is presented at
(the agent of a script line, R79). -/
inductive Instr where
  /-- START, R63. -/
  | byteStart (l : Lane)
  /-- END, R64. -/
  | byteEnd (l : Lane)
  /-- ACK, R65. -/
  | byteAck (l : Lane)
  /-- NAK, R66. -/
  | byteNak (l : Lane)
  /-- WRITE, R67. -/
  | byteWrite (l : Lane)
  /-- READ, R68. -/
  | byteRead (l : Lane)
  /-- NO_DATA, R69. -/
  | byteNoData (l : Lane)
  /-- PING, R70. -/
  | bytePing (l : Lane)
  /-- ESC, R71. -/
  | byteEsc (l : Lane)
  /-- NULL, R72. -/
  | byteNull (l : Lane)
  /-- POLL_TERM, R73. -/
  | bytePollTerm (l : Lane)
  /-- PKT.PING, R76: the packet `START a PING t END`. -/
  | pktPing (a : Addr) (t : Byte)
  /-- PKT.READ, R76: the packet `START a READ t END`. -/
  | pktRead (a : Addr) (t : Byte)
  /-- PKT.WRITE, R76: the packet `START a WRITE d t END`. -/
  | pktWrite (a : Addr) (d : List Byte) (t : Byte)
  /-- PKT, R60: the packet `START m t END`. -/
  | pkt (m : List Byte) (t : Byte)
  /-- RPL.NO_DATA, R75. -/
  | rplNoData
  /-- RPL.ACK, R75. -/
  | rplAck
  /-- RPL.NULL, R75. -/
  | rplNull
  /-- RPL.DATA, R75: the reply bytes `r`, address prefix first. -/
  | rplData (r : List Byte)
  /-- FR.ENCODE, R80. -/
  | frEncode (m : List Byte)
  /-- DF.STEP, R81, at node `k`. -/
  | dfStep (k : Addr) (b : Byte)
  /-- DF.DECODE, R82, at node `k`. -/
  | dfDecode (k : Addr) (s : List Byte)
  /-- Q.ENQ, R90. -/
  | qEnq (q : QueueId) (m : List Byte)
  /-- Q.DEQ, R91. -/
  | qDeq (q : QueueId)
  /-- Q.EMPTY, R92. -/
  | qEmpty (q : QueueId)
  /-- N.RECV, R100, at node `k`. -/
  | nRecv (k : Addr) (s : List Byte)
  /-- N.REQ, R101, at node `k`. -/
  | nReq (k : Addr)
  /-- N.SEND, R102, at node `k`. -/
  | nSend (k : Addr) (d : List Byte)
  /-- N.GET, R103, at node `k`. -/
  | nGet (k : Addr)
  /-- H.IDENT, R110. -/
  | hIdent
  /-- H.SCAN, R111. -/
  | hScan
  /-- H.GET, R112. -/
  | hGet
  /-- H.SEND, R113: `a` is any 7-bit bus address. -/
  | hSend (a : Addr) (d : List Byte)
  /-- H.CLIENTS, R114. -/
  | hClients (copy : Bool)
deriving DecidableEq, Repr

end Sys2Proof
end

