-- ==== Sys2Proof/WellFormed.lean ====
section
/-! DEFINITION. Which instructions are well formed: the operand bounds the table and the rules state. -/

namespace Sys2Proof

open Sys2Proof.Config

/-- A message that the rows PKT.PING, PKT.READ or PKT.WRITE encode (R76): a 7-bit address, then `PING` or `READ`
and nothing more, or `WRITE`. -/
def shaped : List Byte → Bool
  | a :: c :: d => !a.msb && ((c == PING && d.isEmpty) || (c == READ && d.isEmpty) || c == WRITE)
  | _ => false

/-- The reply bytes a row RPL.DATA may hold (R75): 1 to 16, the first none of 0x00, `ACK`, `NO_DATA`, 0xFF. -/
def isDataReply : List Byte → Bool
  | [] => false
  | b :: r => b != NULL && b != ACK && b != NO_DATA && b != POLL_TERM && decide (r.length < MAX_MSG_LEN)

/-- Well-formedness. A message is at most `MAX_MSG_LEN` bytes where the rule says so (R60, R74, R76, R90); a
generic PKT is one that no more specific PKT row encodes. -/
def Instr.wellFormed : Instr → Bool
  | .byteStart _ => true
  | .byteEnd _ => true
  | .byteAck _ => true
  | .byteNak _ => true
  | .byteWrite _ => true
  | .byteRead _ => true
  | .byteNoData _ => true
  | .bytePing _ => true
  | .byteEsc _ => true
  | .byteNull _ => true
  | .bytePollTerm _ => true
  | .pktPing _ _ => true
  | .pktRead _ _ => true
  | .pktWrite _ d _ => decide (d.length + 2 ≤ MAX_MSG_LEN)
  | .pkt m _ => decide (1 ≤ m.length) && decide (m.length ≤ MAX_MSG_LEN) && !shaped m
  | .rplNoData => true
  | .rplAck => true
  | .rplNull => true
  | .rplData r => isDataReply r
  | .frEncode _ => true
  | .dfStep _ _ => true
  | .dfDecode _ _ => true
  | .qEnq _ m => decide (m.length ≤ MAX_MSG_LEN)
  | .qDeq _ => true
  | .qEmpty _ => true
  | .nRecv _ _ => true
  | .nReq _ => true
  | .nSend _ _ => true
  | .nGet _ => true
  | .hIdent => true
  | .hScan => true
  | .hGet => true
  | .hSend _ _ => true
  | .hClients _ => true

end Sys2Proof
end

