-- ==== Sys2Proof/Decode.lean ====
section
/-! DEFINITION. The decoder, total on any bytes, and the encoder. Bytes come on one of four channels: the
operation-select port (R78), a single byte on the bus (R63 to R73), a packet (R60), a reply (R75). The operand
bytes of a port frame are the model's own: the spec gives the select codes only (entry 1). Bytes on the bus that are
no row of the table are received all the same: no byte value is illegal (R77, R81, R111). -/

namespace Sys2Proof

open Sys2Proof.Config

/-- Where the bytes of a request are presented, and so which encoding they are in (30_encoding.md). -/
inductive Channel where
  /-- The operation-select port of the blocks (R78). -/
  | port
  /-- One byte on the bus, on lane `l` (R63 to R73). -/
  | byte (l : Lane)
  /-- A packet on the bus, hub to node (R60). -/
  | packet
  /-- A reply on the bus, node to hub (R75). -/
  | reply
deriving DecidableEq, Repr

/-- Why bytes bring nothing: they invoke no operation and reach no block (entry 24). -/
inductive DecodeError where
  /-- No byte at all. -/
  | emptyFrame
  /-- Bytes on the packet channel whose second byte, where a packet has its address (R60, R74), is absent or no bus
  address: they go nowhere (R44, R46). -/
  | noAddress
  /-- A port frame with bytes after the last operand. -/
  | trailingBytes
  /-- A port frame that ends before its operands do. -/
  | truncatedFrame
  /-- A selector or boolean operand byte with no meaning. -/
  | badOperand (b : Byte)
deriving DecidableEq, Repr

/-- What the decoder answers. -/
inductive Decoded where
  /-- An instruction. -/
  | instr (i : Instr)
  /-- Operation-select code 0xF: no operation, no state change (R78). -/
  | inert
  /-- Bytes on the bus that are no row of the table. They arrive all the same, on lane `l` (R47, R77, R111). -/
  | stray (l : Lane) (bs : List Byte)
  /-- No instruction, with the reason. -/
  | rejected (e : DecodeError)
deriving DecidableEq, Repr

/-- The address as it stands in a message: zero-extended to a byte (R10, R74). -/
def addrByte (a : Addr) : Byte := a.setWidth 8

/-- Port selector `x` names the node at address `x + 1` (entry 1). -/
def selAddr (x : Byte) : Addr := x.setWidth 7 + 1

/-- The selector of the node at address `a` (entry 1). -/
def addrSel (a : Addr) : Byte := addrByte (a - 1)

/-- The eleven listed bytes (R63 to R73); any other byte arrives as it is. -/
def decodeByte (l : Lane) (b : Byte) : Decoded :=
  if b = START then .instr (.byteStart l)
  else if b = END then .instr (.byteEnd l)
  else if b = ACK then .instr (.byteAck l)
  else if b = NAK then .instr (.byteNak l)
  else if b = WRITE then .instr (.byteWrite l)
  else if b = READ then .instr (.byteRead l)
  else if b = NO_DATA then .instr (.byteNoData l)
  else if b = PING then .instr (.bytePing l)
  else if b = ESC then .instr (.byteEsc l)
  else if b = NULL then .instr (.byteNull l)
  else if b = POLL_TERM then .instr (.bytePollTerm l)
  else .stray l [b]

/-- The row of a packet with message `m` and trailer `t`: the most specific one (R60, R76). -/
def packetRow (m : List Byte) (t : Byte) : Instr :=
  match m with
  | a :: c :: d =>
    if a.msb = true then .pkt m t
    else if c = PING ∧ d = [] then .pktPing (a.setWidth 7) t
    else if c = READ ∧ d = [] then .pktRead (a.setWidth 7) t
    else if c = WRITE then .pktWrite (a.setWidth 7) d t
    else .pkt m t
  | _ => .pkt m t

/-- Bytes on the packet channel that are no packet: they arrive at the node their second byte names, where a packet has
its address (R44, R60, R74; entry 5). -/
def strayPacket (bs : List Byte) : Decoded :=
  match bs with
  | _ :: x :: _ => if x.msb = true then .rejected .noAddress else .stray (.toNode (x.setWidth 7)) bs
  | _ => .rejected .noAddress

/-- A packet: `START`, 1 to 16 message bytes, trailer, `END` (R60). -/
def decodePacket (bs : List Byte) : Decoded :=
  match bs with
  | [] => .rejected .emptyFrame
  | b :: rest =>
    if b ≠ START then strayPacket bs
    else match rest.reverse with
      | [] => strayPacket bs
      | e :: front =>
        if e ≠ END then strayPacket bs
        else match front with
          | [] => strayPacket bs
          | t :: mr =>
            if mr.length = 0 ∨ MAX_MSG_LEN < mr.length then strayPacket bs
            else .instr (packetRow mr.reverse t)

/-- A reply, told by its first byte (R75); any other bytes the hub reads arrive as they are (R111). -/
def decodeReply (bs : List Byte) : Decoded :=
  match bs with
  | [] => .rejected .emptyFrame
  | b :: rest =>
    if b = NO_DATA then (if rest = [] then .instr .rplNoData else .stray .toHub bs)
    else if b = ACK then (if rest = [] then .instr .rplAck else .stray .toHub bs)
    else if b = NULL then (if rest = [] then .instr .rplNull else .stray .toHub bs)
    else if b = POLL_TERM then .stray .toHub bs
    else if rest.length < MAX_MSG_LEN then .instr (.rplData bs)
    else .stray .toHub bs

/-- A node selector, then what `f` makes of the rest. -/
def withNode (bs : List Byte) (f : Addr → List Byte → Decoded) : Decoded :=
  match bs with
  | [] => .rejected .truncatedFrame
  | x :: rest => if x.msb = true then .rejected (.badOperand x) else f (selAddr x) rest

/-- A queue selector (0: `hub_rxq`; 1 and a node selector: `node_rxq`; 2 and a node selector: `node_txq`), then what
`f` makes of the rest. -/
def withQueue (bs : List Byte) (f : QueueId → List Byte → Decoded) : Decoded :=
  match bs with
  | [] => .rejected .truncatedFrame
  | x :: rest =>
    if x = 0 then f .hubRx rest
    else if x = 1 then withNode rest (fun k => f (.nodeRx k))
    else if x = 2 then withNode rest (fun k => f (.nodeTx k))
    else .rejected (.badOperand x)

/-- `i`, where no byte is left. -/
def atEnd (i : Instr) (rest : List Byte) : Decoded :=
  if rest = [] then .instr i else .rejected .trailingBytes

/-- The operand bytes of an operation with select code `code` (R78; the mask of the table's OP rows takes bits 3:0 of
the first byte and no more). A byte sequence operand is the rest of the frame. -/
def decodeOp (code : Nat) (rest : List Byte) : Decoded :=
  match code with
  | 0x0 => .instr (.frEncode rest)
  | 0x1 => withNode rest (fun k r => match r with
      | [] => .rejected .truncatedFrame
      | b :: r' => atEnd (.dfStep k b) r')
  | 0x2 => withNode rest (fun k s => .instr (.dfDecode k s))
  | 0x3 => withQueue rest (fun q m => .instr (.qEnq q m))
  | 0x4 => withQueue rest (fun q r => atEnd (.qDeq q) r)
  | 0x5 => withQueue rest (fun q r => atEnd (.qEmpty q) r)
  | 0x6 => withNode rest (fun k s => .instr (.nRecv k s))
  | 0x7 => withNode rest (fun k r => atEnd (.nReq k) r)
  | 0x8 => withNode rest (fun k d => .instr (.nSend k d))
  | 0x9 => withNode rest (fun k r => atEnd (.nGet k) r)
  | 0xA => atEnd .hIdent rest
  | 0xB => atEnd .hScan rest
  | 0xC => atEnd .hGet rest
  | 0xD => match rest with
      | [] => .rejected .truncatedFrame
      | a :: d => if a.msb = true then .rejected (.badOperand a) else .instr (.hSend (a.setWidth 7) d)
  | 0xE => match rest with
      | [] => .rejected .truncatedFrame
      | c :: r => if c = 0 then atEnd (.hClients false) r
          else if c = 1 then atEnd (.hClients true) r else .rejected (.badOperand c)
  | _ => .inert

/-- A frame at the operation-select port. -/
def decodePort (bs : List Byte) : Decoded :=
  match bs with
  | [] => .rejected .emptyFrame
  | b :: rest => decodeOp (b.toNat % 16) rest

/-- The decoder: total on every channel and every byte sequence. -/
def decode (ch : Channel) (bs : List Byte) : Decoded :=
  match ch with
  | .port => decodePort bs
  | .byte l => match bs with
      | [] => .rejected .emptyFrame
      | [b] => decodeByte l b
      | _ :: _ :: _ => .stray l bs
  | .packet => decodePacket bs
  | .reply => decodeReply bs

/-- The bytes of a packet with message `m` and trailer `t` (R60). -/
def packetBytes (m : List Byte) (t : Byte) : List Byte := START :: (m ++ [t, END])

/-- The operand bytes of a queue selector (entry 1). -/
def queueSel : QueueId → List Byte
  | .hubRx => [0]
  | .nodeRx k => [1, addrSel k]
  | .nodeTx k => [2, addrSel k]

/-- The encoder: the channel an instruction's bytes come on, and the bytes (30_encoding.md; port operands: entry 1). -/
def encode : Instr → Channel × List Byte
  | .byteStart l => (.byte l, [0x82])
  | .byteEnd l => (.byte l, [0x83])
  | .byteAck l => (.byte l, [0x86])
  | .byteNak l => (.byte l, [0x95])
  | .byteWrite l => (.byte l, [0xD7])
  | .byteRead l => (.byte l, [0xD2])
  | .byteNoData l => (.byte l, [0xB0])
  | .bytePing l => (.byte l, [0xB1])
  | .byteEsc l => (.byte l, [0x9B])
  | .byteNull l => (.byte l, [0x00])
  | .bytePollTerm l => (.byte l, [0xFF])
  | .pktPing a t => (.packet, packetBytes [addrByte a, 0xB1] t)
  | .pktRead a t => (.packet, packetBytes [addrByte a, 0xD2] t)
  | .pktWrite a d t => (.packet, packetBytes (addrByte a :: 0xD7 :: d) t)
  | .pkt m t => (.packet, packetBytes m t)
  | .rplNoData => (.reply, [0xB0])
  | .rplAck => (.reply, [0x86])
  | .rplNull => (.reply, [0x00])
  | .rplData r => (.reply, r)
  | .frEncode m => (.port, 0x00 :: m)
  | .dfStep k b => (.port, [0x01, addrSel k, b])
  | .dfDecode k s => (.port, 0x02 :: addrSel k :: s)
  | .qEnq q m => (.port, 0x03 :: (queueSel q ++ m))
  | .qDeq q => (.port, 0x04 :: queueSel q)
  | .qEmpty q => (.port, 0x05 :: queueSel q)
  | .nRecv k s => (.port, 0x06 :: addrSel k :: s)
  | .nReq k => (.port, [0x07, addrSel k])
  | .nSend k d => (.port, 0x08 :: addrSel k :: d)
  | .nGet k => (.port, [0x09, addrSel k])
  | .hIdent => (.port, [0x0A])
  | .hScan => (.port, [0x0B])
  | .hGet => (.port, [0x0C])
  | .hSend a d => (.port, 0x0D :: addrByte a :: d)
  | .hClients copy => (.port, [0x0E, if copy then 1 else 0])

/-- The low `n` bytes of `w`, the least significant first. -/
def bytesOf : Nat → Nat → List Byte
  | 0, _ => []
  | n + 1, w => BitVec.ofNat 8 w :: bytesOf n (w / 256)

/-- How many fixed operand bytes follow select code `code` (with `hub_rxq` for a queue operand). -/
def fixedOperands : Nat → Nat
  | 0x1 => 2
  | 0x2 | 0x3 | 0x4 | 0x5 | 0x6 | 0x7 | 0x8 | 0x9 => 1
  | 0xD | 0xE => 1
  | _ => 0

/-- Whether a byte is one of the eleven listed ones. -/
def isListedByte (b : Byte) : Bool :=
  b == START || b == END || b == ACK || b == NAK || b == WRITE || b == READ || b == NO_DATA || b == PING || b == ESC
    || b == NULL || b == POLL_TERM

/-- The channel a table word is presented on (entry 3): 32 bits and more are a packet, 16 and 24 bits a reply; of 8
bits, one of the eleven listed bytes is that byte on the bus to node 1 (its row fixes all 8 bits), any other byte an
operation (its row fixes bits 3:0). -/
def tableChannel (nbits w : Nat) : Channel :=
  if 32 ≤ nbits then .packet
  else if 8 < nbits then .reply
  else if nbits = 8 ∧ isListedByte (BitVec.ofNat 8 w) = true then .byte (.toNode 1)
  else .port

/-- The bytes of a table word: its own, and after a select code the operand bytes, all 0 (entry 3). -/
def tableBytes (nbits w : Nat) : List Byte :=
  match tableChannel nbits w with
  | .port => BitVec.ofNat 8 w :: List.replicate (fixedOperands (w % 16)) 0
  | _ => bytesOf ((nbits + 7) / 8) w

/-- The instruction the decoder reads from a table word of `nbits` bits, bit 0 the least significant of its first byte. -/
def decodeTableWord (nbits w : Nat) : Option Instr :=
  match decode (tableChannel nbits w) (tableBytes nbits w) with
  | .instr i => some i
  | .inert => none
  | .stray _ _ => none
  | .rejected _ => none

end Sys2Proof
end

