-- ==== Sys2Proof/Machine/State.lean ====
section
/-! DEFINITION. The state of the system (10_state.md), as plain data, and its reset values (R34). -/

namespace Sys2Proof.Machine

open Sys2Proof.Config

/-- A message slot: `len` and `data[0..15]` (R19). -/
structure Slot where
  len : Fin 17
  data : Vector Byte 16
deriving DecidableEq, Repr

/-- A queue controller instance of capacity `cap`: the ring buffer of R19. -/
structure Queue (cap : Nat) where
  slots : Vector Slot cap
  head : Fin cap
  tail : Fin cap
  count : Fin (cap + 1)
deriving DecidableEq, Repr

/-- The deframer: `df_sync`, `df_buf`, `df_par`, `df_cur` (R14 to R17). -/
structure Deframer where
  sync : Bool
  buf : Vector Byte 16
  par : Byte
  cur : Fin 17
deriving DecidableEq, Repr

/-- The event of one DF.STEP (R81). -/
inductive DfEvent where
  | noPacket
  | valid (p : List Byte)
  | invalid (p : List Byte)
deriving DecidableEq, Repr

/-- One node: its configuration (R23, R7), deframer, pending-command register (R21), queues (R19), flag (R22), and the
transport's receive stream of the node (R32(a)). -/
structure Node where
  /-- `NODE_ADDR`. -/
  addr : Addr
  /-- `RX_INVALID_POLICY`. -/
  policy : Policy
  df : Deframer
  /-- `pc_valid`. -/
  pcValid : Bool
  /-- `pc_cmd`. -/
  pcCmd : Byte
  /-- `node_rxq`. -/
  rxq : Queue 20
  /-- `node_txq`. -/
  txq : Queue 20
  /-- `n_alloc_fail`. -/
  allocFail : Bool
  /-- Bytes of hub writes the transport has accepted and not yet handed to N.RECV. -/
  wire : List Byte
deriving DecidableEq, Repr

/-- The hub: roster (R24), rate limiter (R25), inbound queue (R19), flag (R26). -/
structure Hub where
  roster : Vector Byte 125
  /-- `roster_cnt`. -/
  rosterCnt : Fin 126
  /-- `last_scan`. -/
  lastScan : Millis
  /-- `last_scan_valid`. -/
  lastScanValid : Bool
  /-- `hub_rxq`. -/
  rxq : Queue 40
  /-- `h_alloc_fail`. -/
  allocFail : Bool
deriving DecidableEq, Repr

/-- What an operation returns at its port (R120 and each operation's rule). -/
inductive Result where
  /-- The operation returns nothing (N.RECV, H.SCAN, bytes on the bus). -/
  | nothing
  /-- FR.ENCODE, `Sent(bytes)`. -/
  | sent (bytes : List Byte)
  /-- FR.ENCODE, `NothingToSend`. -/
  | nothingToSend
  /-- DF.STEP. -/
  | event (e : DfEvent)
  /-- DF.DECODE: the event and the unconsumed rest. -/
  | decoded (e : DfEvent) (rest : List Byte)
  /-- `Ok` of Q.ENQ and N.SEND. -/
  | ok
  /-- `QueueFull` of Q.ENQ and N.SEND. -/
  | queueFull
  /-- Q.DEQ, `Msg(m)`. -/
  | msg (m : List Byte)
  /-- Q.DEQ, `QueueEmpty`. -/
  | queueEmpty
  /-- Q.EMPTY. -/
  | truth (b : Bool)
  /-- N.REQ. -/
  | reply (p : List Byte)
  /-- N.GET, `Data(d)`. -/
  | data (d : List Byte)
  /-- N.GET, `NoData`. -/
  | noData
  /-- H.IDENT. -/
  | count (n : Nat)
  /-- H.GET, `(addr, d)`. -/
  | got (addr : Byte) (d : List Byte)
  /-- H.SEND: whether the presence probe completed. -/
  | probed (done : Bool)
  /-- H.CLIENTS, `(count, list)`. -/
  | clients (n : Nat) (list : List Byte)
deriving DecidableEq, Repr

/-- What the last operation did that an observer outside the blocks can see, in order (R27, R79). -/
inductive BusEvent where
  /-- `BusWrite(a, bytes)`. -/
  | write (a : Addr) (bytes : List Byte)
  /-- `BusRead(a, n) -> (done, bytes)`. -/
  | read (a : Addr) (n : Nat) (done : Bool) (bytes : List Byte)
  /-- An operation of the application of the node at `a`, run between bus transactions, and its result. -/
  | app (a : Addr) (r : Result)
deriving DecidableEq, Repr

/-- What may happen at the nodes between two bus transactions of a hub operation, or between two inputs (R52, R135). -/
inductive Event where
  /-- The transport hands the node at `a` the next `n` bytes of its receive stream, as one chunk (R47). -/
  | chunk (a : Addr) (n : Nat)
  /-- The application of the node at `a` invokes N.SEND. -/
  | send (a : Addr) (d : List Byte)
  /-- The application of the node at `a` invokes N.GET. -/
  | get (a : Addr)
  /-- The clock moves to `t` (R131). -/
  | clock (t : Millis)
  /-- The reset event of the node at `a` (R140). -/
  | resetNode (a : Addr)
deriving DecidableEq, Repr

/-- How a read transaction ends (R45, R155, R159). -/
inductive ReadFate where
  /-- It completes, if a node answers. -/
  | completes
  /-- It does not complete, and the node was not asked. -/
  | unasked
  /-- It does not complete, though the node's N.REQ ran: the reply is lost. -/
  | replyLost
  /-- It never ends. -/
  | stuck
deriving DecidableEq, Repr

/-- The transport's behaviour in one exchange, a `BusWrite` and the `BusRead` after it (R44 to R48; U9). -/
structure Plan where
  /-- What happens before the write. -/
  before : List Event
  /-- The write reaches nobody (R44). -/
  lost : Bool
  /-- Error values exclusive-ored onto the delivered bytes, position by position; none past its end (R44, R85). -/
  errs : List Byte
  /-- What happens between the write and the read; chunks the transport has not delivered by then are delivered
  before the node is asked (R51). -/
  between : List Event
  fate : ReadFate
  /-- Error values on the reply bytes (R150). -/
  replyErrs : List Byte
  /-- What the transport returns past the end of the reply (R45, R148). -/
  fill : List Byte
  /-- The most bytes the read returns (R48). -/
  limit : Nat
deriving DecidableEq, Repr

/-- Who invokes an operation, and in which context (R78, R95, R133, R138). -/
inductive Invoker where
  /-- The transport: bytes on the bus. -/
  | transport
  /-- The transport, in the callback context of the node at `a`. -/
  | callback (a : Addr)
  /-- The application of the node at `a`. -/
  | application (a : Addr)
  /-- The hub application. -/
  | hubApplication
  /-- A test bench: the one invoker of DF.DECODE. -/
  | testBench
  /-- The operation H.IDENT. -/
  | opIdent
  /-- The operation H.SCAN. -/
  | opScan
  /-- The operation H.GET. -/
  | opHubGet
  /-- The operation H.SEND. -/
  | opHubSend
  /-- The operation N.RECV of the node at `a`. -/
  | opRecv (a : Addr)
  /-- The operation N.REQ of the node at `a`. -/
  | opReq (a : Addr)
  /-- The operation N.SEND of the node at `a`. -/
  | opNodeSend (a : Addr)
  /-- The operation N.GET of the node at `a`. -/
  | opNodeGet (a : Addr)
deriving DecidableEq, Repr

/-- What an agent outside the blocks presents next (R79, R135, R140, R142). -/
inductive Input where
  /-- `who` presents bytes on a channel: an instruction (entry 1). -/
  | request (who : Invoker) (ch : Channel) (bytes : List Byte)
  /-- An event at a node, or of the clock. -/
  | event (e : Event)
  /-- The reset event of the hub (R140). -/
  | resetHub
  /-- A node comes up at `a`, out of reset (R135, R142). -/
  | join (a : Addr) (policy : Policy)
  /-- The node at `a` goes away (R157). -/
  | leave (a : Addr)
deriving DecidableEq, Repr

/-- The whole system: one hub, its nodes, the clock, and the model's own fields. -/
structure State where
  /-- `MAX_CLIENTS` (R7). -/
  maxClients : Fin 127
  hub : Hub
  nodes : List Node
  /-- The value of the millisecond clock (R131). -/
  now : Millis
  /-- The transport's behaviour in the exchanges to come, the next one first; after the last, the reference bus of R49 (entry 11). -/
  plans : List Plan
  /-- What the agents will present, the next one first (entry 2). -/
  inputs : List Input
  /-- The result of the last operation (entry 15). -/
  out : Result
  /-- The bus transactions of the last operation (entry 15). -/
  trace : List BusEvent
  /-- How many free values have been used (entry 18). -/
  freeCount : Nat
deriving DecidableEq, Repr

/-- Why the machine stops. -/
inductive Fault where
  /-- Raised by a hub operation whose bus transaction never ends: not detected or recovered (R159; U9 `stuck`).
  Safe: the hardware makes no progress either. -/
  | busStuck
deriving DecidableEq, Repr

/-- Why a step is refused. -/
inductive Refusal where
  /-- Raised by `exec` for an instruction with no meaning yet. Safe. -/
  | notModelled (mnemonic : String)
  /-- Raised by `step` on a configuration outside the spec (U7, U8; R163). Safe. -/
  | illegalConfiguration
  /-- Raised by `step` on a decoded instruction whose operands break a bound. Safe. -/
  | illFormed
  /-- Raised by an operation of node `a` where no such node is on the bus (entry 16). Safe. -/
  | noSuchNode (a : Addr)
deriving DecidableEq, Repr

/-- A slot at reset: contents unspecified (R34); zero is DESIGN CHOICE, entry 9. -/
def Slot.reset : Slot := { len := 0, data := Vector.replicate 16 0 }

/-- An empty queue, R34. -/
def Queue.reset20 : Queue 20 := { slots := Vector.replicate 20 Slot.reset, head := 0, tail := 0, count := 0 }

/-- An empty queue, R34. -/
def Queue.reset40 : Queue 40 := { slots := Vector.replicate 40 Slot.reset, head := 0, tail := 0, count := 0 }

/-- The deframer at reset, R34. -/
def Deframer.reset : Deframer := { sync := false, buf := Vector.replicate 16 0, par := 0, cur := 0 }

/-- A node at reset, R34; its configuration is given. -/
def Node.reset (a : Addr) (policy : Policy) : Node :=
  { addr := a, policy := policy, df := Deframer.reset, pcValid := false, pcCmd := 0, rxq := Queue.reset20,
    txq := Queue.reset20, allocFail := false, wire := [] }

/-- The hub at reset, R34; the roster's entries are DESIGN CHOICE, entry 8. -/
def Hub.reset : Hub :=
  { roster := Vector.replicate 125 0, rosterCnt := 0, lastScan := 0, lastScanValid := false, rxq := Queue.reset40,
    allocFail := false }

/-- The reference bus as a plan (R49). -/
def Plan.reference : Plan :=
  { before := [], lost := false, errs := [], between := [], fate := .completes, replyErrs := [],
    fill := List.replicate 8 BUS_FILL, limit := 8 }

/-- The machine right after reset (R34, R141), with a node at every legal address (entry 7). -/
def State.reset : State :=
  { maxClients := MAX_CLIENTS, hub := Hub.reset,
    nodes := [1, 2, 3, 4, 5, 6, 7, 8, 9, 10, 11, 12, 13, 14, 15].map (fun a => Node.reset a .accept),
    now := 0, plans := [], inputs := [], out := .nothing, trace := [], freeCount := 0 }

end Sys2Proof.Machine
end

