-- ==== Sys2Proof/Machine/Operands.lean ====
section
/-! DEFINITION. Operand forms: byte sequences and their exclusive-or (R10, R11), messages and their cuts (R61, R74, R102,
R113), slots and queue contents, the roster, the node an address or a lane names. -/

namespace Sys2Proof.Machine

open Sys2Proof.Config

/-- `xor_all(s)` (R11). -/
def xorAll : List Byte → Byte
  | [] => 0
  | b :: s => b ^^^ xorAll s

/-- `first_index(s, v)` (R11). -/
def firstIndex (v : Byte) : List Byte → Nat
  | [] => 0
  | b :: s => if b = v then 0 else firstIndex v s + 1

/-- The trailer of a message (R61). -/
def trailer (m : List Byte) : Byte := START ^^^ xorAll m ^^^ END

/-- The packet of a non-empty message (R60, R80). -/
def framed (m : List Byte) : List Byte := packetBytes m (trailer m)

/-- The ping message of H.IDENT (R74, R110). -/
def pingMsg (a : Addr) : List Byte := [addrByte a, PING]

/-- The read-request message of H.SCAN for a roster entry (R74, R111). -/
def readMsg (a : Byte) : List Byte := [a, READ]

/-- The write message of H.SEND: the payload cut to 14 bytes (R74, R113). -/
def writeMsg (a : Addr) (d : List Byte) : List Byte := (addrByte a :: WRITE :: d).take MAX_MSG_LEN

/-- The message of N.SEND: the payload cut to 15 bytes (R74, R102). -/
def nodeMsg (a : Addr) (d : List Byte) : List Byte := addrByte a :: d.take (MAX_MSG_LEN - 1)

/-- Bytes `s` with the error values `es` exclusive-ored on, position by position (R85). -/
def corrupt : List Byte → List Byte → List Byte
  | _, [] => []
  | [], s => s
  | e :: es, b :: s => (b ^^^ e) :: corrupt es s

/-- The message in a slot, `data[0..len)` (R20). -/
def Slot.msg (c : Slot) : List Byte := c.data.toList.take c.len.val

/-- A slot after `m` is written to it: `len` and the first `|m|` bytes of `data` (R90). Of a message longer than the
slot, which no well-formed operation writes, the first 16 bytes (entry 23). -/
def Slot.write (c : Slot) (m : List Byte) : Slot :=
  { len := ⟨min m.length 16, by omega⟩,
    data := ⟨⟨(m ++ c.data.toList.drop m.length).take 16⟩, by simp; omega⟩ }

/-- `(i + 1) mod CAP` (R90, R91). -/
def nextIndex {cap : Nat} (i : Fin cap) : Fin cap :=
  ⟨(i.val + 1) % cap, Nat.mod_lt _ (Nat.lt_of_le_of_lt (Nat.zero_le _) i.isLt)⟩

/-- The index `(i + k) mod CAP` (R20). -/
def ringIndex {cap : Nat} (i : Fin cap) (k : Nat) : Fin cap :=
  ⟨(i.val + k) % cap, Nat.mod_lt _ (Nat.lt_of_le_of_lt (Nat.zero_le _) i.isLt)⟩

/-- The abstract content `q.list` of a queue instance, oldest first (R20). -/
def Queue.list {cap : Nat} (q : Queue cap) : List (List Byte) :=
  (List.range q.count.val).map (fun k => q.slots[ringIndex q.head k].msg)

/-- The live part of the roster, `roster[0..roster_cnt)` (R24). -/
def Hub.live (h : Hub) : List Byte := h.roster.toList.take h.rosterCnt.val

/-- The addresses H.IDENT sweeps, `1..N-1` ascending (R110). -/
def sweep (n : Nat) : List Addr := (List.range' 1 (n - 1)).map (BitVec.ofNat 7)

/-- The node on the bus with `NODE_ADDR = a`, if there is one (R44, R46). -/
def State.node? (s : State) (a : Addr) : Option Node := s.nodes.find? (fun n => n.addr = a)

/-- The bus address a message names in its first byte: none when it is not a 7-bit address (R46, R74). -/
def destination (m : List Byte) : Option Addr :=
  match m with
  | [] => none
  | b :: _ => if b.msb = true then none else some (b.setWidth 7)

/-- The one producer of a queue instance (R95). -/
def producer : QueueId → Invoker
  | .hubRx => .opScan
  | .nodeRx a => .opRecv a
  | .nodeTx a => .opNodeSend a

/-- The one consumer of a queue instance (R95). -/
def consumer : QueueId → Invoker
  | .hubRx => .opHubGet
  | .nodeRx a => .opNodeGet a
  | .nodeTx a => .opReq a

/-- Who may invoke an instruction: the column "invoked by" of R78, for a queue operation the instance's own end (R95), for
bytes on the bus the transport. No other agent's port is wired to it (R138). -/
def invokers : Instr → List Invoker
  | .byteStart _ => [.transport]
  | .byteEnd _ => [.transport]
  | .byteAck _ => [.transport]
  | .byteNak _ => [.transport]
  | .byteWrite _ => [.transport]
  | .byteRead _ => [.transport]
  | .byteNoData _ => [.transport]
  | .bytePing _ => [.transport]
  | .byteEsc _ => [.transport]
  | .byteNull _ => [.transport]
  | .bytePollTerm _ => [.transport]
  | .pktPing _ _ => [.transport]
  | .pktRead _ _ => [.transport]
  | .pktWrite _ _ _ => [.transport]
  | .pkt _ _ => [.transport]
  | .rplNoData => [.transport]
  | .rplAck => [.transport]
  | .rplNull => [.transport]
  | .rplData _ => [.transport]
  | .frEncode _ => [.opIdent, .opScan, .opHubSend]
  | .dfStep a _ => [.opRecv a]
  | .dfDecode _ _ => [.testBench]
  | .qEnq q _ => [producer q]
  | .qDeq q => [consumer q]
  | .qEmpty q => [consumer q]
  | .nRecv a _ => [.callback a]
  | .nReq a => [.callback a]
  | .nSend a _ => [.application a]
  | .nGet a => [.application a]
  | .hIdent => [.hubApplication]
  | .hScan => [.opHubGet]
  | .hGet => [.hubApplication]
  | .hSend _ _ => [.hubApplication]
  | .hClients _ => [.hubApplication]

/-- The storage arrays of R40. -/
inductive Space where
  /-- `df_buf` of the node at `a`. -/
  | dfBuf (a : Addr)
  /-- `data` of slot `i` of queue `q`. -/
  | slotData (q : QueueId) (i : Nat)
  /-- `roster` of the hub. -/
  | roster
deriving DecidableEq, Repr

/-- The bytes of slot `i`, none past the last slot. -/
def Queue.slotBytes {cap : Nat} (q : Queue cap) (i : Nat) : List Byte :=
  if h : i < cap then q.slots[i].data.toList else []

/-- All the bytes of a storage array, none where its node is absent (R40). -/
def State.space (s : State) : Space → List Byte
  | .dfBuf a => match s.node? a with
    | some n => n.df.buf.toList
    | none => []
  | .slotData q i => match q with
    | .hubRx => s.hub.rxq.slotBytes i
    | .nodeRx a => match s.node? a with
      | some n => n.rxq.slotBytes i
      | none => []
    | .nodeTx a => match s.node? a with
      | some n => n.txq.slotBytes i
      | none => []
  | .roster => s.hub.roster.toList

/-- `MemRead(space, i, n)` (R12, R40). -/
def State.memRead (s : State) (sp : Space) (i n : Nat) : List Byte := ((s.space sp).drop i).take n

end Sys2Proof.Machine
end

