-- ==== Sys2Proof/Machine/Flags.lean ====
section
/-! DEFINITION. Flags and verdicts: the parity test (R62), the derived queue flags (R28), the class of a command byte
(R77), the rate limit (R112), the pending-command state (R104), status and event codes (R120). -/

namespace Sys2Proof.Machine

open Sys2Proof.Config

/-- The validity test `df_par & 0x7F = 0` (R62, R81). -/
def parityOk (par : Byte) : Bool := par &&& PARITY_MASK == 0

/-- `q.empty` (R28). -/
def Queue.empty {cap : Nat} (q : Queue cap) : Bool := q.count.val == 0

/-- `q.full` (R28). -/
def Queue.full {cap : Nat} (q : Queue cap) : Bool := q.count.val == cap

/-- The control-only commands, whose packets are not queued (R77, R100). -/
def controlOnly (cmd : Byte) : Bool := cmd == PING || cmd == READ || cmd == NO_DATA

/-- The first bytes of a poll reply that mean nothing is pending (R77, R111). -/
def nothingPending (b : Byte) : Bool := b == NULL || b == ACK || b == NO_DATA

/-- Whether H.GET polls at clock value `now` (R112). -/
def Hub.scanDue (h : Hub) (now : Millis) : Bool :=
  !h.lastScanValid || decide (SCAN_INTERVAL_MS ≤ (now - h.lastScan).toNat)

/-- The pending-command state: `none` is `NoCommand`, `some c` is `HasCommand(c)` (R104). -/
def Node.pending (n : Node) : Option Byte := if n.pcValid = true then some n.pcCmd else none

/-- The status outcomes (R120). -/
inductive Status where
  | ok
  | nothingToSend
  | queueFull
  | queueEmpty
  | busNotDone
deriving DecidableEq, Repr

/-- The numeric codes of the status outcomes (R120). -/
def Status.code : Status → Nat
  | .ok => 0
  | .nothingToSend => 1
  | .queueFull => 2
  | .queueEmpty => 3
  | .busNotDone => 4

/-- The numeric codes of the deframer events (R120). -/
def DfEvent.code : DfEvent → Nat
  | .noPacket => 0
  | .valid _ => 1
  | .invalid _ => 2

/-- The payload of a terminating event (R81). -/
def DfEvent.payload : DfEvent → Option (List Byte)
  | .noPacket => none
  | .valid p => some p
  | .invalid p => some p

/-- The status outcome of a result, where R120 lists one. H.GET's no-data result is address 0 with no payload. -/
def Result.status : Result → Option Status
  | .sent _ => some .ok
  | .nothingToSend => some .nothingToSend
  | .ok => some .ok
  | .queueFull => some .queueFull
  | .msg _ => some .ok
  | .queueEmpty => some .queueEmpty
  | .data _ => some .ok
  | .noData => some .queueEmpty
  | .got a d => if a = 0 ∧ d = [] then some .queueEmpty else none
  | .probed done => some (if done = true then .ok else .busNotDone)
  | .nothing => none
  | .event _ => none
  | .decoded _ _ => none
  | .truth _ => none
  | .reply _ => none
  | .count _ => none
  | .clients _ _ => none

end Sys2Proof.Machine
end

