-- ==== Sys2Proof/Machine/Ops.lean ====
section
/-! DEFINITION. The named operations over the state: the deframer (R81, R82), the queues (R90, R91), the node agent (R100
to R103), the bus (R44 to R49), resets (R140), and the hub's handling of what it reads (R110 to R112). There is no trap
to take and none to return from (R127): a status outcome is a value in `out`. -/

namespace Sys2Proof.Machine

open Sys2Proof.Config

/-! ### Updates of the state -/

/-- The operation's result is `r`. -/
def State.ret (s : State) (r : Result) : State := { s with out := r }

/-- A new operation: no result yet, no bus transaction yet. -/
def State.start (s : State) : State := { s with out := .nothing, trace := [] }

/-- `e` is the latest bus event. -/
def State.log (s : State) (e : BusEvent) : State := { s with trace := s.trace ++ [e] }

/-- The node at `a`, if there is one, becomes `f` of it. -/
def State.mapNode (s : State) (a : Addr) (f : Node → Node) : State :=
  { s with nodes := s.nodes.map (fun n => if n.addr = a then f n else n) }

/-- The hub becomes `f` of it. -/
def State.mapHub (s : State) (f : Hub → Hub) : State := { s with hub := f s.hub }

/-- The clock shows `t`. -/
def State.setNow (s : State) (t : Millis) : State := { s with now := t }

/-- The transport's plans are `ps`. -/
def State.setPlans (s : State) (ps : List Plan) : State := { s with plans := ps }

/-- The inputs to come are `is`. -/
def State.setInputs (s : State) (is : List Input) : State := { s with inputs := is }

/-- One more free value is used. -/
def State.useFree (s : State) : State := { s with freeCount := s.freeCount + 1 }

/-! ### The deframer -/

/-- A START byte in any state: clear, accumulator at START (R81). -/
def Deframer.restart (d : Deframer) : Deframer :=
  { d with sync := true, buf := Vector.replicate 16 0, par := START, cur := 0 }

/-- Append `b` at the cursor; reached with `df_cur ≤ 15` (R81). -/
def Deframer.append (d : Deframer) (b : Byte) : Deframer :=
  { d with buf := d.buf.setIfInBounds d.cur.val b, par := d.par ^^^ b, cur := ⟨min (d.cur.val + 1) 16, by omega⟩ }

/-- Termination by byte `b`: it is folded in, the last buffered byte is dropped, a zero is written after the payload,
synchronisation ends (R81). -/
def Deframer.terminate (d : Deframer) (b : Byte) : Deframer :=
  { sync := false, buf := d.buf.setIfInBounds (d.cur.val - 1) 0, par := d.par ^^^ b,
    cur := ⟨d.cur.val - 1, by omega⟩ }

/-- `df_buf[0..df_cur)`. -/
def Deframer.held (d : Deframer) : List Byte := d.buf.toList.take d.cur.val

/-- The event of a termination that left the deframer as `d` (R81). -/
def Deframer.verdict (d : Deframer) : DfEvent := if parityOk d.par = true then .valid d.held else .invalid d.held

/-- DF.STEP (R81). -/
def Deframer.step (d : Deframer) (b : Byte) : DfEvent × Deframer :=
  if b = START then (.noPacket, d.restart)
  else if d.sync = false then (.noPacket, d)
  else if b = END ∨ d.cur.val = MAX_MSG_LEN then ((d.terminate b).verdict, d.terminate b)
  else (.noPacket, d.append b)

/-- DF.DECODE: step until a byte terminates; the event, the unconsumed rest, the deframer (R82). -/
def Deframer.decode (d : Deframer) : List Byte → DfEvent × List Byte × Deframer
  | [] => (.noPacket, [], d)
  | b :: s =>
    match d.step b with
    | (.noPacket, d') => Deframer.decode d' s
    | (.valid p, d') => (.valid p, s, d')
    | (.invalid p, d') => (.invalid p, s, d')

/-! ### The queue controller -/

/-- Q.ENQ: `none` is `QueueFull` (R90). -/
def Queue.enqueue {cap : Nat} (q : Queue cap) (m : List Byte) : Option (Queue cap) :=
  if h : q.count.val = cap then none
  else some { q with
    slots := q.slots.set q.tail ((q.slots[q.tail]).write m)
    tail := nextIndex q.tail
    count := ⟨q.count.val + 1, by omega⟩ }

/-- Q.DEQ: `none` is `QueueEmpty` (R91). -/
def Queue.dequeue {cap : Nat} (q : Queue cap) : Option (List Byte × Queue cap) :=
  if q.count.val = 0 then none
  else some ((q.slots[q.head]).msg,
    { q with head := nextIndex q.head, count := ⟨q.count.val - 1, by omega⟩ })

/-- Q.ENQ as its port shows it: the result, and the queue, unchanged on failure (R90). -/
def Queue.put {cap : Nat} (q : Queue cap) (m : List Byte) : Result × Queue cap :=
  match q.enqueue m with
  | some q' => (.ok, q')
  | none => (.queueFull, q)

/-- Q.DEQ as its port shows it (R91). -/
def Queue.get {cap : Nat} (q : Queue cap) : Result × Queue cap :=
  match q.dequeue with
  | some (m, q') => (.msg m, q')
  | none => (.queueEmpty, q)

/-! ### The node agent -/

/-- A completed packet with payload `p` is accepted: its command becomes pending, and it is queued if payload-bearing;
a full queue drops it and sets the flag (R100, R123). -/
def Node.accept (n : Node) (p : List Byte) : Node :=
  let cmd := n.df.buf[1]
  if controlOnly cmd = true then { n with pcValid := true, pcCmd := cmd }
  else match n.rxq.enqueue p with
    | some q => { n with pcValid := true, pcCmd := cmd, rxq := q }
    | none => { n with pcValid := true, pcCmd := cmd, allocFail := true }

/-- What N.RECV does on the event `e` of one byte (R100). -/
def Node.onEvent (n : Node) (e : DfEvent) : Node :=
  match e with
  | .noPacket => n
  | .valid p => n.accept p
  | .invalid p => match n.policy with
    | .accept => n.accept p
    | .drop => n

/-- One byte of N.RECV (R100). -/
def Node.recvByte (n : Node) (b : Byte) : Node :=
  { n with df := (n.df.step b).2 }.onEvent (n.df.step b).1

/-- N.RECV: the whole chunk, byte by byte (R100). -/
def Node.recv (n : Node) (s : List Byte) : Node := s.foldl Node.recvByte n

/-- N.REQ: the reply, and the node after it (R101). -/
def Node.req (n : Node) : List Byte × Node :=
  if n.pcValid = false then ([NO_DATA], { n with pcValid := false })
  else if n.pcCmd ≠ READ then ([ACK], { n with pcValid := false })
  else match n.txq.dequeue with
    | none => ([NULL], { n with pcValid := false })
    | some (m, q) => (m, { n with pcValid := false, txq := q })

/-- N.SEND (R102). -/
def Node.send (n : Node) (d : List Byte) : Result × Node :=
  ((n.txq.put (nodeMsg n.addr d)).1, { n with txq := (n.txq.put (nodeMsg n.addr d)).2 })

/-- N.GET (R103). -/
def Node.get (n : Node) : Result × Node :=
  match n.rxq.dequeue with
  | none => (.noData, n)
  | some (m, q) => (.data (m.drop 1), { n with rxq := q })

/-- The node's reset event: configuration stays (R140, R141), and so does what the transport still holds (entry 20). -/
def Node.restart (n : Node) : Node := { Node.reset n.addr n.policy with wire := n.wire }

/-- The transport takes bytes for the node (R44, R47). -/
def Node.accrue (n : Node) (s : List Byte) : Node := { n with wire := n.wire ++ s }

/-- The transport hands over the next `k` bytes as one chunk (R47). -/
def Node.handOver (n : Node) (k : Nat) : Node :=
  { n with wire := n.wire.drop k }.recv (n.wire.take k)

/-- The transport hands over all it holds. -/
def Node.flush (n : Node) : Node := n.handOver n.wire.length

/-- A read reaches the node: every chunk still held comes first (R51), then N.REQ. -/
def Node.answer (n : Node) : List Byte × Node := n.flush.req

/-- An operation presented at a port of node `k`: `op` gives its result and the node after it. -/
def State.atNode (s : State) (k : Addr) (op : Node → Result × Node) :
    Host.Outcome State Fault Refusal :=
  match s.node? k with
  | none => .refused (.noSuchNode k)
  | some n => .next ((s.start.mapNode k (fun m => (op m).2)).ret (op n).1)

/-- Bytes arrive at the node with bus address `a`, after all the transport still holds for it (R44, R47, R51); with no
such node they go nowhere. -/
def State.deliver (s : State) (a : Addr) (bs : List Byte) : State := s.mapNode a (fun n => (n.accrue bs).flush)

/-! ### The bus -/

/-- An application operation between bus transactions, and its result in the trace (R52). At an address with no node there is
no application to invoke it: nothing happens and nothing is logged (DESIGN CHOICE, entry 16). -/
def State.appAt (s : State) (a : Addr) (op : Node → Result × Node) : State :=
  match s.node? a with
  | none => s
  | some n => (s.mapNode a (fun m => (op m).2)).log (.app a (op n).1)

/-- One event (R52, R135). -/
def State.runEvent (s : State) (e : Event) : State :=
  match e with
  | .chunk a k => s.mapNode a (fun n => n.handOver k)
  | .send a d => s.appAt a (fun n => n.send d)
  | .get a => s.appAt a Node.get
  | .clock t => s.setNow t
  | .resetNode a => s.mapNode a Node.restart

/-- Events in order. -/
def State.runEvents (s : State) (es : List Event) : State := es.foldl State.runEvent s

/-- The plan of the next exchange; with none left, the reference bus (entry 11). -/
def State.plan (s : State) : Plan := s.plans.headD Plan.reference

/-- `BusWrite(a, bs)` under a plan (R44). -/
def State.busWrite (s : State) (p : Plan) (a : Addr) (bs : List Byte) : State :=
  if p.lost = true then s.log (.write a bs)
  else (s.mapNode a (fun n => n.accrue (corrupt p.errs bs))).log (.write a bs)

/-- What the hub receives of a reply: at most `k` bytes, past the reply's end what the transport fills in (R45, R49). -/
def Plan.received (p : Plan) (k : Nat) (reply : List Byte) : List Byte :=
  ((corrupt p.replyErrs reply ++ p.fill).take k).take p.limit

/-- `BusRead(a, k) -> (done, r)` under a plan; `none` when it never ends (R45, R159). -/
def State.busRead (s : State) (p : Plan) (a : Addr) (k : Nat) : Option (Bool × List Byte × State) :=
  match p.fate with
  | .stuck => none
  | .unasked => some (false, [], s.log (.read a k false []))
  | .replyLost => some (false, [], (s.mapNode a (fun n => n.answer.2)).log (.read a k false []))
  | .completes => match s.node? a with
    | none => some (false, [], s.log (.read a k false []))
    | some n => some (true, p.received k n.answer.1,
        (s.mapNode a (fun m => m.answer.2)).log (.read a k true (p.received k n.answer.1)))

/-- One exchange: `BusWrite(a, bs)`, then `BusRead(a, k)`, with all the plan puts around them (R51, R52, R76). -/
def State.exchange (s : State) (a : Addr) (bs : List Byte) (k : Nat) : Option (Bool × List Byte × State) :=
  let p := s.plan
  ((((s.setPlans s.plans.tail).runEvents p.before).busWrite p a bs).runEvents p.between).busRead p a k

/-! ### The hub engine -/

/-- `roster[roster_cnt] <- a`, `roster_cnt <- roster_cnt + 1` (R110); the roster has room for every legal address (R40). -/
def Hub.enrol (h : Hub) (a : Addr) : Hub :=
  if hc : h.rosterCnt.val < 125 then
    { h with roster := h.roster.set h.rosterCnt.val (addrByte a), rosterCnt := ⟨h.rosterCnt.val + 1, by omega⟩ }
  else h

/-- The prior roster is gone (R110). -/
def Hub.clearRoster (h : Hub) : Hub := { h with rosterCnt := 0 }

/-- The hub queues a polled message; a full queue drops it and sets the flag (R111, R123). -/
def Hub.accept (h : Hub) (m : List Byte) : Hub :=
  match h.rxq.enqueue m with
  | some q => { h with rxq := q }
  | none => { h with allocFail := true }

/-- What H.SCAN makes of the bytes `r` of a completed poll read (R111, R77). -/
def Hub.onPollReply (h : Hub) (r : List Byte) : Hub :=
  match r with
  | [] => h
  | b :: _ =>
    if nothingPending b = true then h
    else if firstIndex POLL_TERM r = 0 then h
    else h.accept (r.take (firstIndex POLL_TERM r))

/-- The sweep of H.IDENT over the addresses left; `none` when a transaction never ends (R110). -/
def State.identLoop : List Addr → State → Option State
  | [], s => some s
  | a :: rest, s =>
    match s.exchange a (framed (pingMsg a)) 1 with
    | none => none
    | some (done, r, s') =>
      State.identLoop rest (if done = true ∧ r.head? = some ACK then s'.mapHub (fun h => h.enrol a) else s')

/-- The polls of H.SCAN over the roster entries left (R111). The bus address of an entry is its low 7 bits; entries
H.IDENT writes have bit 7 clear. -/
def State.scanLoop : List Byte → State → Option State
  | [], s => some s
  | a :: rest, s =>
    match s.exchange (a.setWidth 7) (framed (readMsg a)) HUB_READ_LEN with
    | none => none
    | some (done, r, s') =>
      State.scanLoop rest (if done = true then s'.mapHub (fun h => h.onPollReply r) else s')

/-- One polling round over the roster (R111). -/
def State.scan (s : State) : Option State := State.scanLoop s.hub.live s

/-- H.GET starts a poll: the clock sample is kept (R112). -/
def Hub.stamp (h : Hub) (now : Millis) : Hub := { h with lastScan := now, lastScanValid := true }

/-- The dequeue at the end of H.GET (R112). The origin of an entry of length 0 is a free value (entry 18). -/
def State.hubTake (s : State) : State :=
  match s.hub.rxq.dequeue with
  | none => s.ret (.got 0 [])
  | some ([], q) => ((s.mapHub (fun h => { h with rxq := q })).ret (.got (freeByte s.freeCount) [])).useFree
  | some (b :: m, q) => (s.mapHub (fun h => { h with rxq := q })).ret (.got b m)

/-- The outcome of a hub operation: a bus transaction that never ends is the fault `busStuck` (R159). -/
def hubOutcome (o : Option State) : Host.Outcome State Fault Refusal :=
  match o with
  | none => .fault .busStuck
  | some s => .next s

/-! ### Encodings on the bus -/

/-- Bytes on the bus, whatever they are: to a node a chunk of N.RECV (R44, R47), to the hub the bytes of a completed poll
read, at most `HUB_READ_LEN` of them (R45, R111). No byte value is illegal (R77, R81). -/
def State.arrive (s : State) (l : Lane) (bs : List Byte) : Host.Outcome State Fault Refusal :=
  match l with
  | .toNode a => .next (s.start.deliver a bs)
  | .toHub => .next (s.start.mapHub (fun h => h.onPollReply (bs.take HUB_READ_LEN)))

/-- A control byte on the bus: to a node it is a one-byte chunk of N.RECV (R47, R63, R64), to the hub the one byte of a
poll reply (R65, R69, R72, R73, R77); entry 4. -/
def State.byteOnBus (s : State) (l : Lane) (b : Byte) : Host.Outcome State Fault Refusal := s.arrive l [b]

/-- A packet on the bus: delivered to the node its message names (R44, R74, R76); entry 5. -/
def State.packetOnBus (s : State) (m : List Byte) (t : Byte) : Host.Outcome State Fault Refusal :=
  match destination m with
  | none => .next s.start
  | some a => s.arrive (.toNode a) (packetBytes m t)

/-- A reply on the bus: the hub's poll read receives it, at most `HUB_READ_LEN` bytes of it (R75, R111); entry 6. -/
def State.replyOnBus (s : State) (r : List Byte) : Host.Outcome State Fault Refusal := s.arrive .toHub r

/-! ### Inputs -/

/-- Whether the configuration is inside the spec (R7, R163; U7, U8): `2 ≤ N`, node addresses in `1..N-1`, all distinct. -/
def State.legal (s : State) : Bool :=
  decide (2 ≤ s.maxClients.val) &&
    (s.nodes.all (fun n => decide (1 ≤ n.addr.toNat) && decide (n.addr.toNat < s.maxClients.val)) &&
      decide ((s.nodes.map Node.addr).Nodup))

/-- Whether a node may come up at `a` (R163; U7). -/
def State.mayJoin (s : State) (a : Addr) : Bool :=
  decide (1 ≤ a.toNat) && (decide (a.toNat < s.maxClients.val) && decide (a ∉ s.nodes.map Node.addr))

/-- A node comes up at `a`, out of reset (R135, R142). -/
def State.join (s : State) (a : Addr) (policy : Policy) : State := { s with nodes := s.nodes ++ [Node.reset a policy] }

/-- The node at `a` goes away (R157). -/
def State.leave (s : State) (a : Addr) : State := { s with nodes := s.nodes.filter (fun n => n.addr ≠ a) }

/-- The hub's reset event (R140, R141). -/
def State.resetHub (s : State) : State := s.mapHub (fun _ => Hub.reset)

/-- What the next input asks for. -/
inductive Fetched where
  /-- Nothing: no agent presents anything. -/
  | idle
  /-- An instruction. -/
  | instr (i : Instr)
  /-- Bytes on the bus that are no row of the table. -/
  | stray (l : Lane) (bs : List Byte)
  /-- No operation: select code 0xF (R78); bytes that bring nothing (entry 24); an agent whose port is not wired to what it
  asks for (R138; entry 19). -/
  | noOperation
  /-- Something other than an instruction. -/
  | env (i : Input)
deriving DecidableEq, Repr

/-- The next input, decoded. -/
def State.fetch (s : State) : Fetched :=
  match s.inputs with
  | [] => .idle
  | .request who ch bs :: _ => match decode ch bs with
    | .instr i => if who ∈ invokers i then .instr i else .noOperation
    | .stray l bytes => if who = .transport then .stray l bytes else .noOperation
    | .inert => .noOperation
    | .rejected _ => .noOperation
  | .event e :: _ => .env (.event e)
  | .resetHub :: _ => .env .resetHub
  | .join a p :: _ => .env (.join a p)
  | .leave a :: _ => .env (.leave a)

/-- Who presents a table word: the first invoker of its instruction (R78). -/
def tableInvoker (nbits w : Nat) : Invoker :=
  match decodeTableWord nbits w with
  | some i => (invokers i).headD .transport
  | none => .transport

/-- The next input is consumed. -/
def State.consume (s : State) : State := s.setInputs s.inputs.tail

/-- The effect of an input that is no instruction (R135, R140, R142, R157). -/
def State.runInput (s : State) (i : Input) : Host.Outcome State Fault Refusal :=
  match i with
  | .request _ _ _ => .next s
  | .event e => .next (s.start.runEvent e)
  | .resetHub => .next s.start.resetHub
  | .join a p => if s.mayJoin a = true then .next (s.start.join a p) else .refused .illegalConfiguration
  | .leave a => .next (s.start.leave a)

end Sys2Proof.Machine
end

