-- ==== Sys2Proof/Machine/Bytes.lean ====
section
/-! DEFINITION. The BYTE rows: one control byte on the bus, received by a node or read by the hub (R63 to R73; entry 4). -/

namespace Sys2Proof.Machine

open Sys2Proof.Config

/-- START (R63): a node's deframer (re)starts; in a reply an ordinary data byte. -/
def execByteStart (l : Lane) (s : State) : Host.Outcome State Fault Refusal := s.byteOnBus l START

/-- END (R64): it terminates a packet while synchronised and is ignored while not; in a reply an ordinary data byte. -/
def execByteEnd (l : Lane) (s : State) : Host.Outcome State Fault Refusal := s.byteOnBus l END

/-- ACK (R65): to a node an ordinary byte; as the first reply byte nothing is pending. -/
def execByteAck (l : Lane) (s : State) : Host.Outcome State Fault Refusal := s.byteOnBus l ACK

/-- NAK (R66): an ordinary byte to a node; as the first reply byte it is data. -/
def execByteNak (l : Lane) (s : State) : Host.Outcome State Fault Refusal := s.byteOnBus l NAK

/-- WRITE (R67): an ordinary byte in both directions. -/
def execByteWrite (l : Lane) (s : State) : Host.Outcome State Fault Refusal := s.byteOnBus l WRITE

/-- READ (R68): an ordinary byte to the deframer (a command byte only at message index 1). -/
def execByteRead (l : Lane) (s : State) : Host.Outcome State Fault Refusal := s.byteOnBus l READ

/-- NO_DATA (R69): to a node an ordinary byte; as the first reply byte nothing is pending. -/
def execByteNoData (l : Lane) (s : State) : Host.Outcome State Fault Refusal := s.byteOnBus l NO_DATA

/-- PING (R70): an ordinary byte to the deframer (a command byte only at message index 1). -/
def execBytePing (l : Lane) (s : State) : Host.Outcome State Fault Refusal := s.byteOnBus l PING

/-- ESC (R71): an ordinary byte in both directions, there is no byte stuffing. -/
def execByteEsc (l : Lane) (s : State) : Host.Outcome State Fault Refusal := s.byteOnBus l ESC

/-- NULL (R72): to a node an ordinary byte; as the first reply byte nothing is pending. -/
def execByteNull (l : Lane) (s : State) : Host.Outcome State Fault Refusal := s.byteOnBus l NULL

/-- POLL_TERM (R73): to a node an ordinary byte; in a reply it ends the data. -/
def execBytePollTerm (l : Lane) (s : State) : Host.Outcome State Fault Refusal := s.byteOnBus l POLL_TERM

end Sys2Proof.Machine
end

