-- ==== Sys2Proof/Machine/Codec.lean ====
section
/-! DEFINITION. The packet codec: FR.ENCODE (R80), DF.STEP (R81), DF.DECODE (R82). -/

namespace Sys2Proof.Machine

open Sys2Proof.Config

/-- FR.ENCODE (R80, R121): the packet, or `NothingToSend` for the empty message; no state changes. -/
def execFrEncode (m : List Byte) (s : State) : Host.Outcome State Fault Refusal :=
  match m with
  | [] => .next (s.start.ret .nothingToSend)
  | _ :: _ => .next (s.start.ret (.sent (framed m)))

/-- DF.STEP at node `k` (R81). -/
def execDfStep (k : Addr) (b : Byte) (s : State) : Host.Outcome State Fault Refusal :=
  s.atNode k (fun n => (.event (n.df.step b).1, { n with df := (n.df.step b).2 }))

/-- DF.DECODE at node `k` (R82). -/
def execDfDecode (k : Addr) (bs : List Byte) (s : State) : Host.Outcome State Fault Refusal :=
  s.atNode k (fun n => (.decoded (n.df.decode bs).1 (n.df.decode bs).2.1, { n with df := (n.df.decode bs).2.2 }))

end Sys2Proof.Machine
end

