-- ==== Sys2Proof/Machine/HubEngine.lean ====
section
/-! DEFINITION. The hub engine: H.IDENT (R110), H.SCAN (R111), H.GET (R112), H.SEND (R113), H.CLIENTS (R114). -/

namespace Sys2Proof.Machine

open Sys2Proof.Config

/-- H.IDENT (R110): the roster is emptied, the sweep refills it, the count is returned. -/
def execHIdent (s : State) : Host.Outcome State Fault Refusal :=
  hubOutcome (((s.start.mapHub (fun h => h.clearRoster)).identLoop (sweep s.maxClients.val)).map
    (fun s' => s'.ret (.count s'.hub.rosterCnt.val)))

/-- H.SCAN (R111): one polling round; no result. Its one invoker is H.GET (R78, R138), which runs it inside; a request for it
alone comes in the name of H.GET (entry 19). -/
def execHScan (s : State) : Host.Outcome State Fault Refusal := hubOutcome s.start.scan

/-- H.GET (R112): one clock sample, a poll when due, then one dequeue. -/
def execHGet (s : State) : Host.Outcome State Fault Refusal :=
  if s.hub.scanDue s.now = true then
    hubOutcome (((s.start.mapHub (fun h => h.stamp s.now)).scan).map State.hubTake)
  else .next s.start.hubTake

/-- H.SEND (R113): the write packet, then a one-byte read whose byte is not examined. -/
def execHSend (a : Addr) (d : List Byte) (s : State) : Host.Outcome State Fault Refusal :=
  hubOutcome ((s.start.exchange a (framed (writeMsg a d)) 1).map (fun x => x.2.2.ret (.probed x.1)))

/-- H.CLIENTS (R114): the roster's size and, if asked for, its live entries. -/
def execHClients (copy : Bool) (s : State) : Host.Outcome State Fault Refusal :=
  .next (s.start.ret (.clients s.hub.rosterCnt.val (if copy = true then s.hub.live else [])))

end Sys2Proof.Machine
end

