-- ==== Sys2Proof/Machine/NodeAgent.lean ====
section
/-! DEFINITION. The node agent: N.RECV (R100), N.REQ (R101), N.SEND (R102), N.GET (R103). -/

namespace Sys2Proof.Machine

open Sys2Proof.Config

/-- N.RECV at node `k` (R100): no result. A chunk presented at this port by itself comes before the bytes the transport still
holds for the node, which stay held (DESIGN CHOICE, entry 14: the spec does not relate the two). -/
def execNRecv (k : Addr) (bs : List Byte) (s : State) : Host.Outcome State Fault Refusal :=
  s.atNode k (fun n => (.nothing, n.recv bs))

/-- N.REQ at node `k` (R101). Presented at this port by itself it hands over none of the bytes the transport still holds
(DESIGN CHOICE, entry 14). -/
def execNReq (k : Addr) (s : State) : Host.Outcome State Fault Refusal :=
  s.atNode k (fun n => (.reply n.req.1, n.req.2))

/-- N.SEND at node `k` (R102). -/
def execNSend (k : Addr) (d : List Byte) (s : State) : Host.Outcome State Fault Refusal :=
  s.atNode k (fun n => n.send d)

/-- N.GET at node `k` (R103). -/
def execNGet (k : Addr) (s : State) : Host.Outcome State Fault Refusal := s.atNode k (fun n => n.get)

end Sys2Proof.Machine
end

