-- ==== Sys2Proof/Machine/Packets.lean ====
section
/-! DEFINITION. The PKT rows: a packet on the bus, received by the node it is addressed to (R60, R76; entry 5). -/

namespace Sys2Proof.Machine

open Sys2Proof.Config

/-- PKT.PING (R76): the node at `a` receives `START a PING t END`. -/
def execPktPing (a : Addr) (t : Byte) (s : State) : Host.Outcome State Fault Refusal :=
  s.packetOnBus [addrByte a, PING] t

/-- PKT.READ (R76): the node at `a` receives `START a READ t END`. -/
def execPktRead (a : Addr) (t : Byte) (s : State) : Host.Outcome State Fault Refusal :=
  s.packetOnBus [addrByte a, READ] t

/-- PKT.WRITE (R76): the node at `a` receives `START a WRITE d t END`. -/
def execPktWrite (a : Addr) (d : List Byte) (t : Byte) (s : State) : Host.Outcome State Fault Refusal :=
  s.packetOnBus (addrByte a :: WRITE :: d) t

/-- PKT (R60): the node `m` names receives `START m t END`. -/
def execPkt (m : List Byte) (t : Byte) (s : State) : Host.Outcome State Fault Refusal := s.packetOnBus m t

end Sys2Proof.Machine
end

