-- ==== Sys2Proof/Machine/Queues.lean ====
section
/-! DEFINITION. The queue controllers: Q.ENQ (R90), Q.DEQ (R91), Q.EMPTY (R92), on each of the three instances (R95). -/

namespace Sys2Proof.Machine

open Sys2Proof.Config

/-- Q.ENQ (R90, R124). -/
def execQEnq (q : QueueId) (m : List Byte) (s : State) : Host.Outcome State Fault Refusal :=
  match q with
  | .hubRx => .next ((s.start.mapHub (fun h => { h with rxq := (h.rxq.put m).2 })).ret (s.hub.rxq.put m).1)
  | .nodeRx k => s.atNode k (fun n => ((n.rxq.put m).1, { n with rxq := (n.rxq.put m).2 }))
  | .nodeTx k => s.atNode k (fun n => ((n.txq.put m).1, { n with txq := (n.txq.put m).2 }))

/-- Q.DEQ (R91, R125). -/
def execQDeq (q : QueueId) (s : State) : Host.Outcome State Fault Refusal :=
  match q with
  | .hubRx => .next ((s.start.mapHub (fun h => { h with rxq := h.rxq.get.2 })).ret s.hub.rxq.get.1)
  | .nodeRx k => s.atNode k (fun n => (n.rxq.get.1, { n with rxq := n.rxq.get.2 }))
  | .nodeTx k => s.atNode k (fun n => (n.txq.get.1, { n with txq := n.txq.get.2 }))

/-- Q.EMPTY (R92): reads the count and writes nothing. -/
def execQEmpty (q : QueueId) (s : State) : Host.Outcome State Fault Refusal :=
  match q with
  | .hubRx => .next (s.start.ret (.truth s.hub.rxq.empty))
  | .nodeRx k => s.atNode k (fun n => (.truth n.rxq.empty, n))
  | .nodeTx k => s.atNode k (fun n => (.truth n.txq.empty, n))

end Sys2Proof.Machine
end

