-- ==== Sys2Proof/Machine/Replies.lean ====
section
/-! DEFINITION. The RPL rows: a reply on the bus, as the hub's poll read receives it (R75, R111; entry 6). -/

namespace Sys2Proof.Machine

open Sys2Proof.Config

/-- RPL.NO_DATA (R75, R111): nothing pending. -/
def execRplNoData (s : State) : Host.Outcome State Fault Refusal := s.replyOnBus [NO_DATA]

/-- RPL.ACK (R75, R111): nothing pending. -/
def execRplAck (s : State) : Host.Outcome State Fault Refusal := s.replyOnBus [ACK]

/-- RPL.NULL (R75, R111): nothing pending. -/
def execRplNull (s : State) : Host.Outcome State Fault Refusal := s.replyOnBus [NULL]

/-- RPL.DATA (R75, R111): data, up to the first 0xFF and at most 8 bytes, onto `hub_rxq`. -/
def execRplData (r : List Byte) (s : State) : Host.Outcome State Fault Refusal := s.replyOnBus r

end Sys2Proof.Machine
end

