-- ==== Sys2Proof/Machine/Dispatch.lean ====
section
/-! DEFINITION. `exec`: one arm per row of the opcode table, each a call of that row's meaning. -/

namespace Sys2Proof.Machine

open Sys2Proof

def exec (i : Instr) (s : State) : Host.Outcome State Fault Refusal :=
  match i with
  | .byteStart l => Sys2Proof.Machine.execByteStart l s
  | .byteEnd l => Sys2Proof.Machine.execByteEnd l s
  | .byteAck l => Sys2Proof.Machine.execByteAck l s
  | .byteNak l => Sys2Proof.Machine.execByteNak l s
  | .byteWrite l => Sys2Proof.Machine.execByteWrite l s
  | .byteRead l => Sys2Proof.Machine.execByteRead l s
  | .byteNoData l => Sys2Proof.Machine.execByteNoData l s
  | .bytePing l => Sys2Proof.Machine.execBytePing l s
  | .byteEsc l => Sys2Proof.Machine.execByteEsc l s
  | .byteNull l => Sys2Proof.Machine.execByteNull l s
  | .bytePollTerm l => Sys2Proof.Machine.execBytePollTerm l s
  | .pktPing a t => Sys2Proof.Machine.execPktPing a t s
  | .pktRead a t => Sys2Proof.Machine.execPktRead a t s
  | .pktWrite a d t => Sys2Proof.Machine.execPktWrite a d t s
  | .pkt m t => Sys2Proof.Machine.execPkt m t s
  | .rplNoData => Sys2Proof.Machine.execRplNoData s
  | .rplAck => Sys2Proof.Machine.execRplAck s
  | .rplNull => Sys2Proof.Machine.execRplNull s
  | .rplData r => Sys2Proof.Machine.execRplData r s
  | .frEncode m => Sys2Proof.Machine.execFrEncode m s
  | .dfStep k b => Sys2Proof.Machine.execDfStep k b s
  | .dfDecode k bs => Sys2Proof.Machine.execDfDecode k bs s
  | .qEnq q m => Sys2Proof.Machine.execQEnq q m s
  | .qDeq q => Sys2Proof.Machine.execQDeq q s
  | .qEmpty q => Sys2Proof.Machine.execQEmpty q s
  | .nRecv k bs => Sys2Proof.Machine.execNRecv k bs s
  | .nReq k => Sys2Proof.Machine.execNReq k s
  | .nSend k d => Sys2Proof.Machine.execNSend k d s
  | .nGet k => Sys2Proof.Machine.execNGet k s
  | .hIdent => Sys2Proof.Machine.execHIdent s
  | .hScan => Sys2Proof.Machine.execHScan s
  | .hGet => Sys2Proof.Machine.execHGet s
  | .hSend a d => Sys2Proof.Machine.execHSend a d s
  | .hClients copy => Sys2Proof.Machine.execHClients copy s

end Sys2Proof.Machine
end

