-- ==== Sys2Proof/Machine/Step.lean ====
section
/-! DEFINITION. One step: the next input of the agents outside the blocks. There is no program counter (R27). -/

namespace Sys2Proof.Machine

/-- One step. A configuration outside the spec is refused (U7, U8); with no input the machine idles (R137). -/
def step (s : State) : Host.Outcome State Fault Refusal :=
  if s.legal = true then
    match s.fetch with
    | .idle => .next s
    | .instr i => if i.wellFormed = true then exec i s.consume else .refused .illFormed
    | .stray l bs => s.consume.arrive l bs
    | .noOperation => .next s.consume
    | .env e => s.consume.runInput e
  else .refused .illegalConfiguration

/-- The state with the instruction of a table word as the next input, presented by its invoker (entry 2). -/
def State.withFetchWord (s : State) (nbits w : Nat) : State :=
  s.setInputs (.request (tableInvoker nbits w) (tableChannel nbits w) (tableBytes nbits w) :: s.inputs)

end Sys2Proof.Machine
end

