-- ==== Sys2Proof/Safety.lean ====
section
/-! DEFINITION. What holds of a well-behaved system: the invariants of 10_state.md and 40_codec.md, and the frames the
claims are stated with. -/

namespace Sys2Proof.Machine

open Sys2Proof.Config

/-- The deframer's invariant (R14 to R17, R81): bytes at and past the cursor are 0x00, out of synchronisation the cursor
is at most 15, no held byte is a delimiter, and while synchronised the accumulator is the exclusive-or of START and the
held bytes. -/
abbrev Deframer.Wf (d : Deframer) : Prop :=
  (∀ i : Fin 16, d.cur.val ≤ i.val → d.buf[i] = 0) ∧
  (d.sync = false → d.cur.val ≤ 15) ∧
  (∀ b ∈ d.held, b ≠ START ∧ b ≠ END) ∧
  (d.sync = true → d.par = START ^^^ xorAll d.held)

/-- The ring invariant (R20). -/
abbrev Queue.Wf {cap : Nat} (q : Queue cap) : Prop := q.tail.val = (q.head.val + q.count.val) % cap

/-- A node's blocks are well formed. -/
abbrev Node.Wf (n : Node) : Prop := n.df.Wf ∧ n.rxq.Wf ∧ n.txq.Wf

/-- The hub's blocks are well formed under `MAX_CLIENTS = N` (R20, R24): the roster's live entries are node addresses in
strictly ascending order. -/
abbrev Hub.Wf (N : Nat) (h : Hub) : Prop :=
  h.rxq.Wf ∧ h.rosterCnt.val ≤ N - 1 ∧
  (∀ b ∈ h.live, 1 ≤ b.toNat ∧ b.toNat < N) ∧
  h.live.Pairwise (fun a b => a.toNat < b.toNat)

/-- The system invariant: a legal configuration and well-formed blocks. -/
abbrev State.Inv (s : State) : Prop :=
  s.legal = true ∧ Hub.Wf s.maxClients.val s.hub ∧ ∀ n ∈ s.nodes, n.Wf

/-- No transaction the transport has planned never ends. -/
abbrev State.unstuck (s : State) : Prop := ∀ p ∈ s.plans, p.fate ≠ .stuck

/-- The transport has planned no reset of a node. -/
abbrev State.noPlannedReset (s : State) : Prop :=
  ∀ p ∈ s.plans, ∀ a : Addr, Event.resetNode a ∉ p.before ∧ Event.resetNode a ∉ p.between

/-- A message the codec carries unharmed (R83): 1 to 15 bytes, none a delimiter, and a trailer that is none. -/
abbrev Intact (m : List Byte) : Prop :=
  1 ≤ m.length ∧ m.length ≤ 15 ∧ (∀ b ∈ m, b ≠ START ∧ b ≠ END) ∧ xorAll m ≠ START ∧ xorAll m ≠ END

/-! ### Frames -/

/-- `t` differs from `s` at most in the node at `k` and in the result; no bus transaction was made. -/
structure State.OnlyNode (s t : State) (k : Addr) : Prop where
  maxClients : t.maxClients = s.maxClients
  hub : t.hub = s.hub
  config : t.nodes.map (fun n => (n.addr, n.policy)) = s.nodes.map (fun n => (n.addr, n.policy))
  others : ∀ j, j ≠ k → t.node? j = s.node? j
  now : t.now = s.now
  plans : t.plans = s.plans
  inputs : t.inputs = s.inputs
  freeCount : t.freeCount = s.freeCount
  trace : t.trace = []

/-- `t` differs from `s` at most in the hub and in the result; no bus transaction was made. -/
structure State.OnlyHub (s t : State) : Prop where
  maxClients : t.maxClients = s.maxClients
  nodes : t.nodes = s.nodes
  now : t.now = s.now
  plans : t.plans = s.plans
  inputs : t.inputs = s.inputs
  freeCount : t.freeCount = s.freeCount
  trace : t.trace = []

/-- `t` differs from `s` at most in the queue `q` and in the result; no bus transaction was made. -/
def State.OnlyQueue (s t : State) : QueueId → Prop
  | .hubRx => s.OnlyHub t ∧ t.hub = { s.hub with rxq := t.hub.rxq }
  | .nodeRx k => s.OnlyNode t k ∧
      ∃ n n', s.node? k = some n ∧ t.node? k = some n' ∧ n' = { n with rxq := n'.rxq }
  | .nodeTx k => s.OnlyNode t k ∧
      ∃ n n', s.node? k = some n ∧ t.node? k = some n' ∧ n' = { n with txq := n'.txq }

/-! ### The queues, whichever the instance -/

/-- The capacity of an instance (R95). -/
def queueCap : QueueId → Nat
  | .hubRx => 40
  | .nodeRx _ => 20
  | .nodeTx _ => 20

/-- `q.list` of an instance, where its node is there (R20). -/
def State.queueList (s : State) : QueueId → Option (List (List Byte))
  | .hubRx => some s.hub.rxq.list
  | .nodeRx k => (s.node? k).map (fun n => n.rxq.list)
  | .nodeTx k => (s.node? k).map (fun n => n.txq.list)

/-- `(q.head, q.tail, q.count)` of an instance, where its node is there (R19). -/
def State.ring (s : State) : QueueId → Option (Nat × Nat × Nat)
  | .hubRx => some (s.hub.rxq.head.val, s.hub.rxq.tail.val, s.hub.rxq.count.val)
  | .nodeRx k => (s.node? k).map (fun n => (n.rxq.head.val, n.rxq.tail.val, n.rxq.count.val))
  | .nodeTx k => (s.node? k).map (fun n => (n.txq.head.val, n.txq.tail.val, n.txq.count.val))

/-- The ring invariant of an instance, said of its registers (R20). -/
abbrev State.ringWf (s : State) (q : QueueId) : Prop :=
  ∀ x ∈ s.ring q, x.2.1 = (x.1 + x.2.2) % queueCap q

/-- An operation on one queue instance. -/
inductive QueueOp where
  | enq (m : List Byte)
  | deq
deriving DecidableEq, Repr

/-- The bounded first-in first-out list the queue contract describes (R93): the results of a sequence of operations on
the list, and the list after them. -/
def fifoRun (cap : Nat) : List (List Byte) → List QueueOp → List Result × List (List Byte)
  | l, [] => ([], l)
  | l, .enq m :: ops =>
    if l.length = cap then (.queueFull :: (fifoRun cap l ops).1, (fifoRun cap l ops).2)
    else (.ok :: (fifoRun cap (l ++ [m]) ops).1, (fifoRun cap (l ++ [m]) ops).2)
  | [], .deq :: ops => (.queueEmpty :: (fifoRun cap [] ops).1, (fifoRun cap [] ops).2)
  | m :: l, .deq :: ops => (.msg m :: (fifoRun cap l ops).1, (fifoRun cap l ops).2)

/-- The same operations run on the machine, at one instance: the results and the last state, unless one is refused. -/
def queueRun (q : QueueId) : State → List QueueOp → Option (List Result × State)
  | s, [] => some ([], s)
  | s, op :: ops =>
    match exec (match op with | .enq m => .qEnq q m | .deq => .qDeq q) s with
    | .next t => (queueRun q t ops).map (fun x => (t.out :: x.1, x.2))
    | .fault _ => none
    | .refused _ => none

/-! ### The deframer over a byte sequence -/

/-- The events of the bytes of a sequence, one each. -/
def dfEvents : Deframer → List Byte → List DfEvent
  | _, [] => []
  | d, b :: s => (d.step b).1 :: dfEvents (d.step b).2 s

/-- The deframer after a byte sequence. -/
def dfAfter (d : Deframer) (s : List Byte) : Deframer := s.foldl (fun d b => (d.step b).2) d

/-! ### The eleven control bytes -/

/-- The rows of the BYTE format with their values (R63 to R73). -/
def byteRows : List ((Lane → Instr) × Byte) :=
  [(.byteStart, 0x82), (.byteEnd, 0x83), (.byteAck, 0x86), (.byteNak, 0x95), (.byteWrite, 0xD7), (.byteRead, 0xD2),
   (.byteNoData, 0xB0), (.bytePing, 0xB1), (.byteEsc, 0x9B), (.byteNull, 0x00), (.bytePollTerm, 0xFF)]

/-! ### What the hub does on the bus -/

/-- A bus transaction with what the transport answered left out: what the hub itself decided. -/
inductive HubAction where
  | write (a : Addr) (bytes : List Byte)
  | read (a : Addr) (n : Nat)
deriving DecidableEq, Repr

/-- What the hub did on the bus, in order. -/
def hubActions : List BusEvent → List HubAction
  | [] => []
  | .write a bs :: es => .write a bs :: hubActions es
  | .read a k _ _ :: es => .read a k :: hubActions es
  | .app _ _ :: es => hubActions es

/-- The replies of the completed reads, in order, each with the address it was read from. -/
def repliesRead : List BusEvent → List (Addr × List Byte)
  | [] => []
  | .write _ _ :: es => repliesRead es
  | .read a _ done r :: es => if done = true then (a, r) :: repliesRead es else repliesRead es
  | .app _ _ :: es => repliesRead es

/-- The message a poll reply brings, if it brings one (R77, R111): none when the first byte is 0x00, `ACK`, `NO_DATA` or
0xFF, else the bytes before the first 0xFF. -/
def polledMessage (r : List Byte) : Option (List Byte) :=
  match r.head? with
  | none => none
  | some b => if b ∈ [NULL, ACK, NO_DATA, POLL_TERM] then none else some (r.takeWhile (fun x => x ≠ POLL_TERM))

end Sys2Proof.Machine
end

