-- ==== Sys2Proof/Certificates/Slice0/Obligations.lean ====
section
/-! DEFINITION. The statements for the provers. -/

open Sys2Proof Sys2Proof.Machine Sys2Proof.Config

/-- O1. Decoding an encoded well-formed instruction gives it back. Rests on 30_encoding.md sections 1, 2, 4 and 6. The
operand bytes of port frames are the model's (assumption entry 1). -/
def Obligations.DecodeEncodeRoundTrip : Prop :=
  ∀ i : Instr, i.wellFormed = true → decode (encode i).1 (encode i).2 = .instr i

/-- O2. Bytes on the bus channels encode one well-formed instruction at most. Rests on 30_encoding.md sections 1, 2 and
4. -/
def Obligations.BusBytesHaveOneMeaning : Prop :=
  ∀ (ch : Channel) (bs : List Byte) (i : Instr), ch ≠ .port → decode ch bs = .instr i →
    i.wellFormed = true ∧ encode i = (ch, bs)

/-- O3. Words written out from the spec decode to their instructions. Rests on 95_test_vectors.md sections 1 and 2.1;
30_encoding.md section 6. The operand bytes of the last two are the model's (entry 1). -/
def Obligations.ListedWordsDecode : Prop :=
  decode (.byte .toHub) [0x82] = .instr (.byteStart .toHub) ∧
  decode .packet [0x82, 0x03, 0xB1, 0xB3, 0x83] = .instr (.pktPing 3 0xB3) ∧
  decode .packet [0x82, 0x03, 0xD2, 0xD0, 0x83] = .instr (.pktRead 3 0xD0) ∧
  decode .packet [0x82, 0x03, 0xD7, 0x68, 0x69, 0xD4, 0x83] = .instr (.pktWrite 3 [0x68, 0x69] 0xD4) ∧
  decode .reply [0x86] = .instr .rplAck ∧
  decode .reply [0x03, 0x78] = .instr (.rplData [0x03, 0x78]) ∧
  decode .port [0x07, 0x02] = .instr (.nReq 3) ∧
  decode .port [0x0D, 0x03, 0x68, 0x69] = .instr (.hSend 3 [0x68, 0x69])

/-- O4. A step runs the instruction its next input encodes. Rests on 10_state.md section 7; 60_exceptions.md section 3;
30_encoding.md section 6 (rule R78). The list of inputs is the model's (entry 2). -/
def Obligations.StepRunsTheDecodedInstruction : Prop :=
  ∀ (s : State) (who : Invoker) (ch : Channel) (bs : List Byte) (rest : List Input) (i : Instr),
    s.legal = true → s.inputs = .request who ch bs :: rest → decode ch bs = .instr i → i.wellFormed = true →
    who ∈ invokers i → step s = exec i (s.setInputs rest)

/-- O5. A table word placed for fetching is what the next step runs. Rests on 30_encoding.md section 6. Placing the word
is the model's (entries 2, 3). -/
def Obligations.StepRunsTableWord : Prop :=
  ∀ (s : State) (nbits w : Nat) (i : Instr),
    s.legal = true → decodeTableWord nbits w = some i → i.wellFormed = true →
    step (s.withFetchWord nbits w) = exec i s

/-- O6. What a step does when its next input is no instruction it can run. Rests on 93_implementation_defined.md section
1 (U7, U8, U11); 30_encoding.md section 6 (rule R78); 60_exceptions.md section 3 (rule R138). Of these only the
refusal of U7 and U8, the inert code of U11 and the wiring of R138 are the spec's, and the rest is the model's
choice: that a step with no input answers the same state (entry 28), that bytes which bring nothing and unwired
requests are passed over (entries 24, 19), that an ill-formed operand is refused (entry 23), and that bits 7:4 and
the further bytes of a frame with code 0xF are ignored (entries 1, 24). -/
def Obligations.StepWithoutInstruction : Prop :=
  ∀ (s : State),
    (s.legal = false → step s = .refused .illegalConfiguration) ∧
    (s.legal = true → s.inputs = [] → step s = .next s) ∧
    (∀ who ch bs rest, s.legal = true → s.inputs = .request who ch bs :: rest →
      (decode ch bs = .inert → step s = .next (s.setInputs rest)) ∧
      (∀ e, decode ch bs = .rejected e → step s = .next (s.setInputs rest)) ∧
      (∀ i, decode ch bs = .instr i → who ∉ invokers i → step s = .next (s.setInputs rest)) ∧
      (∀ l b, decode ch bs = .stray l b → who ≠ .transport → step s = .next (s.setInputs rest)) ∧
      (∀ i, decode ch bs = .instr i → who ∈ invokers i → i.wellFormed = false → step s = .refused .illFormed)) ∧
    (∀ (b : Byte) (rest : List Byte), b.toNat % 16 = 15 → decode .port (b :: rest) = .inert)

/-- O7. An operation presented at a node that is not on the bus is refused by name. Rests on 60_exceptions.md section 3.
The refusal is the model's choice (entry 16): the spec gives such an operation no port. -/
def Obligations.OperationAtAbsentNodeRefused : Prop :=
  ∀ (s : State) (k : Addr), s.node? k = none → ∀ (b : Byte) (bs : List Byte),
    exec (.dfStep k b) s = .refused (.noSuchNode k) ∧
    exec (.dfDecode k bs) s = .refused (.noSuchNode k) ∧
    exec (.qEnq (.nodeRx k) bs) s = .refused (.noSuchNode k) ∧
    exec (.qEnq (.nodeTx k) bs) s = .refused (.noSuchNode k) ∧
    exec (.qDeq (.nodeRx k)) s = .refused (.noSuchNode k) ∧
    exec (.qDeq (.nodeTx k)) s = .refused (.noSuchNode k) ∧
    exec (.qEmpty (.nodeRx k)) s = .refused (.noSuchNode k) ∧
    exec (.qEmpty (.nodeTx k)) s = .refused (.noSuchNode k) ∧
    exec (.nRecv k bs) s = .refused (.noSuchNode k) ∧
    exec (.nReq k) s = .refused (.noSuchNode k) ∧
    exec (.nSend k bs) s = .refused (.noSuchNode k) ∧
    exec (.nGet k) s = .refused (.noSuchNode k)

/-- O8. FR.ENCODE emits START, the message, the trailer and END, or fails on the empty message. Formalises R80. -/
def Obligations.FrEncodeEmitsPacket : Prop :=
  ∀ (m : List Byte) (s : State),
    exec (.frEncode m) s = .next { s with
      out := if m.length = 0 then .nothingToSend
        else .sent ([0x82] ++ m ++ [0x82 ^^^ m.foldl (fun x b => x ^^^ b) 0 ^^^ 0x83] ++ [0x83])
      trace := [] }

/-- O9. DF.STEP: every transition of the deframer on one byte. Rests on 40_codec.md section 2 (rule R81, decisions D3 to
D6). -/
def Obligations.DfStepTransitions : Prop :=
  ∀ (s : State) (k : Addr) (n : Node) (b : Byte), s.node? k = some n →
    ∃ (t : State) (n' : Node) (e : DfEvent),
      exec (.dfStep k b) s = .next t ∧ t.out = .event e ∧ s.OnlyNode t k ∧ t.node? k = some n' ∧
      n' = { n with df := n'.df } ∧
      (b = 0x82 → e = .noPacket ∧ n'.df.sync = true ∧ n'.df.cur.val = 0 ∧ n'.df.par = 0x82 ∧
        ∀ i : Fin 16, n'.df.buf[i] = 0) ∧
      (b ≠ 0x82 → n.df.sync = false → e = .noPacket ∧ n'.df = n.df) ∧
      (b ≠ 0x82 → n.df.sync = true → b = 0x83 ∨ n.df.cur.val = 16 →
        n'.df.sync = false ∧ n'.df.cur.val = n.df.cur.val - 1 ∧ n'.df.par = n.df.par ^^^ b ∧
        (∀ i : Fin 16, n'.df.buf[i] = if i.val = n.df.cur.val - 1 then 0 else n.df.buf[i]) ∧
        e = if (n.df.par ^^^ b) &&& 0x7F = 0 then .valid (n.df.buf.toList.take (n.df.cur.val - 1))
          else .invalid (n.df.buf.toList.take (n.df.cur.val - 1))) ∧
      (b ≠ 0x82 → b ≠ 0x83 → n.df.sync = true → n.df.cur.val < 16 →
        e = .noPacket ∧ n'.df.sync = true ∧ n'.df.cur.val = n.df.cur.val + 1 ∧ n'.df.par = n.df.par ^^^ b ∧
        ∀ i : Fin 16, n'.df.buf[i] = if i.val = n.df.cur.val then b else n.df.buf[i])

/-- O10. DF.DECODE steps byte by byte and stops after the first terminating byte. Rests on 40_codec.md section 2 (rule
R82, decision D7). -/
def Obligations.DfDecodeStopsAtFirstPacket : Prop :=
  ∀ (s : State) (k : Addr) (n : Node) (bs : List Byte), s.node? k = some n →
    ∃ (t : State) (n' : Node) (e : DfEvent) (used rest : List Byte),
      exec (.dfDecode k bs) s = .next t ∧ t.out = .decoded e rest ∧ s.OnlyNode t k ∧ t.node? k = some n' ∧
      n' = { n with df := n'.df } ∧ bs = used ++ rest ∧ n'.df = dfAfter n.df used ∧
      ((e = .noPacket ∧ rest = [] ∧ ∀ x ∈ dfEvents n.df used, x = .noPacket) ∨
       (e ≠ .noPacket ∧ ∃ before, dfEvents n.df used = before ++ [e] ∧ ∀ x ∈ before, x = .noPacket))

/-- O11. Deframing what the framer emits gives the message back, from any deframer state. Rests on 40_codec.md section 3
(rule R83). -/
def Obligations.CodecRoundTrip : Prop :=
  ∀ (s : State) (k : Addr) (n : Node) (m : List Byte), s.node? k = some n → Intact m →
    ∃ (u t : State) (pkt : List Byte),
      exec (.frEncode m) s = .next u ∧ u.out = .sent pkt ∧
      exec (.dfDecode k pkt) s = .next t ∧ t.out = .decoded (.valid m) []

/-- O12. N.RECV of two chunks one after the other is N.RECV of their concatenation. Rests on 40_codec.md section 3 (rule
R84); 20_memory.md section 3 (rule R47). -/
def Obligations.ReceptionIgnoresFragmentation : Prop :=
  ∀ (s : State) (k : Addr) (n : Node) (s1 s2 : List Byte), s.node? k = some n →
    ∃ t1 t2 : State, exec (.nRecv k s1) s = .next t1 ∧ exec (.nRecv k s2) t1 = .next t2 ∧
      exec (.nRecv k (s1 ++ s2)) s = .next t2

/-- O13. A corrupted packet is Invalid exactly when the errors' exclusive-or has a bit set below bit 7. Rests on
40_codec.md section 3 (rule R85); 70_reset_and_hazards.md section 2 (rule R146). -/
def Obligations.CorruptionDetection : Prop :=
  ∀ (s : State) (k : Addr) (n : Node) (m es : List Byte), s.node? k = some n → Intact m → es.length ≤ m.length + 1 →
    (∀ b ∈ corrupt es (m ++ [trailer m]), b ≠ START ∧ b ≠ END) →
    ∃ (t : State) (e : DfEvent),
      exec (.dfDecode k ([START] ++ corrupt es (m ++ [trailer m]) ++ [END])) s = .next t ∧ t.out = .decoded e [] ∧
      e.payload = some (corrupt es (m ++ [trailer m])).dropLast ∧
      ((∃ p, e = .invalid p) ↔ xorAll es &&& 0x7F ≠ 0)

/-- O14. A packet decode never returns a payload longer than 15 bytes. Rests on 40_codec.md section 3 (rule R86);
10_state.md section 9. -/
def Obligations.DecodedPayloadBound : Prop :=
  ∀ (s t : State) (k : Addr) (e : DfEvent) (p : List Byte), e.payload = some p →
    (∀ b, exec (.dfStep k b) s = .next t → t.out = .event e → p.length ≤ 15) ∧
    (∀ bs rest, exec (.dfDecode k bs) s = .next t → t.out = .decoded e rest → p.length ≤ 15)

/-- O15. A 16-byte message never deframes whole: Invalid with its first 15 bytes. Rests on 70_reset_and_hazards.md
section 2 (rule R145); 40_codec.md section 3 (rule R86). -/
def Obligations.SixteenByteMessageCut : Prop :=
  ∀ (s : State) (k : Addr) (n : Node) (m : List Byte), s.node? k = some n → m.length = 16 →
    (∀ b ∈ m, b ≠ START ∧ b ≠ END) → xorAll m ≠ END →
    ∃ t : State, exec (.dfDecode k (framed m)) s = .next t ∧ t.out = .decoded (.invalid (m.take 15)) [END]

/-- O16. A trailer equal to a delimiter breaks the framing. Rests on 70_reset_and_hazards.md section 2 (rule R144). -/
def Obligations.TrailerCollision : Prop :=
  ∀ (s : State) (k : Addr) (n : Node) (m : List Byte), s.node? k = some n → 1 ≤ m.length → m.length ≤ 16 →
    (∀ b ∈ m, b ≠ START ∧ b ≠ END) →
    (xorAll m = 0x82 → ∃ t : State, exec (.dfDecode k (framed m)) s = .next t ∧
      t.out = .decoded (.invalid m.dropLast) [END]) ∧
    (xorAll m = 0x83 → ∃ t : State, exec (.dfDecode k (framed m)) s = .next t ∧ t.out = .decoded (.invalid []) [])

/-- O17. Q.ENQ appends at the tail, or fails and changes nothing when the queue is full. Rests on 41_queues.md (rule
R90); 10_state.md section 4. -/
def Obligations.EnqueueAppendsOrFails : Prop :=
  ∀ (s : State) (q : QueueId) (m : List Byte) (l : List (List Byte)) (h tl c : Nat),
    s.queueList q = some l → s.ring q = some (h, tl, c) → s.ringWf q → m.length ≤ 16 →
    ∃ t : State, exec (.qEnq q m) s = .next t ∧ s.OnlyQueue t q ∧ t.ringWf q ∧
      (∀ q', q' ≠ q → t.queueList q' = s.queueList q' ∧ t.ring q' = s.ring q') ∧
      (c = queueCap q → t.out = .queueFull ∧ t.queueList q = some l ∧ t.ring q = some (h, tl, c) ∧
        ((s.nodes.map Node.addr).Nodup → t = { s with out := .queueFull, trace := [] })) ∧
      (c < queueCap q → t.out = .ok ∧ t.queueList q = some (l ++ [m]) ∧
        t.ring q = some (h, (tl + 1) % queueCap q, c + 1))

/-- O18. Q.DEQ removes and returns the oldest message, or reports empty without side effects. Formalises R91. -/
def Obligations.DequeueTakesOldest : Prop :=
  ∀ (s : State) (q : QueueId) (l : List (List Byte)) (h tl c : Nat),
    s.queueList q = some l → s.ring q = some (h, tl, c) → s.ringWf q →
    ∃ t : State, exec (.qDeq q) s = .next t ∧ s.OnlyQueue t q ∧ t.ringWf q ∧
      (∀ q', q' ≠ q → t.queueList q' = s.queueList q' ∧ t.ring q' = s.ring q') ∧
      (c = 0 → t.out = .queueEmpty ∧ l = [] ∧ t.queueList q = some [] ∧ t.ring q = some (h, tl, c)) ∧
      (c ≠ 0 → ∃ m rest, l = m :: rest ∧ t.out = .msg m ∧ t.queueList q = some rest ∧
        t.ring q = some ((h + 1) % queueCap q, tl, c - 1))

/-- O19. Q.EMPTY is true iff the queue holds no message, and writes nothing. Formalises R92. -/
def Obligations.EmptyTestReadsCount : Prop :=
  ∀ (s : State) (q : QueueId) (l : List (List Byte)) (h tl c : Nat),
    s.queueList q = some l → s.ring q = some (h, tl, c) →
    ∃ t : State, exec (.qEmpty q) s = .next t ∧ t.out = .truth (decide (c = 0)) ∧ (c = 0 ↔ l = []) ∧
      t = { s with out := t.out, trace := [] }

/-- O20. The ring buffers refine a bounded first-in first-out list. Rests on 41_queues.md (rule R93); 10_state.md
section 4. -/
def Obligations.QueuesAreFifo : Prop :=
  ∀ (s : State) (q : QueueId) (l : List (List Byte)) (ops : List QueueOp),
    s.queueList q = some l → s.ringWf q → (∀ m, QueueOp.enq m ∈ ops → m.length ≤ 16) →
    ∃ t : State, queueRun q s ops = some ((fifoRun (queueCap q) l ops).1, t) ∧
      t.queueList q = some (fifoRun (queueCap q) l ops).2 ∧ t.ringWf q

/-- O21. Q.ENQ stores only to the first bytes of the slot at the tail. Rests on 20_memory.md section 1; 41_queues.md
(rule R90). That the bytes of a dead slot stay is the model's choice (entry 9). -/
def Obligations.EnqueueStoresOneSlot : Prop :=
  ∀ (s t : State) (q : QueueId) (m : List Byte) (h tl c : Nat),
    s.ring q = some (h, tl, c) → exec (.qEnq q m) s = .next t →
    ∀ (sp : Space) (i : Nat), ¬(sp = .slotData q tl ∧ i < m.length ∧ c < queueCap q) →
      t.memRead sp i 1 = s.memRead sp i 1

/-- O22. Operations that store to no storage array leave every byte of every array as it was. Rests on 20_memory.md
section 1; 41_queues.md (rule R91). That a slot a dequeue has left keeps its bytes is the model's choice (entry 9). -/
def Obligations.ReadersStoreNothing : Prop :=
  ∀ (s t : State) (i : Instr) (q : QueueId) (k : Addr) (m : List Byte) (copy : Bool),
    i ∈ [.qDeq q, .qEmpty q, .nReq k, .nGet k, .frEncode m, .hClients copy, .rplNoData, .rplAck, .rplNull] →
    exec i s = .next t → ∀ (sp : Space) (j : Nat), t.memRead sp j 1 = s.memRead sp j 1

/-- O23. N.SEND, N.RECV of one byte and RPL.DATA store to one slot, N.RECV also to df_buf. Rests on 20_memory.md section
1; 42_node.md sections 1 and 2 (rules R100, R102); 43_hub.md (rule R111). That the bytes of a dead slot stay is the
model's choice (entry 9). -/
def Obligations.StoringOperationsStoreOneSlot : Prop :=
  ∀ (s t : State) (sp : Space) (i : Nat),
    (∀ k n d, s.node? k = some n → exec (.nSend k d) s = .next t →
      ¬(sp = .slotData (.nodeTx k) n.txq.tail.val ∧ i < (nodeMsg k d).length ∧ n.txq.count.val < 20) →
      t.memRead sp i 1 = s.memRead sp i 1) ∧
    (∀ k n b, s.node? k = some n → exec (.nRecv k [b]) s = .next t → sp ≠ .dfBuf k →
      ¬(sp = .slotData (.nodeRx k) n.rxq.tail.val ∧ i < n.df.cur.val - 1 ∧ n.rxq.count.val < 20) →
      t.memRead sp i 1 = s.memRead sp i 1) ∧
    (∀ r, exec (.rplData r) s = .next t →
      ¬(sp = .slotData .hubRx s.hub.rxq.tail.val ∧ i < ((r.take 8).takeWhile (fun b => b ≠ 0xFF)).length ∧
        s.hub.rxq.count.val < 40) →
      t.memRead sp i 1 = s.memRead sp i 1)

/-- O24. N.RECV of one byte: the deframer steps, and a completed packet is recorded and queued. Rests on 42_node.md
section 1 (rule R100, decisions D7, D10, D11). -/
def Obligations.NRecvActsOnEachByte : Prop :=
  ∀ (s : State) (k : Addr) (n : Node) (b : Byte), s.node? k = some n → n.rxq.Wf →
    ∃ (t : State) (n' : Node), exec (.nRecv k [b]) s = .next t ∧ t.out = .nothing ∧ s.OnlyNode t k ∧
      t.node? k = some n' ∧ n'.df = (n.df.step b).2 ∧ n'.rxq.Wf ∧
      n' = { n with df := n'.df, pcValid := n'.pcValid, pcCmd := n'.pcCmd, rxq := n'.rxq, allocFail := n'.allocFail } ∧
      ((n.df.step b).1 = .noPacket → n' = { n with df := n'.df }) ∧
      (∀ p, (n.df.step b).1 = .invalid p → n.policy = .drop → n' = { n with df := n'.df }) ∧
      (∀ p, (n.df.step b).1 = .valid p ∨ ((n.df.step b).1 = .invalid p ∧ n.policy = .accept) →
        n'.pcValid = true ∧ n'.pcCmd = n'.df.buf[1] ∧
        (n'.pcCmd ∈ [PING, READ, NO_DATA] → n'.rxq = n.rxq ∧ n'.allocFail = n.allocFail) ∧
        (n'.pcCmd ∉ [PING, READ, NO_DATA] → n.rxq.count.val < 20 →
          n'.rxq.list = n.rxq.list ++ [p] ∧ n'.allocFail = n.allocFail) ∧
        (n'.pcCmd ∉ [PING, READ, NO_DATA] → n.rxq.count.val = 20 → n'.rxq = n.rxq ∧ n'.allocFail = true))

/-- O25. Receiving the framed form of an intact message records its command and queues it if payload-bearing. Rests on
42_node.md sections 1 and 3 (rules R100, R104). -/
def Obligations.IntactPacketReceived : Prop :=
  ∀ (s : State) (k : Addr) (n : Node) (m : List Byte) (c : Byte), s.node? k = some n → n.rxq.Wf → Intact m →
    m[1]?.getD 0 = c →
    ∃ (t : State) (n' : Node), exec (.nRecv k (framed m)) s = .next t ∧ s.OnlyNode t k ∧ t.node? k = some n' ∧
      n'.pending = some c ∧ n'.txq = n.txq ∧ n'.wire = n.wire ∧ n'.rxq.Wf ∧
      n'.df.sync = false ∧ n'.df.cur.val = m.length ∧ n'.df.par = 0 ∧ n'.df.held = m ∧
      (c ∈ [PING, READ, NO_DATA] → n'.rxq = n.rxq ∧ n'.allocFail = n.allocFail) ∧
      (c ∉ [PING, READ, NO_DATA] → n.rxq.count.val < 20 →
        n'.rxq.list = n.rxq.list ++ [m] ∧ n'.allocFail = n.allocFail) ∧
      (c ∉ [PING, READ, NO_DATA] → n.rxq.count.val = 20 → n'.rxq = n.rxq ∧ n'.allocFail = true)

/-- O26. N.REQ replies according to the pending command and clears it. Formalises R101. -/
def Obligations.NReqRepliesByPendingCommand : Prop :=
  ∀ (s : State) (k : Addr) (n : Node), s.node? k = some n → n.txq.Wf →
    ∃ (t : State) (n' : Node) (r : List Byte), exec (.nReq k) s = .next t ∧ t.out = .reply r ∧ s.OnlyNode t k ∧
      t.node? k = some n' ∧ n' = { n with pcValid := false, txq := n'.txq } ∧ n'.txq.Wf ∧
      (n.pcValid = false → r = [0xB0] ∧ n'.txq = n.txq) ∧
      (n.pcValid = true → n.pcCmd ≠ 0xD2 → r = [0x86] ∧ n'.txq = n.txq) ∧
      (n.pcValid = true → n.pcCmd = 0xD2 → n.txq.list = [] → r = [0x00] ∧ n'.txq = n.txq) ∧
      (∀ m rest, n.pcValid = true → n.pcCmd = 0xD2 → n.txq.list = m :: rest → r = m ∧ n'.txq.list = rest)

/-- O27. N.SEND queues the payload, cut to 15 bytes, behind the node's address, or reports QueueFull. Rests on
42_node.md section 2 (rule R102, decisions D13, D14). -/
def Obligations.NSendQueuesPrefixedMessage : Prop :=
  ∀ (s : State) (k : Addr) (n : Node) (d : List Byte), s.node? k = some n → n.txq.Wf →
    ∃ (t : State) (n' : Node), exec (.nSend k d) s = .next t ∧ s.OnlyNode t k ∧ t.node? k = some n' ∧
      n' = { n with txq := n'.txq } ∧ n'.txq.Wf ∧
      (n.txq.count.val = 20 → t.out = .queueFull ∧ n' = n) ∧
      (n.txq.count.val < 20 → t.out = .ok ∧ n'.txq.list = n.txq.list ++ [k.setWidth 8 :: d.take 15])

/-- O28. N.GET returns the oldest received packet without its address byte, or NoData. Rests on 42_node.md section 2
(rule R103, decision D27). For a node that is there, N.GET answers a next state: with an empty node_rxq the result
is NoData and the node is unchanged; otherwise the oldest entry leaves the queue and the result is its bytes from
index 1 on. -/
def Obligations.NGetStripsAddress : Prop :=
  ∀ (s : State) (k : Addr) (n : Node), s.node? k = some n → n.rxq.Wf →
    ∃ (t : State) (n' : Node), exec (.nGet k) s = .next t ∧ s.OnlyNode t k ∧ t.node? k = some n' ∧
      n' = { n with rxq := n'.rxq } ∧ n'.rxq.Wf ∧
      (n.rxq.list = [] → t.out = .noData ∧ n' = n) ∧
      (∀ m rest, n.rxq.list = m :: rest → t.out = .data m.tail ∧ n'.rxq.list = rest)

/-- O29. After a reply no command is pending, and the next request is answered NO_DATA. Rests on 42_node.md section 3
(rule R105); 70_reset_and_hazards.md section 2 (rule R152). -/
def Obligations.OneCommandPerTurn : Prop :=
  ∀ (s t : State) (k : Addr), exec (.nReq k) s = .next t →
    ∃ (n' : Node) (u : State), t.node? k = some n' ∧ n'.pending = none ∧
      exec (.nReq k) t = .next u ∧ u.out = .reply [NO_DATA] ∧ u.node? k = some n'

/-- O30. A second packet before the reply overwrites the pending command. Rests on 70_reset_and_hazards.md section 2
(rule R151, decision D30). -/
def Obligations.LaterCommandOverwrites : Prop :=
  ∀ (s : State) (k : Addr) (n : Node) (m1 m2 : List Byte) (c : Byte), s.node? k = some n →
    Intact m1 → Intact m2 → m1[1]? = some READ → m2[1]? = some c → c ≠ READ →
    ∃ (t1 t2 u : State) (n' : Node), exec (.nRecv k (framed m1)) s = .next t1 ∧
      exec (.nRecv k (framed m2)) t1 = .next t2 ∧ exec (.nReq k) t2 = .next u ∧
      u.out = .reply [ACK] ∧ u.node? k = some n' ∧ n'.txq = n.txq ∧ n'.pending = none

/-- O31. Every reply of a correctly addressed node decodes to the reply row of its case. Rests on 30_encoding.md section
4 (rule R75); 70_reset_and_hazards.md section 2 (rule R149). -/
def Obligations.EveryReplyIsARow : Prop :=
  ∀ (s : State) (k : Addr) (n : Node), s.node? k = some n → 1 ≤ k.toNat → k.toNat ≤ 125 →
    (∀ m ∈ n.txq.list, m.head? = some (addrByte k) ∧ m.length ≤ 16) →
    ∃ (t : State) (r : List Byte), exec (.nReq k) s = .next t ∧ t.out = .reply r ∧
      decode .reply r = .instr (if n.pcValid = false then .rplNoData else if n.pcCmd ≠ READ then .rplAck
        else if n.txq.list = [] then .rplNull else .rplData r)

/-- O32. Each of the eleven control bytes on the bus is received by the addressed node as a one-byte chunk. Rests on
30_encoding.md section 2; 20_memory.md section 3. That the row stands for the byte's arrival is the model's reading
(entry 4). -/
def Obligations.ControlBytesReachNode : Prop :=
  ∀ x ∈ byteRows, ∀ (s : State) (a : Addr),
    (s.node? a = none → exec (x.1 (.toNode a)) s = .next { s with out := .nothing, trace := [] }) ∧
    (∀ n, s.node? a = some n → ∃ t : State, exec (x.1 (.toNode a)) s = .next t ∧ s.OnlyNode t a ∧
      t.out = .nothing ∧ t.node? a = some ({ n with wire := [] }.recv (n.wire ++ [x.2])))

/-- O33. Each of the eleven control bytes as the first byte of a poll reply means what R77 says. Rests on 30_encoding.md
sections 2 and 5; 43_hub.md (rule R111). That the row stands for the byte's arrival is the model's reading (entry
4). -/
def Obligations.ControlBytesReachHub : Prop :=
  ∀ x ∈ byteRows, ∀ (s : State), s.hub.rxq.Wf →
    ∃ t : State, exec (x.1 .toHub) s = .next t ∧ s.OnlyHub t ∧ t.out = .nothing ∧
      t.hub = { s.hub with rxq := t.hub.rxq, allocFail := t.hub.allocFail } ∧
      (x.2 ∈ [NULL, ACK, NO_DATA, POLL_TERM] → t.hub = s.hub) ∧
      (x.2 ∉ [NULL, ACK, NO_DATA, POLL_TERM] → s.hub.rxq.count.val < 40 →
        t.hub.rxq.list = s.hub.rxq.list ++ [[x.2]] ∧ t.hub.allocFail = s.hub.allocFail) ∧
      (x.2 ∉ [NULL, ACK, NO_DATA, POLL_TERM] → s.hub.rxq.count.val = 40 →
        t.hub.rxq = s.hub.rxq ∧ t.hub.allocFail = true)

/-- O34. A packet on the bus is received by the node its message addresses. Rests on 30_encoding.md sections 1 and 4;
20_memory.md section 3. That the row stands for the packet's arrival is the model's reading (entry 5). -/
def Obligations.PacketsReachNode : Prop :=
  ∀ (s : State) (a : Addr) (d m : List Byte) (tr : Byte),
    (∀ x ∈ [(Instr.pktPing a tr, [addrByte a, PING]), (Instr.pktRead a tr, [addrByte a, READ]),
        (Instr.pktWrite a d tr, [addrByte a, WRITE] ++ d), (Instr.pkt (addrByte a :: m) tr, addrByte a :: m)],
      (s.node? a = none → exec x.1 s = .next { s with out := .nothing, trace := [] }) ∧
      (∀ n, s.node? a = some n → ∃ t : State, exec x.1 s = .next t ∧ s.OnlyNode t a ∧ t.out = .nothing ∧
        t.node? a = some ({ n with wire := [] }.recv (n.wire ++ ([START] ++ x.2 ++ [tr, END]))))) ∧
    (∀ b : Byte, b.msb = true → exec (.pkt (b :: m) tr) s = .next { s with out := .nothing, trace := [] })

/-- O35. A reply on the bus is what the hub's poll read makes of it. Rests on 30_encoding.md section 4 (rule R75);
43_hub.md (rule R111). That the row stands for the reply's arrival is the model's reading (entry 6). -/
def Obligations.RepliesReachHub : Prop :=
  ∀ (s : State), s.hub.rxq.Wf →
    (∀ i ∈ [Instr.rplNoData, .rplAck, .rplNull], exec i s = .next { s with out := .nothing, trace := [] }) ∧
    (∀ r, (Instr.rplData r).wellFormed = true → ∃ t : State, exec (.rplData r) s = .next t ∧ s.OnlyHub t ∧
      t.out = .nothing ∧ t.hub = { s.hub with rxq := t.hub.rxq, allocFail := t.hub.allocFail } ∧
      (s.hub.rxq.count.val < 40 → t.hub.rxq.list = s.hub.rxq.list ++ [(r.take 8).takeWhile (fun b => b ≠ 0xFF)] ∧
        t.hub.allocFail = s.hub.allocFail) ∧
      (s.hub.rxq.count.val = 40 → t.hub.rxq = s.hub.rxq ∧ t.hub.allocFail = true))

/-- O36. What a node answers to discovery, poll-read and hub-write packets that arrive intact. Rests on 42_node.md
section 3 (rule R106); 70_reset_and_hazards.md section 2 (rule R161). -/
def Obligations.NodeAnswersTransactionShapes : Prop :=
  ∀ (s : State) (k : Addr) (n : Node), s.node? k = some n → n.wire = [] → n.rxq.Wf → n.txq.Wf →
    (k ≠ 50 → k ≠ 51 → ∃ (t u : State) (n' : Node),
      exec (.pktPing k (addrByte k ^^^ 0xB0)) s = .next t ∧ exec (.nReq k) t = .next u ∧ u.out = .reply [ACK] ∧
      u.node? k = some n' ∧ n'.rxq = n.rxq ∧ n'.txq = n.txq ∧ n'.pending = none) ∧
    (k ≠ 80 → k ≠ 81 → ∃ (t u : State) (n' : Node) (r : List Byte),
      exec (.pktRead k (addrByte k ^^^ 0xD3)) s = .next t ∧ exec (.nReq k) t = .next u ∧ u.out = .reply r ∧
      u.node? k = some n' ∧ n'.rxq = n.rxq ∧ n'.pending = none ∧
      (n.txq.list = [] → r = [NULL] ∧ n'.txq = n.txq) ∧
      (∀ m rest, n.txq.list = m :: rest → r = m ∧ n'.txq.list = rest)) ∧
    (∀ d, Intact ([addrByte k, WRITE] ++ d) → ∃ (t u : State) (n' : Node),
      exec (.pktWrite k d (trailer ([addrByte k, WRITE] ++ d))) s = .next t ∧ exec (.nReq k) t = .next u ∧
      u.out = .reply [ACK] ∧ u.node? k = some n' ∧ n'.txq = n.txq ∧ n'.pending = none ∧
      (n.rxq.count.val < 20 → n'.rxq.list = n.rxq.list ++ [[addrByte k, WRITE] ++ d] ∧
        n'.allocFail = n.allocFail) ∧
      (n.rxq.count.val = 20 → n'.rxq = n.rxq ∧ n'.allocFail = true))

/-- O37. H.IDENT pings 1..N-1 in order and lists exactly the addresses whose read began with ACK. Rests on 43_hub.md
(rule R110, decisions D16, D17). -/
def Obligations.HIdentBuildsRosterFromAcks : Prop :=
  ∀ (s : State), s.unstuck →
    ∃ t : State, exec .hIdent s = .next t ∧
      hubActions t.trace = (sweep s.maxClients.val).flatMap (fun a =>
        [.write a [0x82, addrByte a, 0xB1, addrByte a ^^^ 0xB0, 0x83], .read a 1]) ∧
      t.hub.live = ((repliesRead t.trace).filter (fun x => x.2.head? = some ACK)).map (fun x => addrByte x.1) ∧
      t.out = .count t.hub.live.length ∧
      t.hub = { s.hub with roster := t.hub.roster, rosterCnt := t.hub.rosterCnt } ∧
      t.maxClients = s.maxClients ∧ t.inputs = s.inputs ∧ t.freeCount = s.freeCount ∧
      t.nodes.map (fun n => (n.addr, n.policy)) = s.nodes.map (fun n => (n.addr, n.policy))

/-- O38. On the reference bus with MAX_CLIENTS at most 50, H.IDENT finds exactly the nodes present. Rests on 43_hub.md
(rule R110); 70_reset_and_hazards.md section 2 (rule R161); 20_memory.md section 3 (rule R49). -/
def Obligations.DiscoveryFindsPresentNodes : Prop :=
  ∀ (s : State), s.plans = [] → s.maxClients.val ≤ 50 →
    ∃ t : State, exec .hIdent s = .next t ∧
      t.hub.live = ((sweep s.maxClients.val).filter (fun a => (s.node? a).isSome)).map addrByte ∧
      t.out = .count ((sweep s.maxClients.val).filter (fun a => (s.node? a).isSome)).length

/-- O39. H.SCAN polls the roster in order and queues the messages the replies bring. Rests on 43_hub.md (rule R111,
decisions D15, D16); 60_exceptions.md section 1 (rule R123). Whatever a transport that gets stuck in no transaction
does, H.SCAN answers a next state: the hub writes the read-request packet to each live roster entry and reads up to
8 bytes from it, in roster order; hub_rxq gains, in order and as far as its 40 slots go, the message each completed
read brings (none if the first byte is 0x00, ACK, NO_DATA or 0xFF, else the bytes before the first 0xFF);
h_alloc_fail is set iff it was or one did not fit. -/
def Obligations.HScanQueuesPolledMessages : Prop :=
  ∀ (s : State), s.unstuck → s.hub.rxq.Wf →
    ∃ t : State, exec .hScan s = .next t ∧ t.out = .nothing ∧
      hubActions t.trace = s.hub.live.flatMap (fun a =>
        [.write (a.setWidth 7) [0x82, a, 0xD2, a ^^^ 0xD3, 0x83], .read (a.setWidth 7) 8]) ∧
      t.hub.rxq.list = (s.hub.rxq.list ++ (repliesRead t.trace).filterMap (fun x => polledMessage x.2)).take 40 ∧
      t.hub.allocFail = (s.hub.allocFail ||
        decide (40 < (s.hub.rxq.list ++ (repliesRead t.trace).filterMap (fun x => polledMessage x.2)).length)) ∧
      t.hub.rxq.Wf ∧
      t.hub = { s.hub with rxq := t.hub.rxq, allocFail := t.hub.allocFail } ∧
      t.maxClients = s.maxClients ∧ t.inputs = s.inputs ∧ t.freeCount = s.freeCount ∧
      t.nodes.map (fun n => (n.addr, n.policy)) = s.nodes.map (fun n => (n.addr, n.policy))

/-- O40. H.GET polls exactly when due, then returns the oldest message split into origin and payload, or (0, []). Rests
on 43_hub.md (rule R112, decisions D15, D18). Taking returns (0, []) from an empty queue and otherwise removes the
oldest entry and returns its first byte and the rest. Of an entry of length 0 only the empty payload is stated: its
origin is free (entry 18). -/
def Obligations.HGetPollsWhenDueThenDequeues : Prop :=
  ∀ (s : State), s.unstuck →
    ∃ u t : State, exec .hGet s = .next t ∧
      (s.hub.lastScanValid = true → (s.now - s.hub.lastScan).toNat < 100 → u = s.start) ∧
      (s.hub.lastScanValid = false ∨ 100 ≤ (s.now - s.hub.lastScan).toNat →
        exec .hScan { s with hub := { s.hub with lastScan := s.now, lastScanValid := true } } = .next u) ∧
      t = { u with out := t.out, freeCount := t.freeCount, hub := { u.hub with rxq := t.hub.rxq } } ∧
      (u.hub.rxq.Wf → t.hub.rxq.Wf) ∧
      (u.hub.rxq.list = [] → t.out = .got 0 [] ∧ t.hub.rxq = u.hub.rxq) ∧
      (∀ b m rest, u.hub.rxq.list = (b :: m) :: rest → t.out = .got b m ∧ t.hub.rxq.list = rest) ∧
      (∀ rest, u.hub.rxq.list = [] :: rest → (∃ a, t.out = .got a []) ∧ t.hub.rxq.list = rest)

/-- O41. Of two H.GET calls less than 100 ms apart at most one polls; calls at least 100 ms apart each poll. Rests on
43_hub.md (rule R116). If at least 100 ms do, H.GET at s', where the transport gets stuck nowhere, keeps s' 's
sample as the time of the last poll and polls every live roster entry. -/
def Obligations.RateLimit : Prop :=
  ∀ (s t s' : State), s.hub.scanDue s.now = true → exec .hGet s = .next t →
    s'.hub.lastScan = t.hub.lastScan → s'.hub.lastScanValid = t.hub.lastScanValid →
    ((s'.now - s.now).toNat < 100 → ∃ t', exec .hGet s' = .next t' ∧ t'.trace = []) ∧
    (100 ≤ (s'.now - s.now).toNat → s'.unstuck → ∃ t', exec .hGet s' = .next t' ∧ t'.hub.lastScan = s'.now ∧
      hubActions t'.trace = s'.hub.live.flatMap (fun a =>
        [.write (a.setWidth 7) [0x82, a, 0xD2, a ^^^ 0xD3, 0x83], .read (a.setWidth 7) 8]))

/-- O42. H.SEND writes the packet of the payload cut to 14 bytes, reads one byte and reports whether the read completed.
Rests on 43_hub.md (rule R113, decisions D13, D20); 60_exceptions.md section 1 (rule R128). -/
def Obligations.HSendWritesThenProbes : Prop :=
  ∀ (s : State) (a : Addr) (d : List Byte),
    (s.unstuck → ∃ (t : State) (done : Bool), exec (.hSend a d) s = .next t ∧ t.out = .probed done ∧ t.hub = s.hub ∧
      hubActions t.trace = [.write a (framed ([addrByte a, WRITE] ++ d.take 14)), .read a 1] ∧
      (done = true ↔ repliesRead t.trace ≠ []) ∧
      t.maxClients = s.maxClients ∧ t.inputs = s.inputs ∧ t.freeCount = s.freeCount ∧
      t.nodes.map (fun n => (n.addr, n.policy)) = s.nodes.map (fun n => (n.addr, n.policy))) ∧
    (s.plans = [] → s.node? a = none → exec (.hSend a d) s = .next { s with
      out := .probed false
      trace := [.write a (framed ([addrByte a, WRITE] ++ d.take 14)), .read a 1 false []] })

/-- O43. On the reference bus H.SEND of a payload that frames intact puts it on the node's inbound queue. Rests on
43_hub.md (rule R113); 42_node.md section 3 (rule R106); 20_memory.md section 3 (rule R49). -/
def Obligations.HSendReachesNodeQueue : Prop :=
  ∀ (s : State) (k : Addr) (n : Node) (d : List Byte), s.plans = [] → s.node? k = some n → n.wire = [] → n.rxq.Wf →
    Intact ([addrByte k, WRITE] ++ d) →
    ∃ (t : State) (n' : Node), exec (.hSend k d) s = .next t ∧ t.out = .probed true ∧ t.hub = s.hub ∧
      t.trace = [.write k (framed ([addrByte k, WRITE] ++ d)), .read k 1 true [ACK]] ∧
      t.node? k = some n' ∧ (∀ j, j ≠ k → t.node? j = s.node? j) ∧
      n'.pending = none ∧ n'.txq = n.txq ∧ n'.wire = [] ∧
      (n.rxq.count.val < 20 → n'.rxq.list = n.rxq.list ++ [[addrByte k, WRITE] ++ d] ∧
        n'.allocFail = n.allocFail) ∧
      (n.rxq.count.val = 20 → n'.rxq = n.rxq ∧ n'.allocFail = true)

/-- O44. On the reference bus a payload the node sends is what the hub's next due H.GET returns. Rests on 42_node.md
sections 1 and 2 (rules R101, R102); 43_hub.md (rules R111, R112); 20_memory.md section 3 (rule R49);
70_reset_and_hazards.md section 2 (rules R147, R148, R161). On the reference bus, with one live roster entry k (not
0, 80 or 81), a node at k with nothing queued outbound and for which the transport holds nothing, an empty hub_rxq
and a poll due: N.SEND of at most 7 bytes none of which is 0xFF answers Ok, and H.GET then returns k and exactly
those bytes. The 0xFF that ends a shorter reply is the fill of the reference bus (G2, D19), which the model takes
when no plan is left (entry 11). -/
def Obligations.NodeMessageReachesHub : Prop :=
  ∀ (s : State) (k : Addr) (n : Node) (d : List Byte), s.plans = [] → s.node? k = some n → n.wire = [] →
    n.txq.Wf → n.txq.list = [] → s.hub.rxq.Wf → s.hub.rxq.list = [] → s.hub.live = [addrByte k] →
    s.hub.scanDue s.now = true → k ≠ 0 → k ≠ 80 → k ≠ 81 → d.length ≤ 7 → POLL_TERM ∉ d →
    ∃ t u : State, exec (.nSend k d) s = .next t ∧ t.out = .ok ∧ exec .hGet t = .next u ∧ u.out = .got (addrByte k) d

/-- O45. A write the transport loses leaves the node without the packet, and H.SEND still returns true. Rests on
20_memory.md section 3 (rule R44); 70_reset_and_hazards.md section 2 (rules R152, R154). -/
def Obligations.LostWriteGoesUnnoticed : Prop :=
  ∀ (s : State) (k : Addr) (n : Node) (d : List Byte) (ps : List Plan), s.node? k = some n → n.wire = [] →
    n.pcValid = false → s.plans = { Plan.reference with lost := true } :: ps →
    ∃ t : State, exec (.hSend k d) s = .next t ∧ t.out = .probed true ∧ t.node? k = some n ∧ t.hub = s.hub ∧
      repliesRead t.trace = [(k, [NO_DATA])]

/-- O46. A bus transaction that never ends stops the hub operation that makes it. Rests on 70_reset_and_hazards.md
section 2 (rule R159); 93_implementation_defined.md section 1 (U9). If one of the transactions the transport has
planned for the exchanges of a hub operation never ends, the operation stops with busStuck: H.SEND for its one
exchange, H.IDENT for its N-1, H.SCAN for one exchange per live roster entry, and so H.GET when a poll is due. That
the stop is the fault busStuck is the model's choice (entry 12). -/
def Obligations.StuckTransactionStops : Prop :=
  ∀ (s : State) (a : Addr) (d : List Byte),
    ((∃ p ∈ s.plans.take 1, p.fate = .stuck) → exec (.hSend a d) s = .fault .busStuck) ∧
    ((∃ p ∈ s.plans.take (s.maxClients.val - 1), p.fate = .stuck) → exec .hIdent s = .fault .busStuck) ∧
    ((∃ p ∈ s.plans.take s.hub.rosterCnt.val, p.fate = .stuck) → exec .hScan s = .fault .busStuck ∧
      (s.hub.scanDue s.now = true → exec .hGet s = .fault .busStuck))

/-- O47. H.CLIENTS returns the roster's size and, if asked, its live entries, and changes nothing. Rests on 43_hub.md
(rule R114, decision D26). -/
def Obligations.HClientsReadsRoster : Prop :=
  ∀ (s : State) (copy : Bool),
    exec (.hClients copy) s = .next { s with
      out := .clients s.hub.rosterCnt.val (if copy = true then s.hub.roster.toList.take s.hub.rosterCnt.val else [])
      trace := [] }

/-- O48. Every register holds its reset value. Rests on 10_state.md section 8 (rule R34, decision D23);
70_reset_and_hazards.md section 1. Which nodes there are is the model's choice (entry 7). -/
def Obligations.ResetStateValues : Prop :=
  (∀ n ∈ State.reset.nodes, n.pcValid = false ∧ n.pcCmd = 0 ∧ n.df.sync = false ∧ n.df.cur.val = 0 ∧ n.df.par = 0 ∧
    (∀ i : Fin 16, n.df.buf[i] = 0) ∧ n.rxq.head.val = 0 ∧ n.rxq.tail.val = 0 ∧ n.rxq.count.val = 0 ∧
    n.txq.head.val = 0 ∧ n.txq.tail.val = 0 ∧ n.txq.count.val = 0 ∧ n.allocFail = false ∧ n.policy = .accept) ∧
  State.reset.hub.rosterCnt.val = 0 ∧ State.reset.hub.lastScanValid = false ∧ State.reset.hub.lastScan = 0 ∧
  State.reset.hub.rxq.head.val = 0 ∧ State.reset.hub.rxq.tail.val = 0 ∧ State.reset.hub.rxq.count.val = 0 ∧
  State.reset.hub.allocFail = false ∧ State.reset.maxClients.val = 16

/-- O49. A reset event restores one block and leaves the others. Rests on 70_reset_and_hazards.md section 1 (rules R140,
R141, decision D23). That bytes the transport still holds for the node stay is the model's choice (entry 20), and so
is the zero in the roster entries and slots that R34 leaves unspecified (entries 8, 9). -/
def Obligations.ResetEventsRestoreBlocks : Prop :=
  ∀ (s : State) (rest : List Input), s.legal = true →
    (s.inputs = .resetHub :: rest → ∃ t : State, step s = .next t ∧ t.hub = Hub.reset ∧ t.nodes = s.nodes ∧
      t.inputs = rest ∧ t.now = s.now ∧ t.maxClients = s.maxClients) ∧
    (∀ k n, s.inputs = .event (.resetNode k) :: rest → s.node? k = some n → ∃ t : State, step s = .next t ∧
      t.hub = s.hub ∧ t.node? k = some { Node.reset k n.policy with wire := n.wire } ∧
      (∀ j, j ≠ k → t.node? j = s.node? j) ∧ t.inputs = rest ∧ t.now = s.now ∧ t.maxClients = s.maxClients)

/-- O50. The invariant holds at reset. Rests on 10_state.md sections 4, 8 and 9. -/
def Obligations.ResetSatisfiesInvariant : Prop :=
  State.reset.Inv

/-- O51. Every step keeps the system invariant. Rests on 10_state.md sections 2, 4, 6 and 9; 40_codec.md section 3. -/
def Obligations.EveryStepKeepsInvariant : Prop :=
  ∀ s t : State, s.Inv → step s = .next t → t.Inv

/-- O52. No instruction changes MAX_CLIENTS, a node's address or its policy. Rests on 10_state.md section 7 (rule R29). -/
def Obligations.InstructionsKeepConfiguration : Prop :=
  ∀ (i : Instr) (s t : State), exec i s = .next t → t.maxClients = s.maxClients ∧
    t.nodes.map (fun n => (n.addr, n.policy)) = s.nodes.map (fun n => (n.addr, n.policy))

/-- O53. No instruction clears an allocation-failure flag. Rests on 10_state.md sections 5 and 6 (rules R22, R26,
decision D12). -/
def Obligations.AllocationFlagsAreSticky : Prop :=
  ∀ (i : Instr) (s t : State), exec i s = .next t →
    (s.hub.allocFail = true → t.hub.allocFail = true) ∧
    (s.noPlannedReset → ∀ k n, s.node? k = some n → n.allocFail = true →
      ∃ n', t.node? k = some n' ∧ n'.allocFail = true)

/-- O54. An operation of one node changes nothing of the hub, of another node, or of the bus. Rests on 20_memory.md
section 4 (rule R52); 60_exceptions.md section 3. -/
def Obligations.NodeOperationsArePrivate : Prop :=
  ∀ (i : Instr) (s t : State) (k : Addr),
    (∃ w ∈ [Invoker.callback k, .application k, .opRecv k, .opReq k, .opNodeSend k, .opNodeGet k], w ∈ invokers i) ∨
      (∃ bs, i = .dfDecode k bs) →
    exec i s = .next t → s.OnlyNode t k

/-- O55. Only H.IDENT writes the roster and only H.GET the rate limiter. Rests on 10_state.md section 6 (rules R24,
R25). -/
def Obligations.OnlyHubOperationsWriteHubRegisters : Prop :=
  ∀ (i : Instr) (s t : State), exec i s = .next t →
    (i ≠ .hIdent → t.hub.roster = s.hub.roster ∧ t.hub.rosterCnt = s.hub.rosterCnt) ∧
    (i ≠ .hGet → t.hub.lastScan = s.hub.lastScan ∧ t.hub.lastScanValid = s.hub.lastScanValid)

/-- O56. Bytes on the bus, a row of the table or not, are received. Rests on 20_memory.md section 3 (rules R44, R47);
30_encoding.md section 5 (rule R77); 40_codec.md section 2 (rule R81); 43_hub.md (rule R111). That bytes on the
packet channel go to the node their second byte names is the model's reading (entry 5), and the channels are the
model's (entries 1, 4, 6). -/
def Obligations.BusBytesArriveWhateverTheyAre : Prop :=
  ∀ (s : State) (a : Addr) (bs : List Byte) (rest : List Input), s.legal = true →
    ((s.inputs = .request .transport (.byte (.toNode a)) bs :: rest ∧ bs ≠ []) ∨
      (s.inputs = .request .transport .packet bs :: rest ∧ bs[1]? = some (addrByte a)) →
      ∃ t : State, step s = .next t ∧ (s.setInputs rest).OnlyNode t a ∧ t.out = .nothing ∧
        (s.node? a = none → t.nodes = s.nodes) ∧
        (∀ n, s.node? a = some n → t.node? a = some ({ n with wire := [] }.recv (n.wire ++ bs)))) ∧
    (bs ≠ [] → s.hub.rxq.Wf → s.inputs = .request .transport (.byte .toHub) bs :: rest ∨
        s.inputs = .request .transport .reply bs :: rest →
      ∃ t : State, step s = .next t ∧ (s.setInputs rest).OnlyHub t ∧ t.out = .nothing ∧
        t.hub = { s.hub with rxq := t.hub.rxq, allocFail := t.hub.allocFail } ∧
        t.hub.rxq.list = (s.hub.rxq.list ++ (polledMessage (bs.take 8)).toList).take 40 ∧
        t.hub.allocFail = (s.hub.allocFail ||
          decide (40 < (s.hub.rxq.list ++ (polledMessage (bs.take 8)).toList).length)))
end

