-- ==== Sys2Proof/Laws/Codec.lean ====
section
/-! SUPPORT. What the deframer can do in one step, and what it holds after it (R81, R88). -/

namespace Sys2Proof.Machine

open Sys2Proof.Config

@[simp] theorem xorAll_nil : xorAll [] = 0 := rfl

@[simp] theorem xorAll_cons (b : Byte) (s : List Byte) : xorAll (b :: s) = b ^^^ xorAll s := rfl

theorem xorAll_append (s t : List Byte) : xorAll (s ++ t) = xorAll s ^^^ xorAll t := by
  induction s with
  | nil => simp
  | cons b s ih => simp [ih, BitVec.xor_assoc]

/-- Folding exclusive-or from a start value. -/
theorem foldl_xor (s : List Byte) (a : Byte) : s.foldl (fun x y => x ^^^ y) a = a ^^^ xorAll s := by
  induction s generalizing a with
  | nil => simp
  | cons b s ih => simp [ih, BitVec.xor_assoc]

/-- The trailer is the exclusive-or of the message with bit 0 inverted (R61). -/
theorem trailer_eq (m : List Byte) : trailer m = xorAll m ^^^ 0x01 := by
  have : START ^^^ END = (0x01 : Byte) := by decide
  rw [← this, trailer, BitVec.xor_comm START, BitVec.xor_assoc]

/-- A START byte restarts in any state. -/
@[simp] theorem step_start (d : Deframer) : d.step START = (.noPacket, d.restart) := by simp [Deframer.step]

/-- Hunting, any other byte is ignored. -/
theorem step_hunt {d : Deframer} {b : Byte} (hs : d.sync = false) (hb : b ≠ START) : d.step b = (.noPacket, d) := by
  simp [Deframer.step, hs, hb]

/-- Synchronised, END or a byte that finds the buffer full terminates. -/
theorem step_terminate {d : Deframer} {b : Byte} (hs : d.sync = true) (hb : b ≠ START)
    (he : b = END ∨ d.cur.val = 16) : d.step b = ((d.terminate b).verdict, d.terminate b) := by
  simp only [Deframer.step, if_neg hb, hs, if_neg (by decide : ¬ true = false)]
  rw [if_pos he]

/-- Synchronised with room, any other byte is appended. -/
theorem step_append {d : Deframer} {b : Byte} (hs : d.sync = true) (hb : b ≠ START) (he : b ≠ END)
    (hc : d.cur.val ≠ 16) : d.step b = (.noPacket, d.append b) := by
  simp only [Deframer.step, if_neg hb, hs, if_neg (by decide : ¬ true = false)]
  rw [if_neg (by simp [he, hc])]

/-- All DF.STEP can do (R88). -/
theorem step_cases (d : Deframer) (b : Byte) :
    (b = START ∧ d.step b = (.noPacket, d.restart)) ∨
    (b ≠ START ∧ d.sync = false ∧ d.step b = (.noPacket, d)) ∨
    (b ≠ START ∧ d.sync = true ∧ (b = END ∨ d.cur.val = 16) ∧
      d.step b = ((d.terminate b).verdict, d.terminate b)) ∨
    (b ≠ START ∧ b ≠ END ∧ d.sync = true ∧ d.cur.val < 16 ∧ d.step b = (.noPacket, d.append b)) := by
  by_cases hb : b = START
  · subst hb; exact .inl ⟨rfl, step_start d⟩
  cases hs : d.sync with
  | false => exact .inr (.inl ⟨hb, rfl, step_hunt hs hb⟩)
  | true =>
    by_cases he : b = END ∨ d.cur.val = 16
    · exact .inr (.inr (.inl ⟨hb, rfl, he, step_terminate hs hb he⟩))
    · have hc : d.cur.val < 16 := by have := d.cur.isLt; omega
      exact .inr (.inr (.inr ⟨hb, fun h => he (.inl h), rfl, hc,
        step_append hs hb (fun h => he (.inl h)) (fun h => he (.inr h))⟩))

@[simp] theorem restart_held (d : Deframer) : d.restart.held = [] := rfl

theorem held_length (d : Deframer) : d.held.length = d.cur.val := by
  have := d.cur.isLt
  simp only [Deframer.held, List.length_take, Vector.length_toList]
  omega

/-- Appending adds one byte to what is held. -/
theorem append_held {d : Deframer} (hc : d.cur.val < 16) (b : Byte) : (d.append b).held = d.held ++ [b] := by
  have hm : min (d.cur.val + 1) 16 = d.cur.val + 1 := by omega
  simp only [Deframer.held, Deframer.append, hm]
  rw [Vector.toList_setIfInBounds, List.take_add_one, List.take_set_of_le (Nat.le_refl _)]
  simp [hc]

/-- Termination drops the last held byte. -/
theorem terminate_held (d : Deframer) (b : Byte) : (d.terminate b).held = d.held.dropLast := by
  have := d.cur.isLt
  simp only [Deframer.held, Deframer.terminate]
  rw [Vector.toList_setIfInBounds, List.take_set_of_le (Nat.le_refl _), List.dropLast_eq_take, List.take_take,
    List.length_take, Vector.length_toList]
  congr 1
  omega

@[simp] theorem restart_sync (d : Deframer) : d.restart.sync = true := rfl
@[simp] theorem restart_par (d : Deframer) : d.restart.par = START := rfl
@[simp] theorem restart_cur (d : Deframer) : d.restart.cur = 0 := rfl
@[simp] theorem restart_buf (d : Deframer) : d.restart.buf = Vector.replicate 16 0 := rfl
@[simp] theorem append_sync (d : Deframer) (b : Byte) : (d.append b).sync = d.sync := rfl
@[simp] theorem append_par (d : Deframer) (b : Byte) : (d.append b).par = d.par ^^^ b := rfl
@[simp] theorem append_cur (d : Deframer) (b : Byte) : (d.append b).cur.val = min (d.cur.val + 1) 16 := rfl
@[simp] theorem append_buf (d : Deframer) (b : Byte) : (d.append b).buf = d.buf.setIfInBounds d.cur.val b := rfl
@[simp] theorem terminate_sync (d : Deframer) (b : Byte) : (d.terminate b).sync = false := rfl
@[simp] theorem terminate_par (d : Deframer) (b : Byte) : (d.terminate b).par = d.par ^^^ b := rfl
@[simp] theorem terminate_cur (d : Deframer) (b : Byte) : (d.terminate b).cur.val = d.cur.val - 1 := rfl
@[simp] theorem terminate_buf (d : Deframer) (b : Byte) :
    (d.terminate b).buf = d.buf.setIfInBounds (d.cur.val - 1) 0 := rfl

/-- The payload of a verdict is what is held. -/
@[simp] theorem verdict_payload (d : Deframer) : d.verdict.payload = some d.held := by
  simp only [Deframer.verdict]; split <;> rfl

/-- A verdict is never `NoPacket`. -/
theorem verdict_ne_noPacket (d : Deframer) : d.verdict ≠ .noPacket := by
  simp only [Deframer.verdict]; split <;> simp

@[simp] theorem decode_nil (d : Deframer) : d.decode [] = (.noPacket, [], d) := rfl

/-- DF.DECODE goes on after a byte that terminates nothing. -/
theorem decode_cons_noPacket {d d' : Deframer} {b : Byte} (h : d.step b = (.noPacket, d')) (s : List Byte) :
    d.decode (b :: s) = d'.decode s := by simp [Deframer.decode, h]

/-- DF.DECODE stops at a byte that terminates. -/
theorem decode_cons_event {d d' : Deframer} {b : Byte} {e : DfEvent} (h : d.step b = (e, d')) (he : e ≠ .noPacket)
    (s : List Byte) : d.decode (b :: s) = (e, s, d') := by
  cases e with
  | noPacket => exact absurd rfl he
  | valid p => simp [Deframer.decode, h]
  | invalid p => simp [Deframer.decode, h]

end Sys2Proof.Machine
end

