-- ==== Sys2Proof/Laws/Queue.lean ====
section
/-! SUPPORT. What a queue controller can do, said over its abstract content `q.list` (R20). -/

namespace Sys2Proof.Machine

theorem Queue.list_length {cap : Nat} (q : Queue cap) : q.list.length = q.count.val := by simp [Queue.list]

@[simp] theorem ringIndex_val {cap : Nat} (i : Fin cap) (k : Nat) : (ringIndex i k).val = (i.val + k) % cap := rfl

@[simp] theorem nextIndex_val {cap : Nat} (i : Fin cap) : (nextIndex i).val = (i.val + 1) % cap := rfl

/-- What a slot holds after a message is written to it. -/
@[simp] theorem Slot.msg_write (c : Slot) (m : List Byte) : (c.write m).msg = m.take 16 := by
  simp only [Slot.msg, Slot.write, Vector.toList, List.take_take]
  rcases Nat.le_total m.length 16 with h | h
  · rw [Nat.min_eq_left h, Nat.min_eq_left h, List.take_left', List.take_of_length_le h]; rfl
  · rw [Nat.min_eq_right h, Nat.min_self, List.take_append_of_le_length h]

/-- Enqueueing into a full queue fails. -/
theorem Queue.enqueue_full {cap : Nat} {q : Queue cap} (h : q.count.val = cap) (m : List Byte) :
    q.enqueue m = none := by simp [Queue.enqueue, h]

/-- Two ring indices differ when their distances from the head differ and are below the capacity. -/
theorem ringIndex_ne {cap : Nat} (i : Fin cap) {j k : Nat} (hj : j < k) (hk : k < cap) :
    ringIndex i j ≠ ringIndex i k := by
  intro h
  have h' := congrArg Fin.val h
  simp only [ringIndex_val] at h'
  have hi := i.isLt
  have e1 := Nat.mod_add_div (i.val + j) cap
  have e2 := Nat.mod_add_div (i.val + k) cap
  rw [h'] at e1
  have : cap * ((i.val + k) / cap) = cap * ((i.val + j) / cap) + (k - j) := by omega
  rcases Nat.lt_or_ge ((i.val + j) / cap) ((i.val + k) / cap) with hlt | hge
  · have := Nat.mul_le_mul_left cap (Nat.succ_le_of_lt hlt)
    rw [Nat.mul_succ] at this
    omega
  · have := Nat.mul_le_mul_left cap hge
    omega

/-- All an enqueue can do when the queue has room: the content grows by the message, at the tail's slot. -/
theorem Queue.enqueue_room {cap : Nat} {q : Queue cap} (hw : q.Wf) (h : q.count.val < cap) (m : List Byte) :
    ∃ q', q.enqueue m = some q' ∧ q'.list = q.list ++ [m.take 16] ∧ q'.Wf ∧ q'.count.val = q.count.val + 1 ∧
      q'.head = q.head ∧ q'.tail = nextIndex q.tail ∧
      ∀ i : Fin cap, i ≠ q.tail → q'.slots[i] = q.slots[i] := by
  have hne : q.count.val ≠ cap := Nat.ne_of_lt h
  refine ⟨_, dif_neg hne, ?_, ?_, rfl, rfl, rfl, ?_⟩
  · simp only [Queue.list]
    rw [List.range_succ, List.map_append]
    have ht : ringIndex q.head q.count.val = q.tail := Fin.ext (by simp [hw])
    congr 1
    · apply List.map_congr_left
      intro k hk
      have hk' : k < q.count.val := by simpa using hk
      have hr := ringIndex_ne q.head hk' h
      rw [ht] at hr
      have hv : q.tail.val ≠ (ringIndex q.head k).val := fun e => hr (Fin.ext e.symm)
      simp only [Fin.getElem_fin]
      rw [Vector.getElem_set_ne _ _ hv]
    · simp only [List.map_cons, List.map_nil, ht, Fin.getElem_fin, Vector.getElem_set_self, Slot.msg_write]
  · simp only [Queue.Wf, nextIndex_val] at *
    rw [hw, Nat.mod_add_mod, Nat.add_assoc]
  · intro i hi
    have hv : q.tail.val ≠ i.val := fun e => hi (Fin.ext e.symm)
    simp only [Fin.getElem_fin]
    rw [Vector.getElem_set_ne _ _ hv]

/-- Dequeueing from an empty queue fails. -/
theorem Queue.dequeue_empty {cap : Nat} {q : Queue cap} (h : q.count.val = 0) : q.dequeue = none := by
  simp [Queue.dequeue, h]

/-- All a dequeue can do when the queue holds something: the oldest message goes, no slot is written. -/
theorem Queue.dequeue_some {cap : Nat} {q : Queue cap} (h : q.count.val ≠ 0) :
    ∃ m q', q.dequeue = some (m, q') ∧ q.list = m :: q'.list ∧ (q.Wf → q'.Wf) ∧ q'.count.val = q.count.val - 1 ∧
      q'.head = nextIndex q.head ∧ q'.tail = q.tail ∧ q'.slots = q.slots := by
  refine ⟨_, _, if_neg h, ?_, ?_, rfl, rfl, rfl, rfl⟩
  · obtain ⟨c, hc⟩ := Nat.exists_eq_succ_of_ne_zero h
    simp only [Queue.list, hc, Nat.succ_eq_add_one, Nat.add_sub_cancel]
    rw [List.range_succ_eq_map, List.map_cons, List.map_map]
    have h0 : ringIndex q.head 0 = q.head := Fin.ext (by simp [Nat.mod_eq_of_lt q.head.isLt])
    congr 1
    · exact congrArg (fun i : Fin cap => (q.slots[i]).msg) h0
    · apply List.map_congr_left
      intro k _
      have : ringIndex q.head (k + 1) = ringIndex (nextIndex q.head) k := Fin.ext (by simp; ring_nf)
      exact congrArg (fun i : Fin cap => (q.slots[i]).msg) this
  · intro hw
    simp only [Queue.Wf, nextIndex_val] at *
    rw [hw, Nat.mod_add_mod]
    congr 1
    omega

end Sys2Proof.Machine
end

