-- ==== Sys2Proof/Laws/Node.lean ====
section
/-! SUPPORT. What the operations of a node leave unchanged, and their cases (R100 to R103). -/

namespace Sys2Proof.Machine

open Sys2Proof.Config

/-- `m` is `n` but for what N.RECV writes: deframer, pending command, `node_rxq`, `n_alloc_fail` (R100). -/
structure Node.RecvFrame (n m : Node) : Prop where
  addr : m.addr = n.addr
  policy : m.policy = n.policy
  txq : m.txq = n.txq
  wire : m.wire = n.wire

theorem Node.RecvFrame.rfl' (n : Node) : n.RecvFrame n := ⟨rfl, rfl, rfl, rfl⟩

theorem Node.RecvFrame.trans {a b c : Node} (h : a.RecvFrame b) (g : b.RecvFrame c) : a.RecvFrame c :=
  ⟨g.addr.trans h.addr, g.policy.trans h.policy, g.txq.trans h.txq, g.wire.trans h.wire⟩

/-- All the acceptance of a packet can do (R100). -/
theorem accept_cases (n : Node) (p : List Byte) :
    (controlOnly n.df.buf[1] = true ∧ n.accept p = { n with pcValid := true, pcCmd := n.df.buf[1] }) ∨
    (controlOnly n.df.buf[1] = false ∧ ∃ q, n.rxq.enqueue p = some q ∧
      n.accept p = { n with pcValid := true, pcCmd := n.df.buf[1], rxq := q }) ∨
    (controlOnly n.df.buf[1] = false ∧ n.rxq.enqueue p = none ∧
      n.accept p = { n with pcValid := true, pcCmd := n.df.buf[1], allocFail := true }) := by
  unfold Node.accept
  cases hc : controlOnly n.df.buf[1] with
  | true => simp [hc]
  | false => cases n.rxq.enqueue p <;> simp [hc]

theorem accept_frame (n : Node) (p : List Byte) : n.RecvFrame (n.accept p) := by
  obtain ⟨_, h⟩ | ⟨_, q, _, h⟩ | ⟨_, _, h⟩ := accept_cases n p <;> rw [h] <;> exact ⟨rfl, rfl, rfl, rfl⟩

@[simp] theorem accept_df (n : Node) (p : List Byte) : (n.accept p).df = n.df := by
  obtain ⟨_, h⟩ | ⟨_, q, _, h⟩ | ⟨_, _, h⟩ := accept_cases n p <;> rw [h]

@[simp] theorem accept_pcValid (n : Node) (p : List Byte) : (n.accept p).pcValid = true := by
  obtain ⟨_, h⟩ | ⟨_, q, _, h⟩ | ⟨_, _, h⟩ := accept_cases n p <;> rw [h]

@[simp] theorem accept_pcCmd (n : Node) (p : List Byte) : (n.accept p).pcCmd = n.df.buf[1] := by
  obtain ⟨_, h⟩ | ⟨_, q, _, h⟩ | ⟨_, _, h⟩ := accept_cases n p <;> rw [h]

@[simp] theorem onEvent_noPacket (n : Node) : n.onEvent .noPacket = n := rfl
@[simp] theorem onEvent_valid (n : Node) (p : List Byte) : n.onEvent (.valid p) = n.accept p := rfl

theorem onEvent_invalid_accept {n : Node} (h : n.policy = .accept) (p : List Byte) :
    n.onEvent (.invalid p) = n.accept p := by simp [Node.onEvent, h]

theorem onEvent_invalid_drop {n : Node} (h : n.policy = .drop) (p : List Byte) : n.onEvent (.invalid p) = n := by
  simp [Node.onEvent, h]

/-- An event is acted on as an acceptance or not at all. -/
theorem onEvent_cases (n : Node) (e : DfEvent) : n.onEvent e = n ∨ ∃ p, e.payload = some p ∧ n.onEvent e = n.accept p := by
  cases e with
  | noPacket => exact .inl rfl
  | valid p => exact .inr ⟨p, rfl, rfl⟩
  | invalid p =>
    cases h : n.policy with
    | accept => exact .inr ⟨p, rfl, onEvent_invalid_accept h p⟩
    | drop => exact .inl (onEvent_invalid_drop h p)

theorem onEvent_frame (n : Node) (e : DfEvent) : n.RecvFrame (n.onEvent e) := by
  obtain h | ⟨p, _, h⟩ := onEvent_cases n e <;> rw [h]
  · exact .rfl' n
  · exact accept_frame n p

@[simp] theorem onEvent_df (n : Node) (e : DfEvent) : (n.onEvent e).df = n.df := by
  obtain h | ⟨p, _, h⟩ := onEvent_cases n e <;> simp [h]

theorem recvByte_frame (n : Node) (b : Byte) : n.RecvFrame (n.recvByte b) :=
  have h := onEvent_frame { n with df := (n.df.step b).2 } (n.df.step b).1
  ⟨h.addr, h.policy, h.txq, h.wire⟩

/-- The deframer of the node does exactly DF.STEP. -/
@[simp] theorem recvByte_df (n : Node) (b : Byte) : (n.recvByte b).df = (n.df.step b).2 := by
  simp [Node.recvByte]

@[simp] theorem recv_nil (n : Node) : n.recv [] = n := rfl
@[simp] theorem recv_cons (n : Node) (b : Byte) (s : List Byte) : n.recv (b :: s) = (n.recvByte b).recv s := rfl

/-- A chunk is received as its parts are (R47, R84). -/
theorem recv_append (n : Node) (s t : List Byte) : n.recv (s ++ t) = (n.recv s).recv t := List.foldl_append

theorem recv_frame (n : Node) (s : List Byte) : n.RecvFrame (n.recv s) := by
  induction s generalizing n with
  | nil => exact .rfl' n
  | cons b s ih => exact (recvByte_frame n b).trans (ih _)

@[simp] theorem recv_addr (n : Node) (s : List Byte) : (n.recv s).addr = n.addr := (recv_frame n s).addr
@[simp] theorem recv_policy (n : Node) (s : List Byte) : (n.recv s).policy = n.policy := (recv_frame n s).policy
@[simp] theorem recv_txq (n : Node) (s : List Byte) : (n.recv s).txq = n.txq := (recv_frame n s).txq
@[simp] theorem recv_wire (n : Node) (s : List Byte) : (n.recv s).wire = n.wire := (recv_frame n s).wire

/-- All N.REQ can do (R101, R104). -/
theorem req_cases (n : Node) :
    (n.pcValid = false ∧ n.req = ([NO_DATA], { n with pcValid := false })) ∨
    (n.pcValid = true ∧ n.pcCmd ≠ READ ∧ n.req = ([ACK], { n with pcValid := false })) ∨
    (n.pcValid = true ∧ n.pcCmd = READ ∧ n.txq.dequeue = none ∧ n.req = ([NULL], { n with pcValid := false })) ∨
    (n.pcValid = true ∧ n.pcCmd = READ ∧ ∃ m q, n.txq.dequeue = some (m, q) ∧
      n.req = (m, { n with pcValid := false, txq := q })) := by
  unfold Node.req
  cases hv : n.pcValid with
  | false => simp
  | true =>
    by_cases hc : n.pcCmd = READ
    · cases hq : n.txq.dequeue with
      | none => simp [hc]
      | some x => obtain ⟨m, q⟩ := x; simp [hc]
    · simp [hc]

@[simp] theorem req_addr (n : Node) : n.req.2.addr = n.addr := by
  obtain ⟨_, h⟩ | ⟨_, _, h⟩ | ⟨_, _, _, h⟩ | ⟨_, _, m, q, _, h⟩ := req_cases n <;> rw [h]

@[simp] theorem req_policy (n : Node) : n.req.2.policy = n.policy := by
  obtain ⟨_, h⟩ | ⟨_, _, h⟩ | ⟨_, _, _, h⟩ | ⟨_, _, m, q, _, h⟩ := req_cases n <;> rw [h]

@[simp] theorem send_addr (n : Node) (d : List Byte) : (n.send d).2.addr = n.addr := rfl
@[simp] theorem send_policy (n : Node) (d : List Byte) : (n.send d).2.policy = n.policy := rfl

@[simp] theorem get_addr (n : Node) : n.get.2.addr = n.addr := by unfold Node.get; split <;> rfl
@[simp] theorem get_policy (n : Node) : n.get.2.policy = n.policy := by unfold Node.get; split <;> rfl

@[simp] theorem handOver_addr (n : Node) (k : Nat) : (n.handOver k).addr = n.addr := by simp [Node.handOver]
@[simp] theorem handOver_policy (n : Node) (k : Nat) : (n.handOver k).policy = n.policy := by simp [Node.handOver]
@[simp] theorem flush_addr (n : Node) : n.flush.addr = n.addr := by simp [Node.flush]
@[simp] theorem flush_policy (n : Node) : n.flush.policy = n.policy := by simp [Node.flush]
@[simp] theorem accrue_addr (n : Node) (s : List Byte) : (n.accrue s).addr = n.addr := rfl
@[simp] theorem accrue_policy (n : Node) (s : List Byte) : (n.accrue s).policy = n.policy := rfl
@[simp] theorem answer_addr (n : Node) : n.answer.2.addr = n.addr := by simp [Node.answer]
@[simp] theorem answer_policy (n : Node) : n.answer.2.policy = n.policy := by simp [Node.answer]
@[simp] theorem nodeRestart_addr (n : Node) : n.restart.addr = n.addr := rfl
@[simp] theorem nodeRestart_policy (n : Node) : n.restart.policy = n.policy := rfl

/-- Handing everything over is receiving the whole stream. -/
theorem flush_eq (n : Node) : n.flush = { n with wire := [] }.recv n.wire := by
  simp [Node.flush, Node.handOver]

end Sys2Proof.Machine
end

