-- ==== Sys2Proof/Laws/State.lean ====
section
/-! SUPPORT. What each update of the state leaves in each field; looking a node up after an update. -/

namespace Sys2Proof.Machine

@[simp] theorem ret_maxClients (s : State) (r : Result) : (s.ret r).maxClients = s.maxClients := rfl
@[simp] theorem ret_hub (s : State) (r : Result) : (s.ret r).hub = s.hub := rfl
@[simp] theorem ret_nodes (s : State) (r : Result) : (s.ret r).nodes = s.nodes := rfl
@[simp] theorem ret_now (s : State) (r : Result) : (s.ret r).now = s.now := rfl
@[simp] theorem ret_plans (s : State) (r : Result) : (s.ret r).plans = s.plans := rfl
@[simp] theorem ret_inputs (s : State) (r : Result) : (s.ret r).inputs = s.inputs := rfl
@[simp] theorem ret_out (s : State) (r : Result) : (s.ret r).out = r := rfl
@[simp] theorem ret_trace (s : State) (r : Result) : (s.ret r).trace = s.trace := rfl
@[simp] theorem ret_freeCount (s : State) (r : Result) : (s.ret r).freeCount = s.freeCount := rfl

@[simp] theorem start_maxClients (s : State) : (s.start).maxClients = s.maxClients := rfl
@[simp] theorem start_hub (s : State) : (s.start).hub = s.hub := rfl
@[simp] theorem start_nodes (s : State) : (s.start).nodes = s.nodes := rfl
@[simp] theorem start_now (s : State) : (s.start).now = s.now := rfl
@[simp] theorem start_plans (s : State) : (s.start).plans = s.plans := rfl
@[simp] theorem start_inputs (s : State) : (s.start).inputs = s.inputs := rfl
@[simp] theorem start_out (s : State) : (s.start).out = .nothing := rfl
@[simp] theorem start_trace (s : State) : (s.start).trace = [] := rfl
@[simp] theorem start_freeCount (s : State) : (s.start).freeCount = s.freeCount := rfl

@[simp] theorem log_maxClients (s : State) (e : BusEvent) : (s.log e).maxClients = s.maxClients := rfl
@[simp] theorem log_hub (s : State) (e : BusEvent) : (s.log e).hub = s.hub := rfl
@[simp] theorem log_nodes (s : State) (e : BusEvent) : (s.log e).nodes = s.nodes := rfl
@[simp] theorem log_now (s : State) (e : BusEvent) : (s.log e).now = s.now := rfl
@[simp] theorem log_plans (s : State) (e : BusEvent) : (s.log e).plans = s.plans := rfl
@[simp] theorem log_inputs (s : State) (e : BusEvent) : (s.log e).inputs = s.inputs := rfl
@[simp] theorem log_out (s : State) (e : BusEvent) : (s.log e).out = s.out := rfl
@[simp] theorem log_trace (s : State) (e : BusEvent) : (s.log e).trace = s.trace ++ [e] := rfl
@[simp] theorem log_freeCount (s : State) (e : BusEvent) : (s.log e).freeCount = s.freeCount := rfl

@[simp] theorem mapNode_maxClients (s : State) (a : Addr) (f : Node → Node) : (s.mapNode a f).maxClients = s.maxClients := rfl
@[simp] theorem mapNode_hub (s : State) (a : Addr) (f : Node → Node) : (s.mapNode a f).hub = s.hub := rfl
theorem mapNode_nodes (s : State) (a : Addr) (f : Node → Node) : (s.mapNode a f).nodes = s.nodes.map (fun n => if n.addr = a then f n else n) := rfl
@[simp] theorem mapNode_now (s : State) (a : Addr) (f : Node → Node) : (s.mapNode a f).now = s.now := rfl
@[simp] theorem mapNode_plans (s : State) (a : Addr) (f : Node → Node) : (s.mapNode a f).plans = s.plans := rfl
@[simp] theorem mapNode_inputs (s : State) (a : Addr) (f : Node → Node) : (s.mapNode a f).inputs = s.inputs := rfl
@[simp] theorem mapNode_out (s : State) (a : Addr) (f : Node → Node) : (s.mapNode a f).out = s.out := rfl
@[simp] theorem mapNode_trace (s : State) (a : Addr) (f : Node → Node) : (s.mapNode a f).trace = s.trace := rfl
@[simp] theorem mapNode_freeCount (s : State) (a : Addr) (f : Node → Node) : (s.mapNode a f).freeCount = s.freeCount := rfl

@[simp] theorem mapHub_maxClients (s : State) (f : Hub → Hub) : (s.mapHub f).maxClients = s.maxClients := rfl
@[simp] theorem mapHub_hub (s : State) (f : Hub → Hub) : (s.mapHub f).hub = f s.hub := rfl
@[simp] theorem mapHub_nodes (s : State) (f : Hub → Hub) : (s.mapHub f).nodes = s.nodes := rfl
@[simp] theorem mapHub_now (s : State) (f : Hub → Hub) : (s.mapHub f).now = s.now := rfl
@[simp] theorem mapHub_plans (s : State) (f : Hub → Hub) : (s.mapHub f).plans = s.plans := rfl
@[simp] theorem mapHub_inputs (s : State) (f : Hub → Hub) : (s.mapHub f).inputs = s.inputs := rfl
@[simp] theorem mapHub_out (s : State) (f : Hub → Hub) : (s.mapHub f).out = s.out := rfl
@[simp] theorem mapHub_trace (s : State) (f : Hub → Hub) : (s.mapHub f).trace = s.trace := rfl
@[simp] theorem mapHub_freeCount (s : State) (f : Hub → Hub) : (s.mapHub f).freeCount = s.freeCount := rfl

@[simp] theorem setNow_maxClients (s : State) (t : Millis) : (s.setNow t).maxClients = s.maxClients := rfl
@[simp] theorem setNow_hub (s : State) (t : Millis) : (s.setNow t).hub = s.hub := rfl
@[simp] theorem setNow_nodes (s : State) (t : Millis) : (s.setNow t).nodes = s.nodes := rfl
@[simp] theorem setNow_now (s : State) (t : Millis) : (s.setNow t).now = t := rfl
@[simp] theorem setNow_plans (s : State) (t : Millis) : (s.setNow t).plans = s.plans := rfl
@[simp] theorem setNow_inputs (s : State) (t : Millis) : (s.setNow t).inputs = s.inputs := rfl
@[simp] theorem setNow_out (s : State) (t : Millis) : (s.setNow t).out = s.out := rfl
@[simp] theorem setNow_trace (s : State) (t : Millis) : (s.setNow t).trace = s.trace := rfl
@[simp] theorem setNow_freeCount (s : State) (t : Millis) : (s.setNow t).freeCount = s.freeCount := rfl

@[simp] theorem setPlans_maxClients (s : State) (ps : List Plan) : (s.setPlans ps).maxClients = s.maxClients := rfl
@[simp] theorem setPlans_hub (s : State) (ps : List Plan) : (s.setPlans ps).hub = s.hub := rfl
@[simp] theorem setPlans_nodes (s : State) (ps : List Plan) : (s.setPlans ps).nodes = s.nodes := rfl
@[simp] theorem setPlans_now (s : State) (ps : List Plan) : (s.setPlans ps).now = s.now := rfl
@[simp] theorem setPlans_plans (s : State) (ps : List Plan) : (s.setPlans ps).plans = ps := rfl
@[simp] theorem setPlans_inputs (s : State) (ps : List Plan) : (s.setPlans ps).inputs = s.inputs := rfl
@[simp] theorem setPlans_out (s : State) (ps : List Plan) : (s.setPlans ps).out = s.out := rfl
@[simp] theorem setPlans_trace (s : State) (ps : List Plan) : (s.setPlans ps).trace = s.trace := rfl
@[simp] theorem setPlans_freeCount (s : State) (ps : List Plan) : (s.setPlans ps).freeCount = s.freeCount := rfl

@[simp] theorem setInputs_maxClients (s : State) (is : List Input) : (s.setInputs is).maxClients = s.maxClients := rfl
@[simp] theorem setInputs_hub (s : State) (is : List Input) : (s.setInputs is).hub = s.hub := rfl
@[simp] theorem setInputs_nodes (s : State) (is : List Input) : (s.setInputs is).nodes = s.nodes := rfl
@[simp] theorem setInputs_now (s : State) (is : List Input) : (s.setInputs is).now = s.now := rfl
@[simp] theorem setInputs_plans (s : State) (is : List Input) : (s.setInputs is).plans = s.plans := rfl
@[simp] theorem setInputs_inputs (s : State) (is : List Input) : (s.setInputs is).inputs = is := rfl
@[simp] theorem setInputs_out (s : State) (is : List Input) : (s.setInputs is).out = s.out := rfl
@[simp] theorem setInputs_trace (s : State) (is : List Input) : (s.setInputs is).trace = s.trace := rfl
@[simp] theorem setInputs_freeCount (s : State) (is : List Input) : (s.setInputs is).freeCount = s.freeCount := rfl

@[simp] theorem useFree_maxClients (s : State) : (s.useFree).maxClients = s.maxClients := rfl
@[simp] theorem useFree_hub (s : State) : (s.useFree).hub = s.hub := rfl
@[simp] theorem useFree_nodes (s : State) : (s.useFree).nodes = s.nodes := rfl
@[simp] theorem useFree_now (s : State) : (s.useFree).now = s.now := rfl
@[simp] theorem useFree_plans (s : State) : (s.useFree).plans = s.plans := rfl
@[simp] theorem useFree_inputs (s : State) : (s.useFree).inputs = s.inputs := rfl
@[simp] theorem useFree_out (s : State) : (s.useFree).out = s.out := rfl
@[simp] theorem useFree_trace (s : State) : (s.useFree).trace = s.trace := rfl
@[simp] theorem useFree_freeCount (s : State) : (s.useFree).freeCount = s.freeCount + 1 := rfl

@[simp] theorem consume_maxClients (s : State) : (s.consume).maxClients = s.maxClients := rfl
@[simp] theorem consume_hub (s : State) : (s.consume).hub = s.hub := rfl
@[simp] theorem consume_nodes (s : State) : (s.consume).nodes = s.nodes := rfl
@[simp] theorem consume_now (s : State) : (s.consume).now = s.now := rfl
@[simp] theorem consume_plans (s : State) : (s.consume).plans = s.plans := rfl
@[simp] theorem consume_inputs (s : State) : (s.consume).inputs = s.inputs.tail := rfl
@[simp] theorem consume_out (s : State) : (s.consume).out = s.out := rfl
@[simp] theorem consume_trace (s : State) : (s.consume).trace = s.trace := rfl
@[simp] theorem consume_freeCount (s : State) : (s.consume).freeCount = s.freeCount := rfl

@[simp] theorem deliver_maxClients (s : State) (a : Addr) (bs : List Byte) : (s.deliver a bs).maxClients = s.maxClients := rfl
@[simp] theorem deliver_hub (s : State) (a : Addr) (bs : List Byte) : (s.deliver a bs).hub = s.hub := rfl
@[simp] theorem deliver_now (s : State) (a : Addr) (bs : List Byte) : (s.deliver a bs).now = s.now := rfl
@[simp] theorem deliver_plans (s : State) (a : Addr) (bs : List Byte) : (s.deliver a bs).plans = s.plans := rfl
@[simp] theorem deliver_inputs (s : State) (a : Addr) (bs : List Byte) : (s.deliver a bs).inputs = s.inputs := rfl
@[simp] theorem deliver_out (s : State) (a : Addr) (bs : List Byte) : (s.deliver a bs).out = s.out := rfl
@[simp] theorem deliver_trace (s : State) (a : Addr) (bs : List Byte) : (s.deliver a bs).trace = s.trace := rfl
@[simp] theorem deliver_freeCount (s : State) (a : Addr) (bs : List Byte) : (s.deliver a bs).freeCount = s.freeCount := rfl

@[simp] theorem resetHub_maxClients (s : State) : (s.resetHub).maxClients = s.maxClients := rfl
@[simp] theorem resetHub_hub (s : State) : (s.resetHub).hub = Hub.reset := rfl
@[simp] theorem resetHub_nodes (s : State) : (s.resetHub).nodes = s.nodes := rfl
@[simp] theorem resetHub_now (s : State) : (s.resetHub).now = s.now := rfl
@[simp] theorem resetHub_plans (s : State) : (s.resetHub).plans = s.plans := rfl
@[simp] theorem resetHub_inputs (s : State) : (s.resetHub).inputs = s.inputs := rfl
@[simp] theorem resetHub_out (s : State) : (s.resetHub).out = s.out := rfl
@[simp] theorem resetHub_trace (s : State) : (s.resetHub).trace = s.trace := rfl
@[simp] theorem resetHub_freeCount (s : State) : (s.resetHub).freeCount = s.freeCount := rfl

@[simp] theorem join_maxClients (s : State) (a : Addr) (p : Config.Policy) : (s.join a p).maxClients = s.maxClients := rfl
@[simp] theorem join_hub (s : State) (a : Addr) (p : Config.Policy) : (s.join a p).hub = s.hub := rfl
@[simp] theorem join_nodes (s : State) (a : Addr) (p : Config.Policy) : (s.join a p).nodes = s.nodes ++ [Node.reset a p] := rfl
@[simp] theorem join_now (s : State) (a : Addr) (p : Config.Policy) : (s.join a p).now = s.now := rfl
@[simp] theorem join_plans (s : State) (a : Addr) (p : Config.Policy) : (s.join a p).plans = s.plans := rfl
@[simp] theorem join_inputs (s : State) (a : Addr) (p : Config.Policy) : (s.join a p).inputs = s.inputs := rfl
@[simp] theorem join_out (s : State) (a : Addr) (p : Config.Policy) : (s.join a p).out = s.out := rfl
@[simp] theorem join_trace (s : State) (a : Addr) (p : Config.Policy) : (s.join a p).trace = s.trace := rfl
@[simp] theorem join_freeCount (s : State) (a : Addr) (p : Config.Policy) : (s.join a p).freeCount = s.freeCount := rfl

@[simp] theorem leave_maxClients (s : State) (a : Addr) : (s.leave a).maxClients = s.maxClients := rfl
@[simp] theorem leave_hub (s : State) (a : Addr) : (s.leave a).hub = s.hub := rfl
@[simp] theorem leave_nodes (s : State) (a : Addr) : (s.leave a).nodes = s.nodes.filter (fun n => n.addr ≠ a) := rfl
@[simp] theorem leave_now (s : State) (a : Addr) : (s.leave a).now = s.now := rfl
@[simp] theorem leave_plans (s : State) (a : Addr) : (s.leave a).plans = s.plans := rfl
@[simp] theorem leave_inputs (s : State) (a : Addr) : (s.leave a).inputs = s.inputs := rfl
@[simp] theorem leave_out (s : State) (a : Addr) : (s.leave a).out = s.out := rfl
@[simp] theorem leave_trace (s : State) (a : Addr) : (s.leave a).trace = s.trace := rfl
@[simp] theorem leave_freeCount (s : State) (a : Addr) : (s.leave a).freeCount = s.freeCount := rfl

@[simp] theorem node?_ret (s : State) (r : Result) (k : Addr) : (s.ret r).node? k = s.node? k := rfl
@[simp] theorem node?_start (s : State) (k : Addr) : (s.start).node? k = s.node? k := rfl
@[simp] theorem node?_log (s : State) (e : BusEvent) (k : Addr) : (s.log e).node? k = s.node? k := rfl
@[simp] theorem node?_mapHub (s : State) (f : Hub → Hub) (k : Addr) : (s.mapHub f).node? k = s.node? k := rfl
@[simp] theorem node?_setNow (s : State) (t : Millis) (k : Addr) : (s.setNow t).node? k = s.node? k := rfl
@[simp] theorem node?_setPlans (s : State) (ps : List Plan) (k : Addr) : (s.setPlans ps).node? k = s.node? k := rfl
@[simp] theorem node?_setInputs (s : State) (is : List Input) (k : Addr) : (s.setInputs is).node? k = s.node? k := rfl
@[simp] theorem node?_useFree (s : State) (k : Addr) : (s.useFree).node? k = s.node? k := rfl
@[simp] theorem node?_consume (s : State) (k : Addr) : (s.consume).node? k = s.node? k := rfl
@[simp] theorem node?_resetHub (s : State) (k : Addr) : (s.resetHub).node? k = s.node? k := rfl

/-- Two states with the same nodes look every address up alike. -/
theorem node?_congr {s t : State} (h : t.nodes = s.nodes) (k : Addr) : t.node? k = s.node? k := by
  simp [State.node?, h]

/-- A node that is looked up has the address it was looked up by, and is one of the nodes. -/
theorem node?_spec {s : State} {k : Addr} {n : Node} (h : s.node? k = some n) : n ∈ s.nodes ∧ n.addr = k :=
  ⟨List.mem_of_find?_eq_some h, by simpa using List.find?_some h⟩

/-- Looking up the node an update changed. -/
theorem node?_mapNode_self (s : State) (k : Addr) (f : Node → Node) (hf : ∀ n, n.addr = k → (f n).addr = k) :
    (s.mapNode k f).node? k = (s.node? k).map f := by
  simp only [State.node?, mapNode_nodes]
  induction s.nodes with
  | nil => rfl
  | cons n ns ih => by_cases h : n.addr = k <;> simp [h, hf, ih]

/-- Looking up another node. -/
theorem node?_mapNode_other (s : State) (a k : Addr) (f : Node → Node) (hf : ∀ n, n.addr = a → (f n).addr = a)
    (hk : k ≠ a) : (s.mapNode a f).node? k = s.node? k := by
  simp only [State.node?, mapNode_nodes]
  induction s.nodes with
  | nil => rfl
  | cons n ns ih =>
    by_cases h : n.addr = a
    · have h1 : (f n).addr ≠ k := by rw [hf n h]; exact fun e => hk e.symm
      simp [h, h1, ih, Ne.symm hk]
    · by_cases h2 : n.addr = k
      · simp [h2, hk]
      · simp [h, h2, ih]

/-- An update that keeps addresses keeps the list of addresses. -/
theorem mapNode_addrs (s : State) (a : Addr) (f : Node → Node) (hf : ∀ n, n.addr = a → (f n).addr = a) :
    (s.mapNode a f).nodes.map Node.addr = s.nodes.map Node.addr := by
  simp only [mapNode_nodes, List.map_map]
  apply List.map_congr_left
  intro n _
  by_cases h : n.addr = a <;> simp [h, hf]

/-- With no node at the address, an update of it does nothing. -/
theorem mapNode_absent (s : State) (a : Addr) (f : Node → Node) (h : s.node? a = none) : s.mapNode a f = s := by
  have : s.nodes.map (fun n => if n.addr = a then f n else n) = s.nodes := by
    simp only [State.node?, List.find?_eq_none, decide_eq_true_eq] at h
    conv_rhs => rw [← List.map_id s.nodes]
    exact List.map_congr_left fun n hn => by simp [h n hn]
  simp [State.mapNode, this]

/-- An operation at a node that is there: what it answers. -/
theorem atNode_some {s : State} {k : Addr} {n : Node} (h : s.node? k = some n) (op : Node → Result × Node) :
    s.atNode k op = .next ((s.start.mapNode k (fun m => (op m).2)).ret (op n).1) := by
  simp [State.atNode, h]

/-- An operation at a node that is not there: refused. -/
theorem atNode_none {s : State} {k : Addr} (h : s.node? k = none) (op : Node → Result × Node) :
    s.atNode k op = .refused (.noSuchNode k) := by
  simp [State.atNode, h]

/-- All an operation at a node can do: if it answers a next state, the node is there and only it, the result and the
trace differ. -/
theorem atNode_next {s t : State} {k : Addr} {op : Node → Result × Node} (h : s.atNode k op = .next t) :
    ∃ n, s.node? k = some n ∧ t = (s.start.mapNode k (fun m => (op m).2)).ret (op n).1 := by
  unfold State.atNode at h
  split at h
  · cases h
  · next n hn => cases h; exact ⟨n, hn, rfl⟩

end Sys2Proof.Machine
end

