-- ==== Sys2Proof/Laws/Bus.lean ====
section
/-! SUPPORT. What an exchange on the bus can do (R44, R45, R52): all but the nodes, the clock, the plans and the trace
stays, and the trace grows by one write and one read of the hub's own. -/

namespace Sys2Proof.Machine

open Sys2Proof.Config

/-- `t` has the hub of `s`, the nodes' configuration of `s`, and everything else but nodes, clock, plans and trace. -/
structure State.BusFrame (s t : State) : Prop where
  maxClients : t.maxClients = s.maxClients
  hub : t.hub = s.hub
  config : t.nodes.map (fun n => (n.addr, n.policy)) = s.nodes.map (fun n => (n.addr, n.policy))
  inputs : t.inputs = s.inputs
  out : t.out = s.out
  freeCount : t.freeCount = s.freeCount

theorem State.BusFrame.rfl' (s : State) : s.BusFrame s := ⟨rfl, rfl, rfl, rfl, rfl, rfl⟩

theorem State.BusFrame.trans {a b c : State} (h : a.BusFrame b) (g : b.BusFrame c) : a.BusFrame c :=
  ⟨g.maxClients.trans h.maxClients, g.hub.trans h.hub, g.config.trans h.config, g.inputs.trans h.inputs,
    g.out.trans h.out, g.freeCount.trans h.freeCount⟩

theorem mapNode_config (s : State) (a : Addr) (f : Node → Node)
    (hf : ∀ n, (f n).addr = n.addr ∧ (f n).policy = n.policy) :
    (s.mapNode a f).nodes.map (fun n => (n.addr, n.policy)) = s.nodes.map (fun n => (n.addr, n.policy)) := by
  simp only [mapNode_nodes, List.map_map]
  exact List.map_congr_left fun n _ => by by_cases h : n.addr = a <;> simp [h, hf]

theorem mapNode_busFrame (s : State) (a : Addr) (f : Node → Node)
    (hf : ∀ n, (f n).addr = n.addr ∧ (f n).policy = n.policy) : s.BusFrame (s.mapNode a f) :=
  ⟨rfl, rfl, mapNode_config s a f hf, rfl, rfl, rfl⟩

theorem hubActions_append (xs ys : List BusEvent) : hubActions (xs ++ ys) = hubActions xs ++ hubActions ys := by
  induction xs with
  | nil => rfl
  | cons x xs ih => cases x <;> simp [hubActions, ih]

/-- Everything an event between bus transactions can do. -/
theorem runEvent_frame (s : State) (e : Event) :
    s.BusFrame (s.runEvent e) ∧ (s.runEvent e).plans = s.plans ∧
      hubActions (s.runEvent e).trace = hubActions s.trace := by
  cases e with
  | chunk a k => exact ⟨mapNode_busFrame s a _ (by simp), rfl, rfl⟩
  | send a d =>
    simp only [State.runEvent, State.appAt]
    split
    · exact ⟨.rfl' s, rfl, rfl⟩
    · refine ⟨?_, rfl, by simp [hubActions_append, hubActions]⟩
      have h := mapNode_busFrame s a (fun m => (m.send d).2) (by simp)
      exact ⟨h.maxClients, h.hub, h.config, h.inputs, h.out, h.freeCount⟩
  | get a =>
    simp only [State.runEvent, State.appAt]
    split
    · exact ⟨.rfl' s, rfl, rfl⟩
    · refine ⟨?_, rfl, by simp [hubActions_append, hubActions]⟩
      have h := mapNode_busFrame s a (fun m => m.get.2) (by simp)
      exact ⟨h.maxClients, h.hub, h.config, h.inputs, h.out, h.freeCount⟩
  | clock t => exact ⟨⟨rfl, rfl, rfl, rfl, rfl, rfl⟩, rfl, rfl⟩
  | resetNode a => exact ⟨mapNode_busFrame s a _ (by simp), rfl, rfl⟩

theorem runEvents_frame (s : State) (es : List Event) :
    s.BusFrame (s.runEvents es) ∧ (s.runEvents es).plans = s.plans ∧
      hubActions (s.runEvents es).trace = hubActions s.trace := by
  induction es generalizing s with
  | nil => exact ⟨.rfl' s, rfl, rfl⟩
  | cons e es ih =>
    obtain ⟨h1, h2, h3⟩ := runEvent_frame s e
    obtain ⟨g1, g2, g3⟩ := ih (s.runEvent e)
    exact ⟨h1.trans g1, g2.trans h2, g3.trans h3⟩

theorem busWrite_frame (s : State) (p : Plan) (a : Addr) (bs : List Byte) :
    s.BusFrame (s.busWrite p a bs) ∧ (s.busWrite p a bs).plans = s.plans ∧
      hubActions (s.busWrite p a bs).trace = hubActions s.trace ++ [.write a bs] := by
  unfold State.busWrite
  split
  · exact ⟨⟨rfl, rfl, rfl, rfl, rfl, rfl⟩, rfl, by simp [hubActions_append, hubActions]⟩
  · have h := mapNode_busFrame s a (fun n => n.accrue (corrupt p.errs bs)) (by simp)
    exact ⟨⟨h.maxClients, h.hub, h.config, h.inputs, h.out, h.freeCount⟩, rfl,
      by simp [hubActions_append, hubActions]⟩

theorem busRead_frame {s t : State} {p : Plan} {a : Addr} {k : Nat} {done : Bool} {r : List Byte}
    (h : s.busRead p a k = some (done, r, t)) :
    s.BusFrame t ∧ t.plans = s.plans ∧ hubActions t.trace = hubActions s.trace ++ [.read a k] := by
  have hm := mapNode_busFrame s a (fun n => n.answer.2) (by simp)
  unfold State.busRead at h
  split at h
  · cases h
  · cases h
    exact ⟨⟨rfl, rfl, rfl, rfl, rfl, rfl⟩, rfl, by simp [hubActions_append, hubActions]⟩
  · cases h
    exact ⟨⟨hm.maxClients, hm.hub, hm.config, hm.inputs, hm.out, hm.freeCount⟩, rfl,
      by simp [hubActions_append, hubActions]⟩
  · split at h
    · cases h
      exact ⟨⟨rfl, rfl, rfl, rfl, rfl, rfl⟩, rfl, by simp [hubActions_append, hubActions]⟩
    · cases h
      exact ⟨⟨hm.maxClients, hm.hub, hm.config, hm.inputs, hm.out, hm.freeCount⟩, rfl,
        by simp [hubActions_append, hubActions]⟩

/-- A read ends unless its plan says it never does. -/
theorem busRead_isSome {s : State} {p : Plan} {a : Addr} {k : Nat} (h : p.fate ≠ .stuck) :
    ∃ done r t, s.busRead p a k = some (done, r, t) := by
  unfold State.busRead
  split
  · next hs => exact absurd hs h
  · exact ⟨_, _, _, rfl⟩
  · exact ⟨_, _, _, rfl⟩
  · split <;> exact ⟨_, _, _, rfl⟩

/-- All an exchange can do if it ends. -/
theorem exchange_frame {s t : State} {a : Addr} {bs : List Byte} {k : Nat} {done : Bool} {r : List Byte}
    (h : s.exchange a bs k = some (done, r, t)) :
    s.BusFrame t ∧ t.plans = s.plans.tail ∧ hubActions t.trace = hubActions s.trace ++ [.write a bs, .read a k] := by
  unfold State.exchange at h
  obtain ⟨b1, b2, b3⟩ := runEvents_frame (s.setPlans s.plans.tail) s.plan.before
  obtain ⟨w1, w2, w3⟩ := busWrite_frame ((s.setPlans s.plans.tail).runEvents s.plan.before) s.plan a bs
  obtain ⟨e1, e2, e3⟩ := runEvents_frame
    (((s.setPlans s.plans.tail).runEvents s.plan.before).busWrite s.plan a bs) s.plan.between
  obtain ⟨r1, r2, r3⟩ := busRead_frame h
  have h0 : s.BusFrame (s.setPlans s.plans.tail) := ⟨rfl, rfl, rfl, rfl, rfl, rfl⟩
  refine ⟨h0.trans (b1.trans (w1.trans (e1.trans r1))), ?_, ?_⟩
  · rw [r2, e2, w2, b2]; rfl
  · rw [r3, e3, w3, b3]; simp

/-- An exchange ends unless its plan says it never does. -/
theorem exchange_isSome {s : State} (a : Addr) (bs : List Byte) (k : Nat) (h : s.plan.fate ≠ .stuck) :
    ∃ done r t, s.exchange a bs k = some (done, r, t) := busRead_isSome h

/-- The next plan of an unstuck transport ends, and so do those after it. -/
theorem unstuck_plan {s : State} (h : s.unstuck) : s.plan.fate ≠ .stuck := by
  unfold State.plan
  cases hp : s.plans with
  | nil => decide
  | cons p ps => exact h p (by simp [hp])

end Sys2Proof.Machine
end

