-- ==== Sys2Proof/Laws/Hub.lean ====
section
/-! SUPPORT. What the remaining shared operations can do: the node's application operations, a delivery, the hub's handling
of what it reads, and the loops of H.IDENT and H.SCAN. -/

namespace Sys2Proof.Machine

open Sys2Proof.Config

/-- All N.SEND can do to its node (R102). -/
theorem send_cases (n : Node) (d : List Byte) :
    (n.txq.enqueue (nodeMsg n.addr d) = none ∧ n.send d = (.queueFull, n)) ∨
    (∃ q, n.txq.enqueue (nodeMsg n.addr d) = some q ∧ n.send d = (.ok, { n with txq := q })) := by
  simp only [Node.send, Queue.put]
  cases n.txq.enqueue (nodeMsg n.addr d) <;> simp

/-- All N.GET can do to its node (R103). -/
theorem get_cases (n : Node) :
    (n.rxq.dequeue = none ∧ n.get = (.noData, n)) ∨
    (∃ m q, n.rxq.dequeue = some (m, q) ∧ n.get = (.data (m.drop 1), { n with rxq := q })) := by
  simp only [Node.get]
  rcases n.rxq.dequeue with _ | ⟨m, q⟩ <;> simp

/-- Bytes delivered to a node are one N.RECV of what the transport held and the bytes. -/
theorem accrue_flush (n : Node) (bs : List Byte) :
    (n.accrue bs).flush = { n with wire := [] }.recv (n.wire ++ bs) := flush_eq (n.accrue bs)

/-- All the hub's acceptance of a polled message can do (R111, R123). -/
theorem hub_accept_cases (h : Hub) (m : List Byte) :
    (h.rxq.enqueue m = none ∧ h.accept m = { h with allocFail := true }) ∨
    (∃ q, h.rxq.enqueue m = some q ∧ h.accept m = { h with rxq := q }) := by
  simp only [Hub.accept]
  cases h.rxq.enqueue m <;> simp

/-- The bytes before the first `v`. -/
theorem take_firstIndex (v : Byte) (r : List Byte) : r.take (firstIndex v r) = r.takeWhile (fun x => x ≠ v) := by
  induction r with
  | nil => rfl
  | cons b r ih => by_cases h : b = v <;> simp [firstIndex, h, ih]

/-- What a poll reply makes of the hub: the acceptance of the message it brings, if it brings one. -/
theorem onPollReply_eq (h : Hub) (r : List Byte) :
    h.onPollReply r = match polledMessage r with
      | none => h
      | some m => h.accept m := by
  rcases r with _ | ⟨b, r⟩
  · rfl
  · have hn : nothingPending b = true ↔ b = NULL ∨ b = ACK ∨ b = NO_DATA := by
      simp [nothingPending, or_assoc]
    have hf : firstIndex POLL_TERM (b :: r) = 0 ↔ b = POLL_TERM := by
      by_cases hb : b = POLL_TERM <;> simp [firstIndex, hb]
    simp only [Hub.onPollReply, polledMessage, List.head?_cons, hn, hf, take_firstIndex, List.mem_cons, List.not_mem_nil,
      or_false]
    by_cases h1 : b = NULL ∨ b = ACK ∨ b = NO_DATA
    · rw [if_pos h1, if_pos (by tauto)]
    · by_cases h2 : b = POLL_TERM
      · rw [if_neg h1, if_pos h2, if_pos (by tauto)]
      · rw [if_neg h1, if_neg h2, if_neg (by tauto)]

/-- A poll reply changes the hub's queue and flag at most. -/
theorem onPollReply_frame (h : Hub) (r : List Byte) :
    h.onPollReply r = { h with rxq := (h.onPollReply r).rxq, allocFail := (h.onPollReply r).allocFail } := by
  rw [onPollReply_eq]
  split
  · rfl
  · rename_i m _
    obtain ⟨_, e⟩ | ⟨q, _, e⟩ := hub_accept_cases h m <;> rw [e]

/-- All an enrolment can do while the roster has room (R110). -/
theorem enrol_live (h : Hub) (a : Addr) (hc : h.rosterCnt.val < 125) :
    (h.enrol a).live = h.live ++ [addrByte a] ∧ (h.enrol a).rosterCnt.val = h.rosterCnt.val + 1 ∧
      h.enrol a = { h with roster := (h.enrol a).roster, rosterCnt := (h.enrol a).rosterCnt } := by
  simp only [Hub.enrol, dif_pos hc, Hub.live, Vector.toList_set, and_true]
  rw [List.take_add_one, List.take_set_of_le (Nat.le_refl _)]
  simp [hc]

/-- All the dequeue at the end of H.GET can do (R112). -/
theorem hubTake_cases (s : State) :
    (s.hub.rxq.dequeue = none ∧ s.hubTake = s.ret (.got 0 [])) ∨
    (∃ q, s.hub.rxq.dequeue = some ([], q) ∧ s.hubTake =
      { s with hub := { s.hub with rxq := q }, out := .got (freeByte s.freeCount) [], freeCount := s.freeCount + 1 }) ∨
    (∃ b m q, s.hub.rxq.dequeue = some (b :: m, q) ∧ s.hubTake =
      { s with hub := { s.hub with rxq := q }, out := .got b m }) := by
  simp only [State.hubTake]
  rcases s.hub.rxq.dequeue with _ | ⟨_ | ⟨b, m⟩, q⟩
  · exact .inl ⟨rfl, rfl⟩
  · exact .inr (.inl ⟨q, rfl, rfl⟩)
  · exact .inr (.inr ⟨b, m, q, rfl, rfl⟩)

/-- One turn of H.IDENT's sweep. -/
theorem identLoop_cons {a : Addr} {as : List Addr} {s t : State} (h : State.identLoop (a :: as) s = some t) :
    ∃ done r s', s.exchange a (framed (pingMsg a)) 1 = some (done, r, s') ∧
      State.identLoop as (if done = true ∧ r.head? = some ACK then s'.mapHub (fun h => h.enrol a) else s') = some t := by
  simp only [State.identLoop] at h
  split at h
  · cases h
  · exact ⟨_, _, _, ‹_›, h⟩

/-- One turn of H.SCAN's round. -/
theorem scanLoop_cons {a : Byte} {as : List Byte} {s t : State} (h : State.scanLoop (a :: as) s = some t) :
    ∃ done r s', s.exchange (a.setWidth 7) (framed (readMsg a)) HUB_READ_LEN = some (done, r, s') ∧
      State.scanLoop as (if done = true then s'.mapHub (fun h => h.onPollReply r) else s') = some t := by
  simp only [State.scanLoop] at h
  split at h
  · cases h
  · exact ⟨_, _, _, ‹_›, h⟩

end Sys2Proof.Machine
end

