-- ==== Sys2Proof/Laws/PerInstr.lean ====
section
/-! SUPPORT. Facts stated of every instruction, one lemma per constructor. -/

namespace Sys2Proof.Laws.EncodeChannel

/-- The channel an instruction's bytes come on, by its row's kind (30_encoding.md), and for an operation the select code
in bits 3:0 of the first byte (R78). -/
def Statement (i : Instr) : Prop :=
  match i with
  | .byteStart l => (encode i).1 = .byte l
  | .byteEnd l => (encode i).1 = .byte l
  | .byteAck l => (encode i).1 = .byte l
  | .byteNak l => (encode i).1 = .byte l
  | .byteWrite l => (encode i).1 = .byte l
  | .byteRead l => (encode i).1 = .byte l
  | .byteNoData l => (encode i).1 = .byte l
  | .bytePing l => (encode i).1 = .byte l
  | .byteEsc l => (encode i).1 = .byte l
  | .byteNull l => (encode i).1 = .byte l
  | .bytePollTerm l => (encode i).1 = .byte l
  | .pktPing _ _ => (encode i).1 = .packet
  | .pktRead _ _ => (encode i).1 = .packet
  | .pktWrite _ _ _ => (encode i).1 = .packet
  | .pkt _ _ => (encode i).1 = .packet
  | .rplNoData => (encode i).1 = .reply
  | .rplAck => (encode i).1 = .reply
  | .rplNull => (encode i).1 = .reply
  | .rplData _ => (encode i).1 = .reply
  | .frEncode _ => (encode i).1 = .port ∧ ((encode i).2.head?.map (fun b => b.toNat % 16)) = some 0
  | .dfStep _ _ => (encode i).1 = .port ∧ ((encode i).2.head?.map (fun b => b.toNat % 16)) = some 1
  | .dfDecode _ _ => (encode i).1 = .port ∧ ((encode i).2.head?.map (fun b => b.toNat % 16)) = some 2
  | .qEnq _ _ => (encode i).1 = .port ∧ ((encode i).2.head?.map (fun b => b.toNat % 16)) = some 3
  | .qDeq _ => (encode i).1 = .port ∧ ((encode i).2.head?.map (fun b => b.toNat % 16)) = some 4
  | .qEmpty _ => (encode i).1 = .port ∧ ((encode i).2.head?.map (fun b => b.toNat % 16)) = some 5
  | .nRecv _ _ => (encode i).1 = .port ∧ ((encode i).2.head?.map (fun b => b.toNat % 16)) = some 6
  | .nReq _ => (encode i).1 = .port ∧ ((encode i).2.head?.map (fun b => b.toNat % 16)) = some 7
  | .nSend _ _ => (encode i).1 = .port ∧ ((encode i).2.head?.map (fun b => b.toNat % 16)) = some 8
  | .nGet _ => (encode i).1 = .port ∧ ((encode i).2.head?.map (fun b => b.toNat % 16)) = some 9
  | .hIdent => (encode i).1 = .port ∧ ((encode i).2.head?.map (fun b => b.toNat % 16)) = some 10
  | .hScan => (encode i).1 = .port ∧ ((encode i).2.head?.map (fun b => b.toNat % 16)) = some 11
  | .hGet => (encode i).1 = .port ∧ ((encode i).2.head?.map (fun b => b.toNat % 16)) = some 12
  | .hSend _ _ => (encode i).1 = .port ∧ ((encode i).2.head?.map (fun b => b.toNat % 16)) = some 13
  | .hClients _ => (encode i).1 = .port ∧ ((encode i).2.head?.map (fun b => b.toNat % 16)) = some 14

theorem byteStart (l : Lane) : Statement (.byteStart l) := rfl
theorem byteEnd (l : Lane) : Statement (.byteEnd l) := rfl
theorem byteAck (l : Lane) : Statement (.byteAck l) := rfl
theorem byteNak (l : Lane) : Statement (.byteNak l) := rfl
theorem byteWrite (l : Lane) : Statement (.byteWrite l) := rfl
theorem byteRead (l : Lane) : Statement (.byteRead l) := rfl
theorem byteNoData (l : Lane) : Statement (.byteNoData l) := rfl
theorem bytePing (l : Lane) : Statement (.bytePing l) := rfl
theorem byteEsc (l : Lane) : Statement (.byteEsc l) := rfl
theorem byteNull (l : Lane) : Statement (.byteNull l) := rfl
theorem bytePollTerm (l : Lane) : Statement (.bytePollTerm l) := rfl
theorem pktPing (a : Addr) (t : Byte) : Statement (.pktPing a t) := rfl
theorem pktRead (a : Addr) (t : Byte) : Statement (.pktRead a t) := rfl
theorem pktWrite (a : Addr) (d : List Byte) (t : Byte) : Statement (.pktWrite a d t) := rfl
theorem pkt (m : List Byte) (t : Byte) : Statement (.pkt m t) := rfl
theorem rplNoData : Statement (.rplNoData) := rfl
theorem rplAck : Statement (.rplAck) := rfl
theorem rplNull : Statement (.rplNull) := rfl
theorem rplData (r : List Byte) : Statement (.rplData r) := rfl
theorem frEncode (m : List Byte) : Statement (.frEncode m) := ⟨rfl, rfl⟩
theorem dfStep (k : Addr) (b : Byte) : Statement (.dfStep k b) := ⟨rfl, rfl⟩
theorem dfDecode (k : Addr) (s : List Byte) : Statement (.dfDecode k s) := ⟨rfl, rfl⟩
theorem qEnq (q : QueueId) (m : List Byte) : Statement (.qEnq q m) := ⟨rfl, rfl⟩
theorem qDeq (q : QueueId) : Statement (.qDeq q) := ⟨rfl, rfl⟩
theorem qEmpty (q : QueueId) : Statement (.qEmpty q) := ⟨rfl, rfl⟩
theorem nRecv (k : Addr) (s : List Byte) : Statement (.nRecv k s) := ⟨rfl, rfl⟩
theorem nReq (k : Addr) : Statement (.nReq k) := ⟨rfl, rfl⟩
theorem nSend (k : Addr) (d : List Byte) : Statement (.nSend k d) := ⟨rfl, rfl⟩
theorem nGet (k : Addr) : Statement (.nGet k) := ⟨rfl, rfl⟩
theorem hIdent : Statement (.hIdent) := ⟨rfl, rfl⟩
theorem hScan : Statement (.hScan) := ⟨rfl, rfl⟩
theorem hGet : Statement (.hGet) := ⟨rfl, rfl⟩
theorem hSend (a : Addr) (d : List Byte) : Statement (.hSend a d) := ⟨rfl, rfl⟩
theorem hClients (copy : Bool) : Statement (.hClients copy) := ⟨rfl, rfl⟩

end Sys2Proof.Laws.EncodeChannel
end

