-- ==== Sys2Proof/Laws/Step.lean ====
section
/-! SUPPORT. What the next input asks for (R78, R138), and what bytes on the bus do whatever they are (R44, R111). -/

namespace Sys2Proof.Machine

open Sys2Proof.Config

@[simp] theorem arrive_toNode (s : State) (a : Addr) (bs : List Byte) :
    s.arrive (.toNode a) bs = .next (s.start.mapNode a (fun n => (n.accrue bs).flush)) := rfl

@[simp] theorem arrive_toHub (s : State) (bs : List Byte) :
    s.arrive .toHub bs = .next (s.start.mapHub (fun h => h.onPollReply (bs.take 8))) := rfl

@[simp] theorem byteOnBus_eq (s : State) (l : Lane) (b : Byte) : s.byteOnBus l b = s.arrive l [b] := rfl

@[simp] theorem replyOnBus_eq (s : State) (r : List Byte) : s.replyOnBus r = s.arrive .toHub r := rfl

/-- All a packet on the bus can do. -/
theorem packetOnBus_eq (s : State) (m : List Byte) (t : Byte) :
    s.packetOnBus m t = match destination m with
      | none => .next s.start
      | some a => s.arrive (.toNode a) (packetBytes m t) := rfl

/-- All that a request at the head of the inputs can ask for. -/
theorem fetch_request {s : State} {who : Invoker} {ch : Channel} {bs : List Byte} {rest : List Input}
    (h : s.inputs = .request who ch bs :: rest) :
    (∃ i, decode ch bs = .instr i ∧ who ∈ invokers i ∧ s.fetch = .instr i) ∨
    (∃ l b, decode ch bs = .stray l b ∧ who = .transport ∧ s.fetch = .stray l b) ∨
    s.fetch = .noOperation := by
  simp only [State.fetch, h]
  cases decode ch bs with
  | instr i => by_cases hw : who ∈ invokers i <;> simp [hw]
  | stray l b => by_cases hw : who = .transport <;> simp [hw]
  | inert => simp
  | rejected e => simp

/-- Every instruction has an invoker (R78). -/
theorem invokers_headD (i : Instr) (w : Invoker) : (invokers i).headD w ∈ invokers i := by
  cases i <;> simp [invokers]

end Sys2Proof.Machine
end

