-- ==== Sys2Proof/Tests/Slice0.lean ====
section
/-! SUPPORT. Tests: ill-formed terms are refused, words written out from 30_encoding.md decode, the vectors of
95_test_vectors.md hold (each named in its test), and a witness for the hypotheses of each statement. -/

namespace Sys2Proof.Tests

open Sys2Proof Sys2Proof.Machine Sys2Proof.Config

/-! ### Helpers -/

/-- The next state of an outcome, if it is one. -/
def next? : Host.Outcome State Fault Refusal → Option State
  | .next t => some t
  | .fault _ => none
  | .refused _ => none

/-- The next state of an outcome; the reset state for a stop. -/
def nextOf (o : Host.Outcome State Fault Refusal) : State := (next? o).getD State.reset

/-- The result an instruction returns. -/
def outOf (i : Instr) (s : State) : Option Result := (next? (exec i s)).map State.out

/-- What an instruction leaves of the node at `a`. -/
def nodeOf {α : Type} (f : Node → α) (a : Addr) (i : Instr) (s : State) : Option α :=
  (next? (exec i s)).bind (fun t => (t.node? a).map f)

/-- What an instruction leaves of the hub. -/
def hubOf {α : Type} (f : Hub → α) (i : Instr) (s : State) : Option α := (next? (exec i s)).map (fun t => f t.hub)

/-- The bus transactions of an instruction. -/
def traceOf (i : Instr) (s : State) : Option (List BusEvent) := (next? (exec i s)).map State.trace

/-- `(df_sync, df_cur, df_par)`. -/
def dfView (n : Node) : Bool × Nat × Byte := (n.df.sync, n.df.cur.val, n.df.par)

/-- A system with the nodes `ns`. -/
def sys (ns : List Node) : State := { State.reset with nodes := ns }

def node3 : Node := Node.reset 3 .accept
def s3 : State := sys [node3]
/-- Node 1 alone, an invalid packet accepted or dropped. -/
def s1 (p : Policy) : State := sys [Node.reset 1 p]

/-- A queue of one message. -/
def oneMsg (m : List Byte) : Queue 20 := (Queue.reset20.put m).2
/-- Node 3 with `m` outbound and `cmd` pending. -/
def asked (cmd : Byte) (m : List Byte) : State :=
  sys [{ node3 with pcValid := true, pcCmd := cmd, txq := oneMsg m }]

def full20 : Queue 20 := { Queue.reset20 with count := 20 }
def near20 : Queue 20 := { Queue.reset20 with tail := 19, count := 19 }
def full40 : Queue 40 := { Queue.reset40 with count := 40 }
def near40 : Queue 40 := { Queue.reset40 with tail := 39, count := 39 }

/-- Node 3 with a full and a nearly full queue. -/
def s3full : State := sys [{ node3 with rxq := full20, txq := full20 }]
def s3near : State := sys [{ node3 with rxq := near20, txq := near20 }]
/-- Node 3 with its deframer holding sixteen bytes. -/
def s3over : State := sys [{ node3 with df := { Deframer.reset with sync := true, par := 0x82, cur := 16 } }]
/-- Node 3 with its deframer holding fifteen bytes. -/
def s3last : State := sys [{ node3 with df := { Deframer.reset with sync := true, par := 0x82, cur := 15 } }]

/-- The hub with the roster `[3]`. -/
def hub3 : Hub := { Hub.reset with roster := Hub.reset.roster.set 0 3, rosterCnt := 1 }
def polled (ns : List Node) : State := { sys ns with hub := hub3 }

/-- The bytes `a, a+1, ..`, `n` of them. -/
def run (a : Byte) : Nat → List Byte
  | 0 => []
  | n + 1 => a :: run (a + 1) n

/-! ### Well-formedness refuses -/

theorem test_pktWrite_too_long : (Instr.pktWrite 3 (List.replicate 15 0) 0).wellFormed = false := by decide
theorem test_pkt_empty : (Instr.pkt [] 0).wellFormed = false := by decide
theorem test_pkt_too_long : (Instr.pkt (List.replicate 17 0) 0).wellFormed = false := by decide
theorem test_pkt_of_ping : (Instr.pkt [3, 0xB1] 0).wellFormed = false := by decide
theorem test_pkt_of_read : (Instr.pkt [3, 0xD2] 0).wellFormed = false := by decide
theorem test_pkt_of_write : (Instr.pkt [3, 0xD7, 0x68] 0).wellFormed = false := by decide
theorem test_rplData_empty : (Instr.rplData []).wellFormed = false := by decide
theorem test_rplData_too_long : (Instr.rplData (List.replicate 17 1)).wellFormed = false := by decide
theorem test_rplData_first_byte : ∀ b ∈ [(0x00 : Byte), 0x86, 0xB0, 0xFF], (Instr.rplData [b, 1]).wellFormed = false := by
  decide
theorem test_qEnq_too_long : (Instr.qEnq .hubRx (List.replicate 17 0)).wellFormed = false := by decide
theorem test_longest_are_wellFormed :
    ∀ i ∈ [Instr.pktWrite 3 (List.replicate 14 0) 0, .pkt (List.replicate 16 0) 0, .rplData (List.replicate 16 1),
      .qEnq .hubRx (List.replicate 16 0)], i.wellFormed = true := by decide

/-! ### Decoding, by words written out from R60, R63 to R78 -/

theorem test_decode_control_bytes : ∀ l ∈ [Lane.toHub, .toNode 3],
    decode (.byte l) [0x82] = .instr (.byteStart l) ∧ decode (.byte l) [0x83] = .instr (.byteEnd l) ∧
    decode (.byte l) [0x86] = .instr (.byteAck l) ∧ decode (.byte l) [0x95] = .instr (.byteNak l) ∧
    decode (.byte l) [0xD7] = .instr (.byteWrite l) ∧ decode (.byte l) [0xD2] = .instr (.byteRead l) ∧
    decode (.byte l) [0xB0] = .instr (.byteNoData l) ∧ decode (.byte l) [0xB1] = .instr (.bytePing l) ∧
    decode (.byte l) [0x9B] = .instr (.byteEsc l) ∧ decode (.byte l) [0x00] = .instr (.byteNull l) ∧
    decode (.byte l) [0xFF] = .instr (.bytePollTerm l) := by decide
theorem test_decode_stray_bytes : decode (.byte .toHub) [0x41] = .stray .toHub [0x41] ∧
    decode (.byte (.toNode 3)) [0x82, 0x03] = .stray (.toNode 3) [0x82, 0x03] ∧
    decode (.byte .toHub) [] = .rejected .emptyFrame := by decide

theorem test_decode_pktPing : decode .packet [0x82, 0x03, 0xB1, 0xB3, 0x83] = .instr (.pktPing 3 0xB3) := by decide
theorem test_decode_pktRead : decode .packet [0x82, 0x0C, 0xD2, 0xDF, 0x83] = .instr (.pktRead 12 0xDF) := by decide
theorem test_decode_pktWrite :
    decode .packet [0x82, 0x03, 0xD7, 0x68, 0x69, 0xD4, 0x83] = .instr (.pktWrite 3 [0x68, 0x69] 0xD4) := by decide
theorem test_decode_pkt : decode .packet [0x82, 0x05, 0x04, 0x83] = .instr (.pkt [0x05] 0x04) := by decide
theorem test_decode_pkt_high_address :
    decode .packet [0x82, 0x83, 0xB1, 0x33, 0x83] = .instr (.pkt [0x83, 0xB1] 0x33) := by decide
theorem test_decode_stray_packets :
    decode .packet [0x82, 0x01, 0x83] = .stray (.toNode 1) [0x82, 0x01, 0x83] ∧
    decode .packet [0x86, 0x05, 0x04, 0x83] = .stray (.toNode 5) [0x86, 0x05, 0x04, 0x83] ∧
    decode .packet [0x82, 0x05, 0x04, 0x84] = .stray (.toNode 5) [0x82, 0x05, 0x04, 0x84] ∧
    decode .packet [0x82, 0x83, 0x83] = .rejected .noAddress ∧ decode .packet [0x82] = .rejected .noAddress := by decide

theorem test_decode_replies :
    decode .reply [0xB0] = .instr .rplNoData ∧ decode .reply [0x86] = .instr .rplAck ∧
    decode .reply [0x00] = .instr .rplNull ∧ decode .reply [0x03, 0x78] = .instr (.rplData [0x03, 0x78]) := by decide
theorem test_decode_stray_replies :
    decode .reply [0x86, 0xFF] = .stray .toHub [0x86, 0xFF] ∧ decode .reply [0xFF] = .stray .toHub [0xFF] ∧
    decode .reply (List.replicate 17 1) = .stray .toHub (List.replicate 17 1) := by decide

theorem test_decode_codec_operations :
    decode .port [0x00, 0x03, 0xB1] = .instr (.frEncode [0x03, 0xB1]) ∧
    decode .port [0x01, 0x02, 0x82] = .instr (.dfStep 3 0x82) ∧
    decode .port [0x02, 0x02, 0x82, 0x03] = .instr (.dfDecode 3 [0x82, 0x03]) := by decide
theorem test_decode_queue_operations :
    decode .port [0x03, 0x02, 0x02, 0x03, 0x78] = .instr (.qEnq (.nodeTx 3) [0x03, 0x78]) ∧
    decode .port [0x04, 0x00] = .instr (.qDeq .hubRx) ∧
    decode .port [0x05, 0x01, 0x02] = .instr (.qEmpty (.nodeRx 3)) := by decide
theorem test_decode_node_operations :
    decode .port [0x06, 0x02, 0x82, 0x03] = .instr (.nRecv 3 [0x82, 0x03]) ∧
    decode .port [0x07, 0x02] = .instr (.nReq 3) ∧
    decode .port [0x08, 0x02, 0x78] = .instr (.nSend 3 [0x78]) ∧
    decode .port [0x09, 0x02] = .instr (.nGet 3) := by decide
theorem test_decode_hub_operations :
    decode .port [0x0A] = .instr .hIdent ∧ decode .port [0x0B] = .instr .hScan ∧ decode .port [0x0C] = .instr .hGet ∧
    decode .port [0x0D, 0x03, 0x68, 0x69] = .instr (.hSend 3 [0x68, 0x69]) ∧
    decode .port [0x0E, 0x01] = .instr (.hClients true) ∧ decode .port [0x0F] = .inert := by decide
theorem test_decode_port_rejects :
    decode .port [0x07, 0x80] = .rejected (.badOperand 0x80) ∧ decode .port [0x07] = .rejected .truncatedFrame ∧
    decode .port [0x0A, 0x00] = .rejected .trailingBytes := by decide
theorem test_decodeTableWord :
    decodeTableWord 8 0x82 = some (.byteStart (.toNode 1)) ∧
    decodeTableWord 40 0x83B3B10382 = some (.pktPing 3 0xB3) ∧
    decodeTableWord 16 0x7803 = some (.rplData [0x03, 0x78]) ∧
    decodeTableWord 8 0x0A = some .hIdent ∧ decodeTableWord 8 0x07 = some (.nReq 1) := by decide

/-! ### The codec: E, DV -/

theorem test_E1 : outOf (.frEncode [0x03, 0xB1]) s3 = some (.sent [0x82, 0x03, 0xB1, 0xB3, 0x83]) := by decide
theorem test_E0 : outOf (.frEncode []) s3 = some .nothingToSend := by decide
theorem test_dfStep_start : nodeOf dfView 3 (.dfStep 3 0x82) s3 = some (true, 0, 0x82) := by decide
theorem test_DV22_dfStep : outOf (.dfStep 3 0x83) s3 = some (.event .noPacket) := by decide
theorem test_DV11 : outOf (.dfDecode 3 [0x82, 0x03, 0xD7, 0x69, 0x69, 0xD4, 0x83]) s3 =
    some (.decoded (.invalid [0x03, 0xD7, 0x69, 0x69]) []) := by decide
theorem test_DV10 : nodeOf dfView 3 (.dfDecode 3
    ([0x82, 0x03, 0xD7] ++ run 0x41 14 ++ [0xDA, 0x83])) s3 = some (false, 15, 0x83) := by decide

/-! ### The queues: Q -/

theorem test_Q3 : nodeOf (fun n => (n.txq.list, n.txq.tail.val)) 3 (.qEnq (.nodeTx 3) [0x03, 0x78]) s3 =
    some ([[0x03, 0x78]], 1) := by decide
theorem test_Q7 : outOf (.qEnq .hubRx [1]) { s3 with hub := { Hub.reset with rxq := full40 } } = some .queueFull := by
  decide
theorem test_Q2 : outOf (.qDeq (.nodeTx 3)) s3 = some .queueEmpty := by decide
theorem test_qDeq_oldest : outOf (.qDeq (.nodeTx 3)) (asked 0 [0x05, 0x41]) = some (.msg [0x05, 0x41]) := by decide
theorem test_Q1 : outOf (.qEmpty (.nodeTx 3)) s3 = some (.truth true) := by decide
theorem test_qEmpty_false : outOf (.qEmpty (.nodeTx 3)) (asked 0 [0x05]) = some (.truth false) := by decide

/-! ### The node agent: NV -/

theorem test_NV1_recv : nodeOf (fun n => (n.pending, n.rxq.list, dfView n)) 3
    (.nRecv 3 [0x82, 0x03, 0xD7, 0x68, 0x69, 0xD4, 0x83]) s3 =
    some (some 0xD7, [[0x03, 0xD7, 0x68, 0x69]], (false, 4, 0x00)) := by decide
theorem test_NV18 : nodeOf (fun n => (n.pending, n.rxq.list, dfView n)) 1
    (.nRecv 1 [0x82, 0x01, 0xD7, 0x54, 0x83, 0x83]) (s1 .drop) = some (none, [], (false, 2, 0x83)) := by decide
theorem test_NV2_req : outOf (.nReq 3) (asked 0xD2 [0x03, 0x78]) = some (.reply [0x03, 0x78]) := by decide
theorem test_NV11_req : outOf (.nReq 3) (asked 0xD7 [0x03, 0x41]) = some (.reply [0x86]) := by decide
theorem test_NV15 : nodeOf (fun n => n.txq.list) 3 (.nSend 3 (run 0x61 20)) s3 = some [0x03 :: run 0x61 15] := by decide
theorem test_NV14 : outOf (.nSend 3 [0x14]) s3full = some .queueFull := by decide
theorem test_NV7_get : outOf (.nGet 3) (sys [{ node3 with rxq := oneMsg [0x03, 0x00, 0x11] }]) =
    some (.data [0x00, 0x11]) := by decide
theorem test_NV19 : outOf (.nGet 3) s3 = some .noData := by decide

/-! ### The hub engine: H, P -/

/-- P1 with the sweep cut to addresses 1 to 3. -/
theorem test_P1_ident : hubOf Hub.live .hIdent { s3 with maxClients := 4 } = some [3] := by decide
theorem test_P1_ident_count : outOf .hIdent { s3 with maxClients := 4 } = some (.count 1) := by decide
theorem test_P3_scan : hubOf (fun h => h.rxq.list) .hScan (polled [{ node3 with txq := oneMsg [0x03, 0x78] }]) =
    some [[0x03, 0x78]] := by decide
theorem test_P3_scan_trace : traceOf .hScan (polled [node3]) =
    some [.write 3 [0x82, 0x03, 0xD2, 0xD0, 0x83], .read 3 8 true (0x00 :: List.replicate 7 0xFF)] := by decide
theorem test_P3_get : outOf .hGet (polled [{ node3 with txq := oneMsg [0x03, 0x78] }]) = some (.got 3 [0x78]) := by
  decide
/-- H10: elapsed 99 across the wrap of the clock. -/
theorem test_H10_no_poll : traceOf .hGet
    { polled [node3] with hub := { hub3 with lastScan := 0xFFFFFFF0, lastScanValid := true }, now := 0x53 } =
    some [] := by decide
theorem test_H13 : traceOf (.hSend 9 [0x68, 0x69]) s3 =
    some [.write 9 [0x82, 0x09, 0xD7, 0x68, 0x69, 0xDE, 0x83], .read 9 1 false []] := by decide
theorem test_H14 : nodeOf (fun n => n.rxq.list) 3 (.hSend 3 []) s3 = some [[0x03, 0xD7]] := by decide
theorem test_P1_clients : outOf (.hClients true) (polled []) = some (.clients 1 [3]) := by decide
theorem test_P1_clients_count : outOf (.hClients false) (polled []) = some (.clients 1 []) := by decide

/-! ### Bytes, packets and replies on the bus -/

theorem test_byteStart : nodeOf dfView 3 (.byteStart (.toNode 3)) s3 = some (true, 0, 0x82) := by decide
theorem test_byteEnd : nodeOf dfView 3 (.byteEnd (.toNode 3)) s3 = some (false, 0, 0x00) := by decide
theorem test_byteAck : hubOf (fun h => h.rxq.list) (.byteAck .toHub) s3 = some [] := by decide
theorem test_H8c_byteNak : hubOf (fun h => h.rxq.list) (.byteNak .toHub) s3 = some [[0x95]] := by decide
theorem test_byteWrite : nodeOf dfView 3 (.byteWrite (.toNode 3)) s3last = some (true, 16, 0x55) := by decide
theorem test_byteRead : nodeOf dfView 3 (.byteRead (.toNode 3)) s3last = some (true, 16, 0x50) := by decide
theorem test_byteNoData : hubOf (fun h => h.rxq.list) (.byteNoData .toHub) s3 = some [] := by decide
theorem test_bytePing : nodeOf dfView 3 (.bytePing (.toNode 3)) s3last = some (true, 16, 0x33) := by decide
theorem test_byteEsc : hubOf (fun h => h.rxq.list) (.byteEsc .toHub) s3 = some [[0x9B]] := by decide
theorem test_byteNull : hubOf (fun h => h.rxq.list) (.byteNull .toHub) s3 = some [] := by decide
theorem test_H4_bytePollTerm : hubOf (fun h => h.rxq.list) (.bytePollTerm .toHub) s3 = some [] := by decide
theorem test_pktPing : nodeOf (fun n => (n.pending, n.rxq.list)) 3 (.pktPing 3 0xB3) s3 = some (some 0xB1, []) := by
  decide
theorem test_pktRead : nodeOf (fun n => (n.pending, n.rxq.list)) 3 (.pktRead 3 0xD0) s3 = some (some 0xD2, []) := by
  decide
theorem test_pktWrite : nodeOf (fun n => n.rxq.list) 3 (.pktWrite 3 [0x68, 0x69] 0xD4) s3 =
    some [[0x03, 0xD7, 0x68, 0x69]] := by decide
theorem test_pkt : nodeOf (fun n => (n.pending, n.rxq.list)) 3 (.pkt [0x03, 0x00, 0x11] 0x13) s3 =
    some (some 0x00, [[0x03, 0x00, 0x11]]) := by decide
theorem test_H3_rplNoData : hubOf (fun h => h.rxq.list) .rplNoData s3 = some [] := by decide
theorem test_H2_rplAck : hubOf (fun h => h.rxq.list) .rplAck s3 = some [] := by decide
theorem test_H1_rplNull : hubOf (fun h => h.rxq.list) .rplNull s3 = some [] := by decide
theorem test_H6_rplData : hubOf (fun h => h.rxq.list) (.rplData (0x03 :: run 0x41 9)) s3 = some [0x03 :: run 0x41 7] := by
  decide
theorem test_H7_rplData : hubOf (fun h => h.rxq.list) (.rplData [0x03, 0x41, 0xFF, 0x42]) s3 = some [[0x03, 0x41]] := by
  decide

/-! ### Witnesses: states and operands that meet the hypotheses of the statements together, a boundary for each clause -/

theorem test_witness_DecodeEncodeRoundTrip : (Instr.pktWrite 127 (List.replicate 14 0xFF) 0x82).wellFormed = true := by
  decide
theorem test_witness_BusBytesHaveOneMeaning : Channel.packet ≠ .port ∧
    decode .packet ([0x82] ++ List.replicate 16 0x82 ++ [0x00, 0x83]) = .instr (.pkt (List.replicate 16 0x82) 0x00) := by
  decide

/-- A request of `who` at the head of the inputs. -/
def requested (who : Invoker) (ch : Channel) (bs : List Byte) : State :=
  { s3 with inputs := [.request who ch bs, .resetHub] }

theorem test_witness_StepRunsTheDecodedInstruction : (requested (.callback 3) .port [0x07, 0x02]).legal = true ∧
    (requested (.callback 3) .port [0x07, 0x02]).inputs = [.request (.callback 3) .port [0x07, 0x02], .resetHub] ∧
    decode .port [0x07, 0x02] = .instr (.nReq 3) ∧ (Instr.nReq 3).wellFormed = true ∧
    Invoker.callback 3 ∈ invokers (.nReq 3) := by decide
theorem test_witness_StepRunsTableWord : State.reset.legal = true ∧ decodeTableWord 8 0x07 = some (.nReq 1) ∧
    (Instr.nReq 1).wellFormed = true := by decide
theorem test_witness_StepWithoutInstruction_illegal : (sys [node3, node3]).legal = false ∧
    { s3 with maxClients := 1 }.legal = false := by decide
theorem test_witness_StepWithoutInstruction_idle : s3.legal = true ∧ s3.inputs = [] := by decide
theorem test_witness_StepWithoutInstruction_requests : (requested .opScan .port [0x0F]).legal = true ∧
    decode .port [0x0F] = .inert ∧ decode .port [0x07] = .rejected .truncatedFrame ∧
    decode .port [0x0B] = .instr .hScan ∧ Invoker.hubApplication ∉ invokers .hScan ∧
    decode .reply [0xFF] = .stray .toHub [0xFF] ∧ Invoker.hubApplication ≠ .transport ∧
    decode .port (0x03 :: 0x00 :: List.replicate 17 0) = .instr (.qEnq .hubRx (List.replicate 17 0)) ∧
    Invoker.opScan ∈ invokers (.qEnq .hubRx (List.replicate 17 0)) ∧
    (Instr.qEnq .hubRx (List.replicate 17 0)).wellFormed = false ∧ (0xFF : Byte).toNat % 16 = 15 := by decide
/-- DV10b as bytes on the packet channel: a message of 17 bytes is no packet row and is received all the same. -/
theorem test_DV10b_arrives : (next? (step (requested .transport .packet
    ([0x82, 0x03, 0xD7] ++ run 0x41 15 ++ [0x95, 0x83])))).bind (fun t => (t.node? 3).map dfView) =
    some (false, 15, 0x16) := by decide
/-- H4: eight bytes 0xFF read bring nothing. -/
theorem test_H4_arrives : (next? (step (requested .transport .reply (List.replicate 8 0xFF)))).map
    (fun t => t.hub.rxq.count.val) = some 0 := by decide
theorem test_witness_BusBytesArriveWhateverTheyAre :
    (requested .transport (.byte (.toNode 3)) [0x41]).legal = true ∧
    (requested .transport (.byte (.toNode 3)) [0x41]).inputs =
      [.request .transport (.byte (.toNode 3)) [0x41], .resetHub] ∧
    (requested .transport .packet [0x86, 0x03]).inputs = [.request .transport .packet [0x86, 0x03], .resetHub] ∧
    [(0x86 : Byte), 0x03][1]? = some (addrByte 3) ∧ s3.node? 3 = some node3 ∧ s3.node? 4 = none ∧
    (requested .transport .reply [0xFF]).inputs = [.request .transport .reply [0xFF], .resetHub] ∧
    (requested .transport (.byte .toHub) [0x41]).inputs = [.request .transport (.byte .toHub) [0x41], .resetHub] ∧
    (requested .transport .reply [0xFF]).hub.rxq.Wf := by decide
/-- The wiring: the hub application has no port for H.SCAN. -/
theorem test_unwired_request : (next? (step { polled [node3] with inputs := [.request .hubApplication .port [0x0B]] })).map
    (fun t => (t.inputs, t.trace)) = some ([], []) := by decide

theorem test_witness_OperationAtAbsentNodeRefused : s3.node? 4 = none := by decide

/-- Node 3 is there: the hypothesis of DfDecodeStopsAtFirstPacket and ReceptionIgnoresFragmentation, and of the first two
clauses of DfStepTransitions (START; not synchronised). -/
theorem test_witness_node_present : s3.node? 3 = some node3 ∧ node3.df.sync = false ∧ (0x83 : Byte) ≠ 0x82 := by decide
theorem test_witness_DfStepTransitions_append : s3last.node? 3 =
    some { node3 with df := { Deframer.reset with sync := true, par := 0x82, cur := 15 } } ∧
    (0x84 : Byte) ≠ 0x82 ∧ (0x84 : Byte) ≠ 0x83 := by decide
theorem test_witness_DfStepTransitions_terminate : s3over.node? 3 =
    some { node3 with df := { Deframer.reset with sync := true, par := 0x82, cur := 16 } } ∧ (0x84 : Byte) ≠ 0x82 := by
  decide

theorem test_witness_Intact : Intact [0x05] ∧ Intact [0x03, 0xB1] ∧ Intact (0x03 :: 0xD7 :: run 0x41 13) := by decide
theorem test_witness_CodecRoundTrip : s3.node? 3 = some node3 ∧ Intact (0x03 :: 0xD7 :: run 0x41 13) := by decide
theorem test_witness_CorruptionDetection : s3.node? 3 = some node3 ∧ Intact [0x03, 0xD7, 0x68, 0x69] ∧
    [0, 0, 0, 0, (0x04 : Byte)].length ≤ [(0x03 : Byte), 0xD7, 0x68, 0x69].length + 1 ∧
    ∀ b ∈ corrupt [0, 0, 0, 0, 0x04] ([0x03, 0xD7, 0x68, 0x69] ++ [trailer [0x03, 0xD7, 0x68, 0x69]]),
      b ≠ START ∧ b ≠ END := by decide
theorem test_witness_DecodedPayloadBound_step :
    exec (.dfStep 3 0x41) s3over = .next (nextOf (exec (.dfStep 3 0x41) s3over)) ∧
    (nextOf (exec (.dfStep 3 0x41) s3over)).out = .event (.invalid (List.replicate 15 0)) ∧
    (DfEvent.invalid (List.replicate 15 0)).payload = some (List.replicate 15 0) := ⟨rfl, by decide, rfl⟩
theorem test_witness_DecodedPayloadBound_decode :
    exec (.dfDecode 3 [0x41, 0x83]) s3over = .next (nextOf (exec (.dfDecode 3 [0x41, 0x83]) s3over)) ∧
    (nextOf (exec (.dfDecode 3 [0x41, 0x83]) s3over)).out = .decoded (.invalid (List.replicate 15 0)) [0x83] ∧
    (DfEvent.invalid (List.replicate 15 0)).payload = some (List.replicate 15 0) := ⟨rfl, by decide, rfl⟩
theorem test_witness_SixteenByteMessageCut : s3.node? 3 = some node3 ∧
    (0x03 :: 0xD7 :: run 0x41 14).length = 16 ∧ (∀ b ∈ (0x03 : Byte) :: 0xD7 :: run 0x41 14, b ≠ START ∧ b ≠ END) ∧
    xorAll (0x03 :: 0xD7 :: run 0x41 14) ≠ END := by decide
theorem test_witness_TrailerCollision_end : s3.node? 3 = some node3 ∧ 1 ≤ [(0x01 : Byte), 0xD7, 0x54].length ∧
    [(0x01 : Byte), 0xD7, 0x54].length ≤ 16 ∧ (∀ b ∈ [(0x01 : Byte), 0xD7, 0x54], b ≠ START ∧ b ≠ END) ∧
    xorAll [0x01, 0xD7, 0x54] = 0x82 := by decide
theorem test_witness_TrailerCollision_start : s3.node? 3 = some node3 ∧ 1 ≤ [(0x01 : Byte), 0xD7, 0x55].length ∧
    [(0x01 : Byte), 0xD7, 0x55].length ≤ 16 ∧ (∀ b ∈ [(0x01 : Byte), 0xD7, 0x55], b ≠ START ∧ b ≠ END) ∧
    xorAll [0x01, 0xD7, 0x55] = 0x83 := by decide

/-- A full queue: the hypotheses of EnqueueAppendsOrFails and DequeueTakesOldest, and of EmptyTestReadsCount. -/
theorem test_witness_queue_full : s3full.queueList (.nodeRx 3) = some (List.replicate 20 []) ∧
    s3full.ring (.nodeRx 3) = some (0, 0, 20) ∧ s3full.ringWf (.nodeRx 3) ∧ 20 = queueCap (.nodeRx 3) ∧
    (s3full.nodes.map Node.addr).Nodup ∧ [(0 : Byte)].length ≤ 16 := by
  refine ⟨by decide, by decide, ?_, rfl, by decide, by decide⟩
  intro x hx
  cases hx
  decide
theorem test_witness_queue_one_left : s3near.queueList (.nodeTx 3) = some (List.replicate 19 []) ∧
    s3near.ring (.nodeTx 3) = some (0, 19, 19) ∧ s3near.ringWf (.nodeTx 3) ∧ 19 < queueCap (.nodeTx 3) ∧
    (List.replicate 16 (0 : Byte)).length ≤ 16 := by
  refine ⟨by decide, by decide, ?_, by decide, by decide⟩
  intro x hx
  cases hx
  decide
theorem test_witness_queue_empty : s3.queueList .hubRx = some [] ∧ s3.ring .hubRx = some (0, 0, 0) ∧
    s3.ringWf .hubRx ∧ 0 < queueCap .hubRx := by
  refine ⟨by decide, by decide, ?_, by decide⟩
  intro x hx
  cases hx
  decide
theorem test_witness_QueuesAreFifo : s3.queueList .hubRx = some [] ∧ s3.ringWf .hubRx ∧
    ∀ m, QueueOp.enq m ∈ [QueueOp.enq (List.replicate 16 0), .deq, .deq] → m.length ≤ 16 := by
  refine ⟨by decide, ?_, ?_⟩
  · intro x hx
    cases hx
    decide
  · intro m hm
    simp at hm
    simp [hm]
theorem test_witness_EnqueueStoresOneSlot : s3near.ring (.nodeTx 3) = some (0, 19, 19) ∧
    exec (.qEnq (.nodeTx 3) [1]) s3near = .next (nextOf (exec (.qEnq (.nodeTx 3) [1]) s3near)) ∧
    ¬(Space.slotData (.nodeTx 3) 19 = .slotData (.nodeTx 3) 19 ∧ 1 < [(1 : Byte)].length ∧ 19 < queueCap (.nodeTx 3)) ∧
    s3full.ring (.nodeTx 3) = some (0, 0, 20) ∧
    exec (.qEnq (.nodeTx 3) [1]) s3full = .next (nextOf (exec (.qEnq (.nodeTx 3) [1]) s3full)) ∧
    ¬(Space.slotData (.nodeTx 3) 0 = .slotData (.nodeTx 3) 0 ∧ 0 < [(1 : Byte)].length ∧ 20 < queueCap (.nodeTx 3)) :=
  ⟨by decide, rfl, by decide, by decide, rfl, by decide⟩
theorem test_witness_ReadersStoreNothing :
    Instr.nReq 3 ∈ [Instr.qDeq .hubRx, .qEmpty .hubRx, .nReq 3, .nGet 3, .frEncode [], .hClients true, .rplNoData, .rplAck,
      .rplNull] ∧
    exec (.nReq 3) (asked 0xD2 [0x03]) = .next (nextOf (exec (.nReq 3) (asked 0xD2 [0x03]))) := ⟨by decide, rfl⟩

theorem test_witness_StoringOperationsStoreOneSlot_send : s3near.node? 3 = some { node3 with rxq := near20, txq := near20 } ∧
    exec (.nSend 3 []) s3near = .next (nextOf (exec (.nSend 3 []) s3near)) ∧
    ¬(Space.slotData (.nodeTx 3) 19 = .slotData (.nodeTx 3) 19 ∧ 1 < (nodeMsg 3 []).length ∧ near20.count.val < 20) := ⟨by decide, rfl, by decide⟩
theorem test_witness_StoringOperationsStoreOneSlot_recv : s3over.node? 3 =
    some { node3 with df := { Deframer.reset with sync := true, par := 0x82, cur := 16 } } ∧
    exec (.nRecv 3 [0x41]) s3over = .next (nextOf (exec (.nRecv 3 [0x41]) s3over)) ∧
    Space.slotData (.nodeRx 3) 0 ≠ .dfBuf 3 ∧
    ¬(Space.slotData (.nodeRx 3) 0 = .slotData (.nodeRx 3) 0 ∧ 15 < 16 - 1 ∧ node3.rxq.count.val < 20) := ⟨by decide, rfl, by decide, by decide⟩
theorem test_witness_StoringOperationsStoreOneSlot_reply :
    exec (.rplData [0x03, 0x78]) s3 = .next (nextOf (exec (.rplData [0x03, 0x78]) s3)) ∧
    ¬(Space.slotData .hubRx 0 = .slotData .hubRx 0 ∧
      2 < (([0x03, 0x78] : List Byte).take 8 |>.takeWhile (fun b => b ≠ 0xFF)).length ∧ s3.hub.rxq.count.val < 40) :=
  ⟨rfl, by decide⟩

/-- A deframer holding 3, the command `c` and a trailer, with accumulator `par`. -/
def holding (par c : Byte) : Deframer :=
  { sync := true, buf := (Deframer.reset.buf.set 0 3).set 1 c, par := par, cur := 3 }

/-- Node 3 about to complete a packet with command `c`, under policy `p`, with inbound queue `q`. -/
def ending (par c : Byte) (p : Policy) (q : Queue 20) : Node := { node3 with policy := p, rxq := q, df := holding par c }

theorem test_witness_NRecvActsOnEachByte_noPacket : s3.node? 3 = some node3 ∧ node3.rxq.Wf ∧
    (node3.df.step 0x83).1 = .noPacket := by decide
theorem test_witness_NRecvActsOnEachByte_drop :
    (sys [ending 0x82 0xD7 .drop full20]).node? 3 = some (ending 0x82 0xD7 .drop full20) ∧
    (ending 0x82 0xD7 .drop full20).rxq.Wf ∧ ((ending 0x82 0xD7 .drop full20).df.step 0x83).1 = .invalid [0x03, 0xD7] ∧
    (ending 0x82 0xD7 .drop full20).policy = .drop := by decide
theorem test_witness_NRecvActsOnEachByte_control :
    (sys [ending 0x83 0xB1 .accept full20]).node? 3 = some (ending 0x83 0xB1 .accept full20) ∧
    (ending 0x83 0xB1 .accept full20).rxq.Wf ∧
    ((ending 0x83 0xB1 .accept full20).df.step 0x83).1 = .valid [0x03, 0xB1] ∧ (0xB1 : Byte) ∈ [PING, READ, NO_DATA] := by
  decide
theorem test_witness_NRecvActsOnEachByte_queued :
    (sys [ending 0x82 0xD7 .accept near20]).node? 3 = some (ending 0x82 0xD7 .accept near20) ∧
    (ending 0x82 0xD7 .accept near20).rxq.Wf ∧ near20.count.val < 20 ∧
    ((ending 0x82 0xD7 .accept near20).df.step 0x83).1 = .invalid [0x03, 0xD7] ∧
    (ending 0x82 0xD7 .accept near20).policy = .accept ∧ (0xD7 : Byte) ∉ [PING, READ, NO_DATA] := by decide
theorem test_witness_NRecvActsOnEachByte_full :
    (sys [ending 0x83 0xD7 .accept full20]).node? 3 = some (ending 0x83 0xD7 .accept full20) ∧
    (ending 0x83 0xD7 .accept full20).rxq.Wf ∧ full20.count.val = 20 ∧
    ((ending 0x83 0xD7 .accept full20).df.step 0x83).1 = .valid [0x03, 0xD7] := by decide
theorem test_witness_IntactPacketReceived_control : s3.node? 3 = some node3 ∧ node3.rxq.Wf ∧ Intact [0x03, 0xB1] ∧
    [(0x03 : Byte), 0xB1][1]?.getD 0 = 0xB1 ∧ (0xB1 : Byte) ∈ [PING, READ, NO_DATA] := by decide
theorem test_witness_IntactPacketReceived_queued :
    s3near.node? 3 = some { node3 with rxq := near20, txq := near20 } ∧ near20.Wf ∧
    Intact (0x03 :: 0xD7 :: run 0x41 13) ∧ ((0x03 : Byte) :: 0xD7 :: run 0x41 13)[1]?.getD 0 = 0xD7 ∧
    (0xD7 : Byte) ∉ [PING, READ, NO_DATA] ∧ near20.count.val < 20 := by decide
theorem test_witness_IntactPacketReceived_one_byte : s3.node? 3 = some node3 ∧ node3.rxq.Wf ∧ Intact [0x03] ∧
    [(0x03 : Byte)][1]?.getD 0 = 0x00 ∧ (0x00 : Byte) ∉ [PING, READ, NO_DATA] ∧ node3.rxq.count.val < 20 := by decide
theorem test_witness_IntactPacketReceived_full :
    s3full.node? 3 = some { node3 with rxq := full20, txq := full20 } ∧ full20.Wf ∧
    Intact (0x03 :: 0xD7 :: run 0x41 13) ∧ ((0x03 : Byte) :: 0xD7 :: run 0x41 13)[1]?.getD 0 = 0xD7 ∧
    full20.count.val = 20 := by decide

theorem test_witness_NReqRepliesByPendingCommand_none : s3.node? 3 = some node3 ∧ node3.txq.Wf ∧ node3.pcValid = false := by
  decide
theorem test_witness_NReqRepliesByPendingCommand_other :
    (asked 0xD7 [3]).node? 3 = some { node3 with pcValid := true, pcCmd := 0xD7, txq := oneMsg [3] } ∧ (oneMsg [3]).Wf ∧
    (0xD7 : Byte) ≠ 0xD2 := by decide
theorem test_witness_NReqRepliesByPendingCommand_read :
    (asked 0xD2 [3]).node? 3 = some { node3 with pcValid := true, pcCmd := 0xD2, txq := oneMsg [3] } ∧ (oneMsg [3]).Wf ∧
    (oneMsg [3]).list = [[3]] := by decide
theorem test_witness_NReqRepliesByPendingCommand_nothing :
    (sys [{ node3 with pcValid := true, pcCmd := 0xD2 }]).node? 3 = some { node3 with pcValid := true, pcCmd := 0xD2 } ∧
    node3.txq.Wf ∧ node3.txq.list = [] := by decide
theorem test_witness_NSendQueuesPrefixedMessage_full :
    s3full.node? 3 = some { node3 with rxq := full20, txq := full20 } ∧ full20.Wf ∧ full20.count.val = 20 := by decide
theorem test_witness_NSendQueuesPrefixedMessage_room :
    s3near.node? 3 = some { node3 with rxq := near20, txq := near20 } ∧ near20.Wf ∧ near20.count.val < 20 := by decide
theorem test_witness_NGetStripsAddress_empty : s3.node? 3 = some node3 ∧ node3.rxq.Wf ∧ node3.rxq.list = [] := by decide
theorem test_witness_NGetStripsAddress_message :
    (sys [{ node3 with rxq := oneMsg [3] }]).node? 3 = some { node3 with rxq := oneMsg [3] } ∧ (oneMsg [3]).Wf ∧
    (oneMsg [3]).list = [[3]] := by decide
theorem test_witness_OneCommandPerTurn :
    exec (.nReq 3) (asked 0xD2 [0x03]) = .next (nextOf (exec (.nReq 3) (asked 0xD2 [0x03]))) := rfl
theorem test_witness_LaterCommandOverwrites : s3.node? 3 = some node3 ∧ Intact [0x03, 0xD2] ∧
    Intact [0x03, 0xD7, 0x42] ∧ [(0x03 : Byte), 0xD2][1]? = some READ ∧ [(0x03 : Byte), 0xD7, 0x42][1]? = some 0xD7 ∧
    (0xD7 : Byte) ≠ READ := by decide
theorem test_witness_EveryReplyIsARow :
    (asked 0xD2 (0x03 :: run 0x41 15)).node? 3 =
      some { node3 with pcValid := true, pcCmd := 0xD2, txq := oneMsg (0x03 :: run 0x41 15) } ∧
    1 ≤ (3 : Addr).toNat ∧ (3 : Addr).toNat ≤ 125 ∧
    ∀ m ∈ (oneMsg (0x03 :: run 0x41 15)).list, m.head? = some (addrByte 3) ∧ m.length ≤ 16 := by decide

theorem test_witness_ControlBytesReachNode : (Instr.byteStart, 0x82) ∈ byteRows ∧ s3.node? 4 = none ∧
    s3.node? 3 = some node3 := ⟨List.Mem.head _, by decide, by decide⟩
theorem test_witness_ControlBytesReachHub : (Instr.byteStart, 0x82) ∈ byteRows ∧ full40.Wf ∧ full40.count.val = 40 ∧
    near40.Wf ∧ near40.count.val < 40 ∧ (0x82 : Byte) ∉ [NULL, ACK, NO_DATA, POLL_TERM] ∧
    (0xFF : Byte) ∈ [NULL, ACK, NO_DATA, POLL_TERM] :=
  ⟨List.Mem.head _, by decide, by decide, by decide, by decide, by decide, by decide⟩
theorem test_witness_PacketsReachNode : s3.node? 4 = none ∧ s3.node? 3 = some node3 ∧ (0x80 : Byte).msb = true := by decide
theorem test_witness_RepliesReachHub : full40.Wf ∧ full40.count.val = 40 ∧ near40.Wf ∧ near40.count.val < 40 ∧
    (Instr.rplData (List.replicate 16 0x03)).wellFormed = true := by decide
theorem test_witness_NodeAnswersTransactionShapes :
    (asked 0 [3]).node? 3 = some { node3 with pcValid := true, pcCmd := 0, txq := oneMsg [3] } ∧ node3.wire = [] ∧
    node3.rxq.Wf ∧ (oneMsg [3]).Wf ∧ (oneMsg [3]).list = [[3]] ∧ (3 : Addr) ≠ 50 ∧ (3 : Addr) ≠ 51 ∧ (3 : Addr) ≠ 80 ∧
    (3 : Addr) ≠ 81 ∧ Intact ([addrByte 3, WRITE] ++ run 0x41 13) := by decide
theorem test_witness_NodeAnswersTransactionShapes_full : s3full.node? 3 =
    some { node3 with rxq := full20, txq := full20 } ∧ full20.Wf ∧ full20.count.val = 20 ∧
    Intact ([addrByte 3, WRITE] ++ []) := by decide

/-- The hub with the roster `[3]` and a queue `q`, the transport with one plan that fails. -/
def busy (q : Queue 40) : State :=
  { polled [node3] with
    hub := { hub3 with rxq := q }
    plans := [{ Plan.reference with before := [.chunk 3 1], between := [.send 3 [0x78]], fate := .replyLost }] }

/-- The hypotheses of HIdentBuildsRosterFromAcks, HScanQueuesPolledMessages and HGetPollsWhenDueThenDequeues. -/
theorem test_witness_unstuck : (busy near40).unstuck ∧ (busy near40).hub.rxq.Wf ∧ (busy full40).unstuck ∧
    (busy full40).hub.rxq.Wf := by decide
theorem test_witness_HGetPollsWhenDueThenDequeues_waits :
    { busy near40 with hub := { hub3 with lastScanValid := true }, now := 99 }.unstuck ∧
    ((99 : Millis) - 0).toNat < 100 := by decide
theorem test_witness_HGetPollsWhenDueThenDequeues_polls :
    { busy near40 with hub := { hub3 with lastScanValid := true }, now := 100 }.unstuck ∧
    100 ≤ ((100 : Millis) - 0).toNat := by decide
theorem test_witness_DiscoveryFindsPresentNodes : { s3 with maxClients := 50 }.plans = [] ∧
    { s3 with maxClients := 50 }.maxClients.val ≤ 50 := by decide

/-- H.GET has polled at clock value 0; the clock then shows `t`. -/
def later (t : Millis) : State := { nextOf (exec .hGet (polled [node3])) with now := t }

theorem test_witness_RateLimit_soon : (polled [node3]).hub.scanDue (polled [node3]).now = true ∧
    exec .hGet (polled [node3]) = .next (nextOf (exec .hGet (polled [node3]))) ∧
    (later 99).hub.lastScan = (nextOf (exec .hGet (polled [node3]))).hub.lastScan ∧
    (later 99).hub.lastScanValid = (nextOf (exec .hGet (polled [node3]))).hub.lastScanValid ∧
    ((later 99).now - (polled [node3]).now).toNat < 100 := ⟨by decide, rfl, rfl, rfl, by decide⟩
theorem test_witness_RateLimit_due : (polled [node3]).hub.scanDue (polled [node3]).now = true ∧
    exec .hGet (polled [node3]) = .next (nextOf (exec .hGet (polled [node3]))) ∧
    (later 100).hub.lastScan = (nextOf (exec .hGet (polled [node3]))).hub.lastScan ∧
    (later 100).hub.lastScanValid = (nextOf (exec .hGet (polled [node3]))).hub.lastScanValid ∧
    100 ≤ ((later 100).now - (polled [node3]).now).toNat ∧ (later 100).unstuck :=
  ⟨by decide, rfl, rfl, rfl, by decide, by decide⟩

theorem test_witness_HSendWritesThenProbes : (busy near40).unstuck ∧ s3.plans = [] ∧ s3.node? 9 = none := by decide
theorem test_witness_HSendReachesNodeQueue_room : s3near.plans = [] ∧
    s3near.node? 3 = some { node3 with rxq := near20, txq := near20 } ∧ node3.wire = [] ∧ near20.Wf ∧
    near20.count.val < 20 ∧ Intact ([addrByte 3, WRITE] ++ run 0x41 13) := by decide
theorem test_witness_HSendReachesNodeQueue_full : s3full.plans = [] ∧
    s3full.node? 3 = some { node3 with rxq := full20, txq := full20 } ∧ node3.wire = [] ∧ full20.Wf ∧
    full20.count.val = 20 ∧ Intact ([addrByte 3, WRITE] ++ []) := by decide
theorem test_witness_NodeMessageReachesHub : (polled [node3]).plans = [] ∧ (polled [node3]).node? 3 = some node3 ∧
    node3.wire = [] ∧ node3.txq.Wf ∧ node3.txq.list = [] ∧ (polled [node3]).hub.rxq.Wf ∧
    (polled [node3]).hub.rxq.list = [] ∧ (polled [node3]).hub.live = [addrByte 3] ∧
    (polled [node3]).hub.scanDue (polled [node3]).now = true ∧ (3 : Addr) ≠ 0 ∧ (3 : Addr) ≠ 80 ∧ (3 : Addr) ≠ 81 ∧
    (run 0x41 7).length ≤ 7 ∧ POLL_TERM ∉ run 0x41 7 := by decide
theorem test_witness_LostWriteGoesUnnoticed :
    { s3 with plans := [{ Plan.reference with lost := true }] }.node? 3 = some node3 ∧ node3.wire = [] ∧
    node3.pcValid = false ∧
    { s3 with plans := [{ Plan.reference with lost := true }] }.plans = [{ Plan.reference with lost := true }] := by decide
/-- The roster `[3]`, addresses 1 and 2, and a transport whose last transaction in reach of the operation never ends. -/
def stuckAt (ps : List Plan) : State :=
  { polled [node3] with maxClients := 3, plans := ps ++ [{ Plan.reference with fate := .stuck }] }

theorem test_witness_StuckTransactionStops : (∃ p ∈ (stuckAt []).plans.take 1, p.fate = .stuck) ∧
    (∃ p ∈ (stuckAt [Plan.reference]).plans.take ((stuckAt [Plan.reference]).maxClients.val - 1), p.fate = .stuck) ∧
    (∃ p ∈ (stuckAt []).plans.take (stuckAt []).hub.rosterCnt.val, p.fate = .stuck) ∧
    (stuckAt []).hub.scanDue (stuckAt []).now = true := by decide
theorem test_witness_ResetEventsRestoreBlocks_hub : { s3 with inputs := [.resetHub] }.legal = true ∧
    { s3 with inputs := [.resetHub] }.inputs = [.resetHub] := by decide
theorem test_witness_ResetEventsRestoreBlocks_node : { s3full with inputs := [.event (.resetNode 3)] }.legal = true ∧
    { s3full with inputs := [.event (.resetNode 3)] }.inputs = [.event (.resetNode 3)] ∧
    s3full.node? 3 = some { node3 with rxq := full20, txq := full20 } := by decide
theorem test_witness_EveryStepKeepsInvariant : (requested (.callback 3) .port [0x07, 0x02]).Inv ∧
    step (requested (.callback 3) .port [0x07, 0x02]) =
      .next (nextOf (step (requested (.callback 3) .port [0x07, 0x02]))) := ⟨by decide, rfl⟩
theorem test_witness_InstructionsKeepConfiguration :
    exec .hIdent (busy near40) = .next (nextOf (exec .hIdent (busy near40))) := rfl

/-- Both allocation-failure flags are set. -/
def failed : State :=
  { busy full40 with hub := { hub3 with allocFail := true }, nodes := [{ node3 with allocFail := true }] }

theorem test_witness_AllocationFlagsAreSticky : exec .hScan failed = .next (nextOf (exec .hScan failed)) ∧
    failed.hub.allocFail = true ∧ failed.noPlannedReset ∧ failed.node? 3 = some { node3 with allocFail := true } := by
  refine ⟨rfl, rfl, ?_, by decide⟩
  intro p hp a
  simp [failed, busy] at hp
  simp [hp]
theorem test_witness_NodeOperationsArePrivate : Invoker.callback 3 ∈ invokers (.nRecv 3 [0x82]) ∧
    Invoker.application 3 ∈ invokers (.nSend 3 []) ∧ Invoker.opRecv 3 ∈ invokers (.dfStep 3 0x82) ∧
    Invoker.opNodeGet 3 ∈ invokers (.qDeq (.nodeRx 3)) ∧
    exec (.nRecv 3 [0x82]) s3 = .next (nextOf (exec (.nRecv 3 [0x82]) s3)) ∧
    exec (.dfDecode 3 [0x82]) s3 = .next (nextOf (exec (.dfDecode 3 [0x82]) s3)) :=
  ⟨by decide, by decide, by decide, by decide, rfl, rfl⟩
theorem test_witness_OnlyHubOperationsWriteHubRegisters :
    exec .hScan (busy near40) = .next (nextOf (exec .hScan (busy near40))) ∧ Instr.hScan ≠ .hIdent ∧
    Instr.hScan ≠ .hGet := ⟨rfl, by decide, by decide⟩

end Sys2Proof.Tests
end

section
/-! PROOFS for 10_state.md (O48, O52, O53, O55): configuration is read-only, the allocation-failure flags are sticky, and
each hub register has one writer. All three are one induction: `KeptBy` lists the few updates an instruction is made of,
`exec_keeps` says that what every such update keeps, every instruction keeps. -/

namespace Sys2Proof.Machine

open Sys2Proof.Config

/-! ### Frames: what the updates of a node and of the hub leave alone -/

/-- What every operation of a node leaves alone: its configuration (R29), and its flag if set (R22, D12). -/
structure Node.OpFrame (n m : Node) : Prop where
  addr : m.addr = n.addr
  policy : m.policy = n.policy
  allocFail : n.allocFail = true → m.allocFail = true

theorem Node.OpFrame.trans {a b c : Node} (h : a.OpFrame b) (g : b.OpFrame c) : a.OpFrame c :=
  ⟨g.addr.trans h.addr, g.policy.trans h.policy, g.allocFail ∘ h.allocFail⟩

theorem accept_allocFail {n : Node} (h : n.allocFail = true) (p : List Byte) : (n.accept p).allocFail = true := by
  obtain ⟨_, e⟩ | ⟨_, q, _, e⟩ | ⟨_, _, e⟩ := accept_cases n p
  · rw [e]; exact h
  · rw [e]; exact h
  · rw [e]

theorem onEvent_allocFail {n : Node} (h : n.allocFail = true) (e : DfEvent) : (n.onEvent e).allocFail = true := by
  obtain he | ⟨p, _, he⟩ := onEvent_cases n e
  · rw [he]; exact h
  · rw [he]; exact accept_allocFail h p

theorem recv_allocFail {n : Node} (h : n.allocFail = true) (bs : List Byte) : (n.recv bs).allocFail = true := by
  induction bs generalizing n with
  | nil => exact h
  | cons b bs ih => exact ih (onEvent_allocFail (n := { n with df := (n.df.step b).2 }) h _)

theorem recv_opFrame (n : Node) (bs : List Byte) : n.OpFrame (n.recv bs) :=
  ⟨recv_addr n bs, recv_policy n bs, fun h => recv_allocFail h bs⟩

theorem req_opFrame (n : Node) : n.OpFrame n.req.2 := by
  refine ⟨req_addr n, req_policy n, fun h => ?_⟩
  obtain ⟨_, e⟩ | ⟨_, _, e⟩ | ⟨_, _, _, e⟩ | ⟨_, _, m, q, _, e⟩ := req_cases n <;> rw [e] <;> exact h

theorem send_opFrame (n : Node) (d : List Byte) : n.OpFrame (n.send d).2 := ⟨rfl, rfl, id⟩

theorem get_opFrame (n : Node) : n.OpFrame n.get.2 := by
  refine ⟨get_addr n, get_policy n, fun h => ?_⟩
  obtain ⟨_, e⟩ | ⟨m, q, _, e⟩ := get_cases n <;> rw [e] <;> exact h

theorem accrue_opFrame (n : Node) (bs : List Byte) : n.OpFrame (n.accrue bs) := ⟨rfl, rfl, id⟩

theorem handOver_opFrame (n : Node) (k : Nat) : n.OpFrame (n.handOver k) :=
  have h := recv_opFrame { n with wire := n.wire.drop k } (n.wire.take k)
  ⟨h.addr, h.policy, h.allocFail⟩

theorem deliver_opFrame (n : Node) (bs : List Byte) : n.OpFrame (n.accrue bs).flush :=
  (accrue_opFrame n bs).trans (handOver_opFrame _ _)

theorem answer_opFrame (n : Node) : n.OpFrame n.answer.2 := (handOver_opFrame n _).trans (req_opFrame _)

/-- What every use of the hub's queue leaves alone: roster (R24), rate limiter (R25), and the flag if set (R26, D12). -/
structure Hub.QueueFrame (h g : Hub) : Prop where
  roster : g.roster = h.roster
  rosterCnt : g.rosterCnt = h.rosterCnt
  lastScan : g.lastScan = h.lastScan
  lastScanValid : g.lastScanValid = h.lastScanValid
  allocFail : h.allocFail = true → g.allocFail = true

theorem rxq_queueFrame (h : Hub) (q : Queue 40) : h.QueueFrame { h with rxq := q } := ⟨rfl, rfl, rfl, rfl, id⟩

theorem onPollReply_queueFrame (h : Hub) (r : List Byte) : h.QueueFrame (h.onPollReply r) := by
  rw [onPollReply_eq]
  split
  · exact ⟨rfl, rfl, rfl, rfl, id⟩
  · next m _ =>
    obtain ⟨_, e⟩ | ⟨q, _, e⟩ := hub_accept_cases h m
    · rw [e]; exact ⟨rfl, rfl, rfl, rfl, fun _ => rfl⟩
    · rw [e]; exact rxq_queueFrame h q

/-- What H.IDENT leaves alone of the hub: rate limiter and flag (R110). -/
structure Hub.SweepFrame (h g : Hub) : Prop where
  lastScan : g.lastScan = h.lastScan
  lastScanValid : g.lastScanValid = h.lastScanValid
  allocFail : g.allocFail = h.allocFail

theorem clearRoster_sweepFrame (h : Hub) : h.SweepFrame h.clearRoster := ⟨rfl, rfl, rfl⟩

theorem enrol_sweepFrame (h : Hub) (a : Addr) : h.SweepFrame (h.enrol a) := by
  unfold Hub.enrol
  split <;> exact ⟨rfl, rfl, rfl⟩

/-! ### One induction for every instruction -/

/-- `P` is kept by each update that the instruction `i` can be made of. -/
structure KeptBy (i : Instr) (P : State → Prop) : Prop where
  /-- `P` is about configuration, hub, nodes and plans alone. -/
  congr : ∀ {s t : State}, P s → t.maxClients = s.maxClients → t.hub = s.hub → t.nodes = s.nodes → t.plans = s.plans → P t
  nodeOp : ∀ {s : State} (k : Addr) {f : Node → Node}, (∀ n : Node, n.OpFrame (f n)) → P s → P (s.mapNode k f)
  hubQueue : ∀ {s : State} {f : Hub → Hub}, (∀ h : Hub, h.QueueFrame (f h)) → P s → P (s.mapHub f)
  exchange : ∀ {s t : State} {a : Addr} {bs : List Byte} {k : Nat} {done : Bool} {r : List Byte},
    s.exchange a bs k = some (done, r, t) → P s → P t
  /-- Only H.IDENT sweeps. -/
  sweep : i = .hIdent → ∀ {s : State} {f : Hub → Hub}, (∀ h : Hub, h.SweepFrame (f h)) → P s → P (s.mapHub f)
  /-- Only H.GET takes a clock sample. -/
  stamp : i = .hGet → ∀ {s : State} (now : Millis), P s → P (s.mapHub (fun h => h.stamp now))

section
variable {i : Instr} {P : State → Prop} (hP : KeptBy i P) {s t : State}
include hP

theorem KeptBy.start (hs : P s) : P s.start := hP.congr hs rfl rfl rfl rfl

theorem KeptBy.ret (r : Result) (hs : P s) : P (s.ret r) := hP.congr hs rfl rfl rfl rfl

theorem KeptBy.atNode {k : Addr} {op : Node → Result × Node} (h : s.atNode k op = .next t)
    (hop : ∀ n : Node, n.OpFrame (op n).2) (hs : P s) : P t := by
  obtain ⟨n, _, rfl⟩ := atNode_next h
  exact hP.ret _ (hP.nodeOp k hop (hP.start hs))

theorem KeptBy.arrive {l : Lane} {bs : List Byte} (h : s.arrive l bs = .next t) (hs : P s) : P t := by
  cases l with
  | toHub => cases h; exact hP.hubQueue (fun g => onPollReply_queueFrame g _) (hP.start hs)
  | toNode a => cases h; exact hP.nodeOp a (fun n => deliver_opFrame n bs) (hP.start hs)

theorem KeptBy.packetOnBus {m : List Byte} {b : Byte} (h : s.packetOnBus m b = .next t) (hs : P s) : P t := by
  rw [packetOnBus_eq] at h
  split at h
  · cases h; exact hP.start hs
  · exact hP.arrive h hs

theorem KeptBy.identLoop (hi : i = .hIdent) {as : List Addr} (h : State.identLoop as s = some t) (hs : P s) : P t := by
  induction as generalizing s with
  | nil => cases h; exact hs
  | cons a as ih =>
    obtain ⟨done, r, s', hx, hrest⟩ := identLoop_cons h
    refine ih hrest ?_
    split
    · exact hP.sweep hi (fun g => enrol_sweepFrame g a) (hP.exchange hx hs)
    · exact hP.exchange hx hs

theorem KeptBy.scanLoop {as : List Byte} (h : State.scanLoop as s = some t) (hs : P s) : P t := by
  induction as generalizing s with
  | nil => cases h; exact hs
  | cons a as ih =>
    obtain ⟨done, r, s', hx, hrest⟩ := scanLoop_cons h
    refine ih hrest ?_
    split
    · exact hP.hubQueue (fun g => onPollReply_queueFrame g r) (hP.exchange hx hs)
    · exact hP.exchange hx hs

theorem KeptBy.hubTake (hs : P s) : P s.hubTake := by
  have hq (q : Queue 40) : P (s.mapHub (fun h => { h with rxq := q })) := hP.hubQueue (fun g => rxq_queueFrame g q) hs
  obtain ⟨_, e⟩ | ⟨q, _, e⟩ | ⟨b, m, q, _, e⟩ := hubTake_cases s
  · rw [e]; exact hP.ret _ hs
  · rw [e]; exact hP.congr (hq q) rfl rfl rfl rfl
  · rw [e]; exact hP.congr (hq q) rfl rfl rfl rfl

end

/-- A hub operation that answers a next state ended in it. -/
theorem hubOutcome_next {o : Option State} {t : State} (h : hubOutcome o = .next t) : o = some t := by
  cases o with
  | none => cases h
  | some s => cases h; rfl

theorem KeptBy.execHIdent {P : State → Prop} (hP : KeptBy .hIdent P) {s t : State} (h : execHIdent s = .next t)
    (hs : P s) : P t := by
  obtain ⟨u, hu, rfl⟩ := Option.map_eq_some_iff.mp (hubOutcome_next h)
  exact hP.ret _ (hP.identLoop rfl hu (hP.sweep rfl clearRoster_sweepFrame (hP.start hs)))

theorem KeptBy.execHGet {P : State → Prop} (hP : KeptBy .hGet P) {s t : State} (h : execHGet s = .next t)
    (hs : P s) : P t := by
  unfold Machine.execHGet at h
  split at h
  · obtain ⟨u, hu, rfl⟩ := Option.map_eq_some_iff.mp (hubOutcome_next h)
    exact hP.hubTake (hP.scanLoop hu (hP.stamp rfl s.now (hP.start hs)))
  · cases h; exact hP.hubTake (hP.start hs)

theorem KeptBy.execHSend {i : Instr} {P : State → Prop} (hP : KeptBy i P) {a : Addr} {d : List Byte} {s t : State}
    (h : execHSend a d s = .next t) (hs : P s) : P t := by
  obtain ⟨⟨done, r, u⟩, hu, rfl⟩ := Option.map_eq_some_iff.mp (hubOutcome_next h)
  exact hP.ret _ (hP.exchange hu (hP.start hs))

theorem KeptBy.execFrEncode {i : Instr} {P : State → Prop} (hP : KeptBy i P) {m : List Byte} {s t : State}
    (h : execFrEncode m s = .next t) (hs : P s) : P t := by
  cases m <;> cases h <;> exact hP.ret _ (hP.start hs)

theorem KeptBy.execQEnq {i : Instr} {P : State → Prop} (hP : KeptBy i P) {q : QueueId} {m : List Byte} {s t : State}
    (h : execQEnq q m s = .next t) (hs : P s) : P t := by
  cases q with
  | hubRx => cases h; exact hP.ret _ (hP.hubQueue (fun g => rxq_queueFrame g _) (hP.start hs))
  | nodeRx k => exact hP.atNode h (fun n => ⟨rfl, rfl, id⟩) hs
  | nodeTx k => exact hP.atNode h (fun n => ⟨rfl, rfl, id⟩) hs

theorem KeptBy.execQDeq {i : Instr} {P : State → Prop} (hP : KeptBy i P) {q : QueueId} {s t : State}
    (h : execQDeq q s = .next t) (hs : P s) : P t := by
  cases q with
  | hubRx => cases h; exact hP.ret _ (hP.hubQueue (fun g => rxq_queueFrame g _) (hP.start hs))
  | nodeRx k => exact hP.atNode h (fun n => ⟨rfl, rfl, id⟩) hs
  | nodeTx k => exact hP.atNode h (fun n => ⟨rfl, rfl, id⟩) hs

theorem KeptBy.execQEmpty {i : Instr} {P : State → Prop} (hP : KeptBy i P) {q : QueueId} {s t : State}
    (h : execQEmpty q s = .next t) (hs : P s) : P t := by
  cases q with
  | hubRx => cases h; exact hP.ret _ (hP.start hs)
  | nodeRx k => exact hP.atNode h (fun n => ⟨rfl, rfl, id⟩) hs
  | nodeTx k => exact hP.atNode h (fun n => ⟨rfl, rfl, id⟩) hs

/-- What every update of an instruction keeps, the instruction keeps. -/
theorem exec_keeps {i : Instr} {P : State → Prop} (hP : KeptBy i P) {s t : State} (h : exec i s = .next t)
    (hs : P s) : P t := by
  cases i with
  | byteStart l | byteEnd l | byteAck l | byteNak l | byteWrite l | byteRead l | byteNoData l | bytePing l | byteEsc l
  | byteNull l | bytePollTerm l => exact hP.arrive h hs
  | pktPing a b | pktRead a b | pktWrite a d b | pkt m b => exact hP.packetOnBus h hs
  | rplNoData | rplAck | rplNull | rplData r => exact hP.arrive (l := .toHub) h hs
  | frEncode m => exact hP.execFrEncode h hs
  | dfStep k b | dfDecode k bs => exact hP.atNode h (fun n => ⟨rfl, rfl, id⟩) hs
  | qEnq q m => exact hP.execQEnq h hs
  | qDeq q => exact hP.execQDeq h hs
  | qEmpty q => exact hP.execQEmpty h hs
  | nRecv k bs => exact hP.atNode h (fun n => recv_opFrame n bs) hs
  | nReq k => exact hP.atNode h req_opFrame hs
  | nSend k d => exact hP.atNode h (fun n => send_opFrame n d) hs
  | nGet k => exact hP.atNode h get_opFrame hs
  | hIdent => exact hP.execHIdent h hs
  | hScan => exact hP.scanLoop (hubOutcome_next h) (hP.start hs)
  | hGet => exact hP.execHGet h hs
  | hSend a d => exact hP.execHSend h hs
  | hClients copy => cases h; exact hP.ret _ (hP.start hs)

/-! ### What the updates keep -/

/-- Configuration is kept by every update, a planned reset of a node included (R29, R141). -/
theorem keptBy_config (i : Instr) (N : Fin 127) (c : List (Addr × Policy)) :
    KeptBy i (fun s => s.maxClients = N ∧ s.nodes.map (fun n => (n.addr, n.policy)) = c) where
  congr hs hN _ hn _ := by rw [hN, hn]; exact hs
  nodeOp k f hf hs := ⟨hs.1, (mapNode_config _ k f fun n => ⟨(hf n).addr, (hf n).policy⟩).trans hs.2⟩
  hubQueue _ hs := hs
  exchange hx hs :=
    have hb := (exchange_frame hx).1
    ⟨hb.maxClients.trans hs.1, hb.config.trans hs.2⟩
  sweep _ _ _ _ hs := hs
  stamp _ _ _ hs := hs

/-- For a property of the hub's registers only the updates of the hub matter. -/
theorem keptBy_hub {i : Instr} {Q : Hub → Prop} (hqueue : ∀ {h g : Hub}, h.QueueFrame g → Q h → Q g)
    (hsweep : i = .hIdent → ∀ {h g : Hub}, h.SweepFrame g → Q h → Q g)
    (hstamp : i = .hGet → ∀ (h : Hub) (now : Millis), Q h → Q (h.stamp now)) : KeptBy i (fun s => Q s.hub) where
  congr hs _ hh _ _ := by rw [hh]; exact hs
  nodeOp _ _ _ hs := hs
  hubQueue hf hs := hqueue (hf _) hs
  exchange hx hs := by rw [(exchange_frame hx).1.hub]; exact hs
  sweep hi _ _ hf hs := hsweep hi (hf _) hs
  stamp hi _ now hs := hstamp hi _ now hs

theorem keptBy_hub_allocFail (i : Instr) : KeptBy i (fun s => s.hub.allocFail = true) :=
  keptBy_hub (Q := fun h => h.allocFail = true) (fun hq => hq.allocFail) (fun _ _ _ hw => hw.allocFail.trans)
    (fun _ _ _ => id)

theorem keptBy_roster {i : Instr} (hi : i ≠ .hIdent) (v : Vector Byte 125) (c : Fin 126) :
    KeptBy i (fun s => s.hub.roster = v ∧ s.hub.rosterCnt = c) :=
  keptBy_hub (Q := fun h => h.roster = v ∧ h.rosterCnt = c)
    (fun hq hs => ⟨hq.roster.trans hs.1, hq.rosterCnt.trans hs.2⟩) (fun h => absurd h hi) (fun _ _ _ => id)

theorem keptBy_rateLimiter {i : Instr} (hi : i ≠ .hGet) (m : Millis) (v : Bool) :
    KeptBy i (fun s => s.hub.lastScan = m ∧ s.hub.lastScanValid = v) :=
  keptBy_hub (Q := fun h => h.lastScan = m ∧ h.lastScanValid = v)
    (fun hq hs => ⟨hq.lastScan.trans hs.1, hq.lastScanValid.trans hs.2⟩)
    (fun _ _ _ hw hs => ⟨hw.lastScan.trans hs.1, hw.lastScanValid.trans hs.2⟩) (fun h => absurd h hi)

/-! ### The flag of a node along an exchange without resets -/

/-- The node at `k` is there and its `n_alloc_fail` is set. -/
def State.Flagged (s : State) (k : Addr) : Prop := ∃ n, s.node? k = some n ∧ n.allocFail = true

theorem mapNode_flagged {s : State} {k : Addr} (hs : s.Flagged k) (a : Addr) {f : Node → Node}
    (hf : ∀ n : Node, n.OpFrame (f n)) : (s.mapNode a f).Flagged k := by
  obtain ⟨n, hn, hfail⟩ := hs
  have haddr (m : Node) (hm : m.addr = a) : (f m).addr = a := (hf m).addr.trans hm
  by_cases hk : k = a
  · subst hk
    exact ⟨f n, by rw [node?_mapNode_self s k f haddr, hn]; rfl, (hf n).allocFail hfail⟩
  · exact ⟨n, (node?_mapNode_other s a k f haddr hk).trans hn, hfail⟩

theorem appAt_flagged {s : State} {k : Addr} (hs : s.Flagged k) (a : Addr) {op : Node → Result × Node}
    (hop : ∀ n : Node, n.OpFrame (op n).2) : (s.appAt a op).Flagged k := by
  unfold State.appAt
  split
  · exact hs
  · exact mapNode_flagged hs a hop

theorem runEvent_flagged {s : State} {k : Addr} (hs : s.Flagged k) {e : Event} (he : ∀ a, e ≠ .resetNode a) :
    (s.runEvent e).Flagged k := by
  cases e with
  | chunk a m => exact mapNode_flagged hs a (fun n => handOver_opFrame n m)
  | send a d => exact appAt_flagged hs a (fun n => send_opFrame n d)
  | get a => exact appAt_flagged hs a get_opFrame
  | clock t => exact hs
  | resetNode a => exact absurd rfl (he a)

theorem runEvents_flagged {s : State} {k : Addr} (hs : s.Flagged k) {es : List Event}
    (hes : ∀ a, Event.resetNode a ∉ es) : (s.runEvents es).Flagged k := by
  induction es generalizing s with
  | nil => exact hs
  | cons e es ih =>
    have he (a : Addr) : e ≠ .resetNode a := fun h => hes a (h ▸ List.mem_cons_self)
    exact ih (runEvent_flagged hs he) (fun a h => hes a (List.mem_cons_of_mem e h))

theorem busWrite_flagged {s : State} {k : Addr} (hs : s.Flagged k) (p : Plan) (a : Addr) (bs : List Byte) :
    (s.busWrite p a bs).Flagged k := by
  unfold State.busWrite
  split
  · exact hs
  · exact mapNode_flagged hs a (fun n => accrue_opFrame n _)

theorem busRead_flagged {s t : State} {k : Addr} (hs : s.Flagged k) {p : Plan} {a : Addr} {m : Nat} {done : Bool}
    {r : List Byte} (h : s.busRead p a m = some (done, r, t)) : t.Flagged k := by
  have hanswer : (s.mapNode a (fun n => n.answer.2)).Flagged k := mapNode_flagged hs a answer_opFrame
  unfold State.busRead at h
  split at h
  · cases h
  · cases h; exact hs
  · cases h; exact hanswer
  · split at h
    · cases h; exact hs
    · cases h; exact hanswer

/-- The plan of the next exchange resets no node if none does. -/
theorem plan_noReset {s : State} (h : s.noPlannedReset) (a : Addr) :
    Event.resetNode a ∉ s.plan.before ∧ Event.resetNode a ∉ s.plan.between := by
  unfold State.plan
  cases hp : s.plans with
  | nil => exact ⟨List.not_mem_nil, List.not_mem_nil⟩
  | cons p ps => exact h p (by simp [hp]) a

theorem exchange_flagged {s t : State} {k : Addr} (hs : s.Flagged k) (hp : s.noPlannedReset) {a : Addr} {bs : List Byte}
    {m : Nat} {done : Bool} {r : List Byte} (h : s.exchange a bs m = some (done, r, t)) : t.Flagged k := by
  have h0 : (s.setPlans s.plans.tail).Flagged k := hs
  have hbefore := runEvents_flagged h0 (fun a => (plan_noReset hp a).1)
  have hwrite := busWrite_flagged hbefore s.plan a bs
  exact busRead_flagged (runEvents_flagged hwrite (fun a => (plan_noReset hp a).2)) h

theorem exchange_noPlannedReset {s t : State} (hp : s.noPlannedReset) {a : Addr} {bs : List Byte} {m : Nat} {done : Bool}
    {r : List Byte} (h : s.exchange a bs m = some (done, r, t)) : t.noPlannedReset := by
  intro p hmem
  rw [(exchange_frame h).2.1] at hmem
  exact hp p (List.mem_of_mem_tail hmem)

/-- A node's flag is kept by every update while the plans to come reset no node. -/
theorem keptBy_flagged (i : Instr) (k : Addr) : KeptBy i (fun s => s.noPlannedReset ∧ s.Flagged k) where
  congr hs _ _ hn hp := by
    simp only [State.noPlannedReset, State.Flagged, hp, node?_congr hn]
    exact hs
  nodeOp a _ hf hs := ⟨hs.1, mapNode_flagged hs.2 a hf⟩
  hubQueue _ hs := hs
  exchange hx hs := ⟨exchange_noPlannedReset hs.1 hx, exchange_flagged hs.2 hs.1 hx⟩
  sweep _ _ _ _ hs := hs
  stamp _ _ _ hs := hs

/-! ### The statements -/

/-- Settles O52: configuration is kept by every update. -/
theorem instructionsKeepConfiguration : Obligations.InstructionsKeepConfiguration := by
  unfold Obligations.InstructionsKeepConfiguration
  intro i s t h
  exact exec_keeps (keptBy_config i _ _) h ⟨rfl, rfl⟩

/-- Settles O53: the hub's flag is kept by every update, a node's by every update but a reset event. -/
theorem allocationFlagsAreSticky : Obligations.AllocationFlagsAreSticky := by
  unfold Obligations.AllocationFlagsAreSticky
  intro i s t h
  refine ⟨exec_keeps (keptBy_hub_allocFail i) h, fun hp k n hn hfail => ?_⟩
  exact (exec_keeps (keptBy_flagged i k) h ⟨hp, n, hn, hfail⟩).2

/-- Settles O55: of the updates only H.IDENT's sweep writes the roster and only H.GET's stamp the rate limiter. -/
theorem onlyHubOperationsWriteHubRegisters : Obligations.OnlyHubOperationsWriteHubRegisters := by
  unfold Obligations.OnlyHubOperationsWriteHubRegisters
  intro i s t h
  exact ⟨fun hi => exec_keeps (keptBy_roster hi _ _) h ⟨rfl, rfl⟩,
    fun hi => exec_keeps (keptBy_rateLimiter hi _ _) h ⟨rfl, rfl⟩⟩

/-- Settles O48: every node at reset is `Node.reset` at some address, under the policy Accept. -/
theorem resetStateValues : Obligations.ResetStateValues := by
  unfold Obligations.ResetStateValues
  refine ⟨fun n hn => ?_, rfl, rfl, rfl, rfl, rfl, rfl, rfl, rfl⟩
  obtain ⟨a, _, rfl⟩ := List.mem_map.mp hn
  have hbuf (i : Fin 16) : (Node.reset a .accept).df.buf[i] = 0 := by simp [Node.reset, Deframer.reset]
  exact ⟨rfl, rfl, rfl, rfl, rfl, hbuf, rfl, rfl, rfl, rfl, rfl, rfl, rfl, rfl⟩

end Sys2Proof.Machine
end

section
/-! PROOFS for 20_memory.md (O45, O54, O56): what a lost write leaves (R44, R154), which operations stay at their node
(R52), and that bytes on the bus are received whatever they are (R77). O54 and O56 share one frame, `mapNode_onlyNode`;
O56 goes through `Received`: whatever the decoder makes of bus bytes, they arrive as they are. -/

namespace Sys2Proof.Machine

open Sys2Proof.Config

/-! ### A write the transport loses (O45) -/

/-- A node with nothing held and no command pending answers NO_DATA and stays as it is (R152). -/
theorem answer_idle {n : Node} (hw : n.wire = []) (hv : n.pcValid = false) : n.answer = ([NO_DATA], n) := by
  have hflush : n.flush = n := by rw [flush_eq, hw, recv_nil, ← hw]
  obtain ⟨_, h⟩ | ⟨h, _⟩ | ⟨h, _⟩ | ⟨h, _⟩ := req_cases n
  · rw [Node.answer, hflush, h, ← hv]
  all_goals simp [hv] at h

/-- An exchange whose write is lost, and around which nothing else happens: the read alone reaches the node. -/
theorem exchange_lost {s : State} {a : Addr} {n : Node} {ps : List Plan} (bs : List Byte) (k : Nat)
    (hn : s.node? a = some n) (hp : s.plans = { Plan.reference with lost := true } :: ps) :
    s.exchange a bs k = some (true, Plan.reference.received k n.answer.1,
      (((s.setPlans ps).log (.write a bs)).mapNode a (fun m => m.answer.2)).log
        (.read a k true (Plan.reference.received k n.answer.1))) := by
  have hplan : s.plan = { Plan.reference with lost := true } := by simp [State.plan, hp]
  have hnode : ((s.setPlans ps).log (.write a bs)).node? a = some n := hn
  simp [State.exchange, hplan, hp, Plan.reference, State.runEvents, State.busWrite, State.busRead, hnode,
    Plan.received]

/-- On the reference bus a read of one byte receives a one-byte reply. -/
theorem reference_received_singleton (b : Byte) : Plan.reference.received 1 [b] = [b] := rfl

/-- What H.SEND answers once its exchange has ended (R113). -/
theorem exec_hSend_of_exchange {s u : State} {a : Addr} {d r : List Byte} {done : Bool}
    (h : s.start.exchange a (framed (writeMsg a d)) 1 = some (done, r, u)) :
    exec (.hSend a d) s = .next (u.ret (.probed done)) := by
  simp only [exec, execHSend, h, Option.map_some, hubOutcome]

/-- Settles O45: only the presence probe reaches the node, and it finds nothing to change there. -/
theorem lostWriteGoesUnnoticed : Obligations.LostWriteGoesUnnoticed := by
  unfold Obligations.LostWriteGoesUnnoticed
  intro s k n d ps hn hw hv hp
  have hidle := answer_idle hw hv
  have hx := exchange_lost (s := s.start) (framed (writeMsg k d)) 1 hn hp
  rw [hidle, reference_received_singleton] at hx
  refine ⟨_, exec_hSend_of_exchange hx, rfl, ?_, rfl, rfl⟩
  have haddr (m : Node) (hm : m.addr = k) : m.answer.2.addr = k := (answer_addr m).trans hm
  calc (((s.start.setPlans ps).log _).mapNode k (fun m => m.answer.2)).node? k
      = (s.node? k).map (fun m => m.answer.2) := node?_mapNode_self _ k _ haddr
    _ = some n := by rw [hn, Option.map_some, hidle]

/-! ### Operations at a node (O54) -/

/-- An operation that updates one node, keeping its configuration, is private to it. -/
theorem mapNode_onlyNode (s : State) (k : Addr) {f : Node → Node} (hf : ∀ n : Node, n.OpFrame (f n)) :
    s.OnlyNode (s.start.mapNode k f) k where
  maxClients := rfl
  hub := rfl
  config := mapNode_config s.start k f fun n => ⟨(hf n).addr, (hf n).policy⟩
  others j hj := node?_mapNode_other s.start k j f (fun n hn => (hf n).addr.trans hn) hj
  now := rfl
  plans := rfl
  inputs := rfl
  freeCount := rfl
  trace := rfl

/-- The result is not part of the frame. -/
theorem State.OnlyNode.ret {s t : State} {k : Addr} (h : s.OnlyNode t k) (r : Result) : s.OnlyNode (t.ret r) k :=
  ⟨h.maxClients, h.hub, h.config, h.others, h.now, h.plans, h.inputs, h.freeCount, h.trace⟩

theorem atNode_onlyNode {s t : State} {k : Addr} {op : Node → Result × Node} (hop : ∀ n : Node, n.OpFrame (op n).2)
    (h : s.atNode k op = .next t) : s.OnlyNode t k := by
  obtain ⟨n, _, rfl⟩ := atNode_next h
  exact (mapNode_onlyNode s k hop).ret _

/-- Who invokes operations at the ports of the node at `k` (R78, R95). -/
def nodeInvokers (k : Addr) : List Invoker :=
  [.callback k, .application k, .opRecv k, .opReq k, .opNodeSend k, .opNodeGet k]

/-- An instruction wired to node `k`, or a test bench's DF.DECODE there, is an operation at node `k` and no other: the
hub's operations and the bytes on the bus have other invokers. -/
theorem exec_atNode_of_wired {i : Instr} {k : Addr}
    (h : (∃ w ∈ nodeInvokers k, w ∈ invokers i) ∨ ∃ bs, i = .dfDecode k bs) :
    ∃ op : Node → Result × Node, (∀ n : Node, n.OpFrame (op n).2) ∧ ∀ s, exec i s = s.atNode k op := by
  cases i with
  | byteStart l | byteEnd l | byteAck l | byteNak l | byteWrite l | byteRead l | byteNoData l | bytePing l | byteEsc l
  | byteNull l | bytePollTerm l | pktPing a t | pktRead a t | pktWrite a d t | pkt m t | rplNoData | rplAck | rplNull
  | rplData r | frEncode m | hIdent | hScan | hGet | hSend a d | hClients copy =>
    simp [nodeInvokers, invokers] at h
  | dfStep j b | dfDecode j bs =>
    obtain rfl : j = k := by simpa [nodeInvokers, invokers] using h
    exact ⟨_, fun n => ⟨rfl, rfl, id⟩, fun s => rfl⟩
  | qEnq q m =>
    cases q with
    | hubRx => simp [nodeInvokers, invokers, producer] at h
    | nodeRx j | nodeTx j =>
      obtain rfl : j = k := by simpa [nodeInvokers, invokers, producer] using h
      exact ⟨_, fun n => ⟨rfl, rfl, id⟩, fun s => rfl⟩
  | qDeq q | qEmpty q =>
    cases q with
    | hubRx => simp [nodeInvokers, invokers, consumer] at h
    | nodeRx j | nodeTx j =>
      obtain rfl : j = k := by simpa [nodeInvokers, invokers, consumer] using h
      exact ⟨_, fun n => ⟨rfl, rfl, id⟩, fun s => rfl⟩
  | nRecv j bs =>
    obtain rfl : j = k := by simpa [nodeInvokers, invokers] using h
    exact ⟨_, fun n => recv_opFrame n bs, fun s => rfl⟩
  | nReq j =>
    obtain rfl : j = k := by simpa [nodeInvokers, invokers] using h
    exact ⟨_, req_opFrame, fun s => rfl⟩
  | nSend j d =>
    obtain rfl : j = k := by simpa [nodeInvokers, invokers] using h
    exact ⟨_, fun n => send_opFrame n d, fun s => rfl⟩
  | nGet j =>
    obtain rfl : j = k := by simpa [nodeInvokers, invokers] using h
    exact ⟨_, get_opFrame, fun s => rfl⟩

/-- Settles O54: whatever is wired to node `k` is an operation at node `k`. -/
theorem nodeOperationsArePrivate : Obligations.NodeOperationsArePrivate := by
  unfold Obligations.NodeOperationsArePrivate
  intro i s t k hwired h
  obtain ⟨op, hop, hexec⟩ := exec_atNode_of_wired hwired
  exact atNode_onlyNode hop (hexec s ▸ h)

/-! ### Bytes on the bus are received, a row of the table or not (O56) -/

/-- What the decoder makes of the bytes `bs`, on lane `l`, when they arrive as they are: no row of the table, or a row
whose whole effect is their arrival. -/
inductive Received (l : Lane) (bs : List Byte) : Decoded → Prop
  | stray : Received l bs (.stray l bs)
  | row {i : Instr} (hwf : i.wellFormed = true) (hinv : invokers i = [.transport])
      (hexec : ∀ s, exec i s = s.arrive l bs) : Received l bs (.instr i)

/-- A step on bytes that are received is their arrival. -/
theorem step_received {s : State} {ch : Channel} {l : Lane} {bs : List Byte} {rest : List Input}
    (hlegal : s.legal = true) (hin : s.inputs = .request .transport ch bs :: rest)
    (h : Received l bs (decode ch bs)) : step s = (s.setInputs rest).arrive l bs := by
  have hconsume : s.consume = s.setInputs rest := by rw [State.consume, hin, List.tail_cons]
  generalize hd : decode ch bs = d at h
  cases h with
  | stray =>
    have hfetch : s.fetch = .stray l bs := by simp [State.fetch, hin, hd]
    simp only [step, hlegal, hfetch, hconsume, if_true]
  | @row i hwf hinv hexec =>
    have hfetch : s.fetch = .instr i := by simp [State.fetch, hin, hd, hinv]
    simp only [step, hlegal, hfetch, hconsume, hwf, hexec, if_true]

/-- Each of the eleven listed bytes is its row's, and any other byte is a stray. -/
theorem decodeByte_received (l : Lane) (b : Byte) : Received l [b] (decodeByte l b) := by
  unfold decodeByte
  iterate 11
    split
    · next hb => exact hb ▸ .row rfl rfl fun _ => rfl
  exact .stray

theorem decode_byte_received (l : Lane) {bs : List Byte} (h : bs ≠ []) : Received l bs (decode (.byte l) bs) := by
  match bs with
  | [] => exact absurd rfl h
  | [b] => exact decodeByte_received l b
  | _ :: _ :: _ => exact .stray

theorem decode_reply_received {bs : List Byte} (h : bs ≠ []) : Received .toHub bs (decode .reply bs) := by
  obtain ⟨b, r, rfl⟩ := List.exists_cons_of_ne_nil h
  simp only [decode, decodeReply]
  split_ifs with hnd hr hack hr hnull hr hpt hlen
  · rw [hnd, hr]; exact .row rfl rfl fun _ => rfl
  · exact .stray
  · rw [hack, hr]; exact .row rfl rfl fun _ => rfl
  · exact .stray
  · rw [hnull, hr]; exact .row rfl rfl fun _ => rfl
  · exact .stray
  · exact .stray
  · exact .row (by simp [Instr.wellFormed, isDataReply, hnd, hack, hnull, hpt, hlen]) rfl fun _ => rfl
  · exact .stray

theorem addrByte_msb (a : Addr) : (addrByte a).msb = false := by
  simp [addrByte, BitVec.msb_setWidth]

theorem addrByte_setWidth (a : Addr) : (addrByte a).setWidth 7 = a := by
  simp [addrByte]

/-- Bytes that are no packet arrive at the node their second byte names. -/
theorem strayPacket_received {a : Addr} {bs : List Byte} (h : bs[1]? = some (addrByte a)) :
    Received (.toNode a) bs (strayPacket bs) := by
  match bs with
  | [] | [_] => simp at h
  | b :: x :: r =>
    obtain rfl : x = addrByte a := by simpa using h
    simp only [strayPacket, addrByte_msb, addrByte_setWidth, Bool.false_eq_true, if_false]
    exact .stray

/-- A packet on the bus whose message names node `a` arrives there. -/
theorem packetOnBus_addrByte (s : State) (a : Addr) (m : List Byte) (t : Byte) :
    s.packetOnBus (addrByte a :: m) t = s.arrive (.toNode a) (packetBytes (addrByte a :: m) t) := by
  simp only [packetOnBus_eq, destination, addrByte_msb, addrByte_setWidth, Bool.false_eq_true, if_false]

/-- Whichever row a packet to node `a` is, it arrives there. -/
theorem packetRow_received (a : Addr) {m : List Byte} (t : Byte) (hm : m.length < MAX_MSG_LEN) :
    Received (.toNode a) (packetBytes (addrByte a :: m) t) (.instr (packetRow (addrByte a :: m) t)) := by
  match m with
  | [] => exact .row rfl rfl fun s => packetOnBus_addrByte s a [] t
  | c :: d =>
    simp only [packetRow, addrByte_msb, addrByte_setWidth, Bool.false_eq_true, if_false]
    simp only [List.length_cons] at hm
    split_ifs with hping hread hwrite
    · obtain ⟨rfl, rfl⟩ := hping; exact .row rfl rfl fun s => packetOnBus_addrByte s a _ t
    · obtain ⟨rfl, rfl⟩ := hread; exact .row rfl rfl fun s => packetOnBus_addrByte s a _ t
    · subst hwrite
      exact .row (by simp only [Instr.wellFormed, decide_eq_true_eq]; omega) rfl fun s => packetOnBus_addrByte s a _ t
    · refine .row ?_ rfl fun s => packetOnBus_addrByte s a _ t
      have hshaped : shaped (addrByte a :: c :: d) = false := by simp [shaped, addrByte_msb]; tauto
      simp only [Instr.wellFormed, hshaped, List.length_cons, Bool.not_false, Bool.and_true, Bool.and_eq_true,
        decide_eq_true_eq]
      omega

/-- All the decoder can do on the packet channel. -/
theorem decodePacket_cases (bs : List Byte) :
    bs = [] ∨ decodePacket bs = strayPacket bs ∨
    ∃ m t, bs = packetBytes m t ∧ 1 ≤ m.length ∧ m.length ≤ MAX_MSG_LEN ∧ decodePacket bs = .instr (packetRow m t) := by
  unfold decodePacket
  split
  · exact .inl rfl
  · next b r =>
    split_ifs with hb
    · exact .inr (.inl rfl)
    · split
      · exact .inr (.inl rfl)
      · next e front hr =>
        split_ifs with he
        · exact .inr (.inl rfl)
        · split
          · exact .inr (.inl rfl)
          · next t mr =>
            split_ifs with hlen
            · exact .inr (.inl rfl)
            · have hbytes : b :: r = packetBytes mr.reverse t := by
                rw [← List.reverse_reverse r, hr]
                simp only [not_not] at hb he
                simp [packetBytes, hb, he]
              exact .inr (.inr ⟨mr.reverse, t, hbytes, by simp; omega, by simp; omega, rfl⟩)

theorem decode_packet_received {a : Addr} {bs : List Byte} (h : bs[1]? = some (addrByte a)) :
    Received (.toNode a) bs (decode .packet bs) := by
  obtain rfl | hstray | ⟨m, t, rfl, hpos, hmax, hrow⟩ := decodePacket_cases bs
  · simp at h
  · rw [decode, hstray]; exact strayPacket_received h
  · obtain ⟨x, m, rfl⟩ := List.exists_cons_of_length_pos hpos
    obtain rfl : x = addrByte a := by simpa [packetBytes] using h
    rw [decode, hrow]
    exact packetRow_received a t hmax

/-- A polled message goes onto `hub_rxq` as far as its 40 slots go; the flag is set when it does not fit (R111, R123). -/
theorem hub_accept_list {h : Hub} (hw : h.rxq.Wf) {m : List Byte} (hm : m.length ≤ 16) :
    (h.accept m).rxq.list = (h.rxq.list ++ [m]).take 40 ∧
      (h.accept m).allocFail = (h.allocFail || decide (40 < (h.rxq.list ++ [m]).length)) := by
  have hlen := Queue.list_length h.rxq
  rw [List.length_append, List.length_singleton, hlen]
  by_cases hc : h.rxq.count.val = 40
  · have he : h.accept m = { h with allocFail := true } := by rw [Hub.accept, Queue.enqueue_full hc]
    rw [he, List.take_left' (hlen.trans hc)]
    simp [hc]
  · have hroom : h.rxq.count.val < 40 := by have := h.rxq.count.isLt; omega
    obtain ⟨q, hq, hlist, _⟩ := Queue.enqueue_room hw hroom m
    have he : h.accept m = { h with rxq := q } := by rw [Hub.accept, hq]
    have hfit : (h.rxq.list ++ [m]).length ≤ 40 := by simp [hlen]; omega
    rw [he, hlist, List.take_of_length_le hm, List.take_of_length_le hfit]
    simp; omega

/-- The message a reply brings is no longer than the reply. -/
theorem polledMessage_length_le {r m : List Byte} (h : polledMessage r = some m) : m.length ≤ r.length := by
  unfold polledMessage at h
  split at h
  · cases h
  · split_ifs at h
    cases h
    exact (List.takeWhile_prefix _).length_le

/-- What a poll reply makes of the hub's queue and flag (R111). -/
theorem onPollReply_list {h : Hub} (hw : h.rxq.Wf) {r : List Byte} (hr : r.length ≤ 16) :
    (h.onPollReply r).rxq.list = (h.rxq.list ++ (polledMessage r).toList).take 40 ∧
      (h.onPollReply r).allocFail =
        (h.allocFail || decide (40 < (h.rxq.list ++ (polledMessage r).toList).length)) := by
  rw [onPollReply_eq]
  cases hp : polledMessage r with
  | none =>
    have hle : h.rxq.list.length ≤ 40 := by
      have := h.rxq.count.isLt
      rw [Queue.list_length]; omega
    simp [List.take_of_length_le hle, hle]
  | some m => exact hub_accept_list hw ((polledMessage_length_le hp).trans hr)

/-- Bytes that arrive at a node: it alone changes, as by one N.RECV of what the transport held and the bytes. -/
theorem arrive_toNode_spec (s : State) (a : Addr) (bs : List Byte) :
    ∃ t : State, s.arrive (.toNode a) bs = .next t ∧ s.OnlyNode t a ∧ t.out = .nothing ∧
      (s.node? a = none → t.nodes = s.nodes) ∧
      (∀ n, s.node? a = some n → t.node? a = some ({ n with wire := [] }.recv (n.wire ++ bs))) := by
  refine ⟨_, arrive_toNode s a bs, mapNode_onlyNode s a fun n => deliver_opFrame n bs, rfl, fun hnone => ?_,
    fun n hn => ?_⟩
  · rw [mapNode_absent s.start a _ hnone, start_nodes]
  · rw [node?_mapNode_self s.start a _ fun m hm => (deliver_opFrame m bs).addr.trans hm, node?_start, hn,
      Option.map_some, accrue_flush]

/-- Bytes that arrive at the hub: it alone changes, in its queue and flag, by the message the first 8 bring. -/
theorem arrive_toHub_spec {s : State} (hw : s.hub.rxq.Wf) (bs : List Byte) :
    ∃ t : State, s.arrive .toHub bs = .next t ∧ s.OnlyHub t ∧ t.out = .nothing ∧
      t.hub = { s.hub with rxq := t.hub.rxq, allocFail := t.hub.allocFail } ∧
      t.hub.rxq.list = (s.hub.rxq.list ++ (polledMessage (bs.take 8)).toList).take 40 ∧
      t.hub.allocFail = (s.hub.allocFail ||
        decide (40 < (s.hub.rxq.list ++ (polledMessage (bs.take 8)).toList).length)) := by
  have hlen : (bs.take 8).length ≤ 16 := by rw [List.length_take]; omega
  exact ⟨_, arrive_toHub s bs, ⟨rfl, rfl, rfl, rfl, rfl, rfl, rfl⟩, rfl, onPollReply_frame s.hub _,
    onPollReply_list hw hlen⟩

/-- Settles O56: the decoder makes of bus bytes a row or a stray, and both are the bytes' arrival. -/
theorem busBytesArriveWhateverTheyAre : Obligations.BusBytesArriveWhateverTheyAre := by
  unfold Obligations.BusBytesArriveWhateverTheyAre
  intro s a bs rest hlegal
  constructor
  · intro hbus
    have hstep : step s = (s.setInputs rest).arrive (.toNode a) bs := by
      obtain ⟨hin, hne⟩ | ⟨hin, haddr⟩ := hbus
      · exact step_received hlegal hin (decode_byte_received _ hne)
      · exact step_received hlegal hin (decode_packet_received haddr)
    rw [hstep]
    exact arrive_toNode_spec (s.setInputs rest) a bs
  · intro hne hw hbus
    have hstep : step s = (s.setInputs rest).arrive .toHub bs := by
      obtain hin | hin := hbus
      · exact step_received hlegal hin (decode_byte_received _ hne)
      · exact step_received hlegal hin (decode_reply_received hne)
    rw [hstep]
    exact arrive_toHub_spec (s := s.setInputs rest) hw bs

end Sys2Proof.Machine
end

section
/-! PROOFS for 30_encoding.md (O31, O35, O4, O6): the replies of a node are rows of the table and the hub's poll read
makes of each row what R75 says; what a step does with a request, by what its bytes decode to. -/

namespace Sys2Proof.Machine

open Sys2Proof.Config

/-! ### Data replies (R75) -/

theorem isDataReply_cons_iff {b : Byte} {r : List Byte} :
    isDataReply (b :: r) = true ↔ b ∉ [NULL, ACK, NO_DATA, POLL_TERM] ∧ r.length < MAX_MSG_LEN := by
  simp [isDataReply, and_assoc]

/-- A message that begins with a node address other than 0 is never mistaken for a status byte (R149): a 7-bit address
is none of `ACK`, `NO_DATA` and 0xFF. -/
theorem isDataReply_of_addressed {k : Addr} {m : List Byte} (hk : 1 ≤ k.toNat) (hhead : m.head? = some (addrByte k))
    (hlen : m.length ≤ MAX_MSG_LEN) : isDataReply m = true := by
  obtain ⟨r, rfl⟩ := List.head?_eq_some_iff.mp hhead
  have hbyte : addrByte k ∉ [NULL, ACK, NO_DATA, POLL_TERM] := by
    simp only [List.mem_cons, List.not_mem_nil, or_false, addrByte, NULL, ACK, NO_DATA, POLL_TERM]
    bv_omega
  exact isDataReply_cons_iff.mpr ⟨hbyte, hlen⟩

theorem decode_reply_data {r : List Byte} (h : isDataReply r = true) : decode .reply r = .instr (.rplData r) := by
  cases r with
  | nil => cases h
  | cons b r =>
    obtain ⟨hb, hlen⟩ := isDataReply_cons_iff.mp h
    simp only [List.mem_cons, List.not_mem_nil, or_false, not_or] at hb
    obtain ⟨hnull, hack, hnd, hpt⟩ := hb
    simp only [decode, decodeReply, hnull, hack, hnd, hpt, hlen, if_true, if_false]

/-- The message a data reply brings the hub: the bytes before the first 0xFF among those it reads (R111). -/
theorem polledMessage_of_isDataReply {r : List Byte} (h : isDataReply r = true) :
    polledMessage (r.take 8) = some ((r.take 8).takeWhile (fun b => b ≠ POLL_TERM)) := by
  cases r with
  | nil => cases h
  | cons b r => exact if_neg (isDataReply_cons_iff.mp h).1

/-! ### The replies of a node (O31) -/

theorem dequeue_eq_none_iff {cap : Nat} {q : Queue cap} : q.dequeue = none ↔ q.list = [] := by
  rw [← List.length_eq_zero_iff, Queue.list_length]
  constructor
  · intro h
    by_contra hc
    obtain ⟨m, q', hq, _⟩ := Queue.dequeue_some hc
    rw [h] at hq
    cases hq
  · exact Queue.dequeue_empty

/-- A dequeue answers the oldest message. -/
theorem list_of_dequeue {cap : Nat} {q q' : Queue cap} {m : List Byte} (h : q.dequeue = some (m, q')) :
    q.list = m :: q'.list := by
  have hc : q.count.val ≠ 0 := fun hc => by rw [Queue.dequeue_empty hc] at h; cases h
  obtain ⟨m₁, q₁, hq, hlist, _⟩ := Queue.dequeue_some hc
  rw [h] at hq
  cases hq
  exact hlist

/-- The row a node's reply is, by its pending command and its outbound queue (R75, R101), when all it holds for the hub
are data replies. -/
theorem decode_reply_req {n : Node} (h : ∀ m ∈ n.txq.list, isDataReply m = true) :
    decode .reply n.req.1 = .instr (if n.pcValid = false then .rplNoData else if n.pcCmd ≠ READ then .rplAck
      else if n.txq.list = [] then .rplNull else .rplData n.req.1) := by
  obtain ⟨hv, hreq⟩ | ⟨hv, hc, hreq⟩ | ⟨hv, hc, hq, hreq⟩ | ⟨hv, hc, m, q, hq, hreq⟩ := req_cases n
  · rw [hreq, if_pos hv]; rfl
  · rw [hreq, if_neg (by simp [hv]), if_pos hc]; rfl
  · rw [hreq, if_neg (by simp [hv]), if_neg (by simp [hc]), if_pos (dequeue_eq_none_iff.mp hq)]; rfl
  · have hlist := list_of_dequeue hq
    rw [hreq, if_neg (by simp [hv]), if_neg (by simp [hc]), if_neg (by simp [hlist])]
    exact decode_reply_data (h m (by simp [hlist]))

/-- Settles O31: the node's outbound messages are data replies, for they begin with its address. -/
theorem everyReplyIsARow : Obligations.EveryReplyIsARow := by
  unfold Obligations.EveryReplyIsARow
  intro s k n hn hk _ hmsgs
  refine ⟨_, _, atNode_some hn _, rfl, decode_reply_req fun m hm => ?_⟩
  obtain ⟨hhead, hlen⟩ := hmsgs m hm
  exact isDataReply_of_addressed hk hhead hlen

/-! ### What the hub's poll read makes of a reply (O35) -/

/-- Bytes that bring the hub no message start an operation with no result and change nothing else. -/
theorem arrive_toHub_nothing (s : State) {bs : List Byte} (h : polledMessage (bs.take 8) = none) :
    s.arrive .toHub bs = .next s.start := by
  rw [arrive_toHub]
  simp only [onPollReply_eq, h]
  rfl

/-- Bytes that bring the hub a message are its acceptance. -/
theorem arrive_toHub_message (s : State) {bs m : List Byte} (h : polledMessage (bs.take 8) = some m) :
    s.arrive .toHub bs = .next (s.start.mapHub (fun g => g.accept m)) := by
  rw [arrive_toHub]
  simp only [onPollReply_eq, h]

theorem hub_accept_frame (h : Hub) (m : List Byte) :
    h.accept m = { h with rxq := (h.accept m).rxq, allocFail := (h.accept m).allocFail } := by
  obtain ⟨_, e⟩ | ⟨q, _, e⟩ := hub_accept_cases h m <;> rw [e]

theorem hub_accept_room {h : Hub} (hw : h.rxq.Wf) (hc : h.rxq.count.val < 40) {m : List Byte} (hm : m.length ≤ 16) :
    (h.accept m).rxq.list = h.rxq.list ++ [m] ∧ (h.accept m).allocFail = h.allocFail := by
  have hfit : (h.rxq.list ++ [m]).length ≤ 40 := by simpa [Queue.list_length] using hc
  obtain ⟨hlist, hflag⟩ := hub_accept_list hw hm
  rw [hlist, hflag, List.take_of_length_le hfit, decide_eq_false (by omega), Bool.or_false]
  exact ⟨rfl, rfl⟩

theorem hub_accept_full {h : Hub} (hc : h.rxq.count.val = 40) (m : List Byte) :
    h.accept m = { h with allocFail := true } := by
  rw [Hub.accept, Queue.enqueue_full hc]

/-- Settles O35: the three status rows bring no message; a data row brings its bytes before the first 0xFF. -/
theorem repliesReachHub : Obligations.RepliesReachHub := by
  unfold Obligations.RepliesReachHub
  intro s hw
  constructor
  · intro i hi
    simp only [List.mem_cons, List.not_mem_nil, or_false] at hi
    obtain rfl | rfl | rfl := hi <;> exact arrive_toHub_nothing s (by decide)
  · intro r hr
    have hmsg := polledMessage_of_isDataReply hr
    have hlen := (polledMessage_length_le hmsg).trans (List.length_take_le 8 r)
    exact ⟨_, arrive_toHub_message s hmsg, ⟨rfl, rfl, rfl, rfl, rfl, rfl, rfl⟩, rfl, hub_accept_frame _ _,
      fun hroom => hub_accept_room hw hroom (by omega),
      fun hfull => by simp only [mapHub_hub, start_hub, hub_accept_full hfull, and_self]⟩

/-! ### What a step does with a request (O4, O6) -/

theorem consume_of_inputs {s : State} {x : Input} {rest : List Input} (hin : s.inputs = x :: rest) :
    s.consume = s.setInputs rest := by rw [State.consume, hin, List.tail_cons]

theorem step_illegal {s : State} (h : s.legal = false) : step s = .refused .illegalConfiguration := by
  simp only [step, h, Bool.false_eq_true, if_false]

theorem step_no_input {s : State} (hlegal : s.legal = true) (hin : s.inputs = []) : step s = .next s := by
  simp only [step, hlegal, State.fetch, hin, if_true]

/-- What the bytes of a request by `who` decode to when the request is passed over: no operation (R78), bytes that bring
nothing (entry 24), or something `who` has no port for (R138). -/
inductive PassedOver (who : Invoker) : Decoded → Prop
  | inert : PassedOver who .inert
  | rejected (e : DecodeError) : PassedOver who (.rejected e)
  | unwired {i : Instr} (h : who ∉ invokers i) : PassedOver who (.instr i)
  | stray (l : Lane) (bs : List Byte) (h : who ≠ .transport) : PassedOver who (.stray l bs)

section

variable {s : State} {who : Invoker} {ch : Channel} {bs : List Byte} {rest : List Input} {i : Instr}

theorem fetch_wired (hin : s.inputs = .request who ch bs :: rest) (hd : decode ch bs = .instr i)
    (hw : who ∈ invokers i) : s.fetch = .instr i := by
  simp only [State.fetch, hin, hd, hw, if_true]

theorem fetch_passedOver (hin : s.inputs = .request who ch bs :: rest) (h : PassedOver who (decode ch bs)) :
    s.fetch = .noOperation := by
  simp only [State.fetch, hin]
  generalize decode ch bs = d at h
  cases h with
  | inert => rfl
  | rejected e => rfl
  | unwired h => exact if_neg h
  | stray l bs h => exact if_neg h

theorem step_wired (hlegal : s.legal = true) (hin : s.inputs = .request who ch bs :: rest)
    (hd : decode ch bs = .instr i) (hw : who ∈ invokers i) :
    step s = if i.wellFormed = true then exec i (s.setInputs rest) else .refused .illFormed := by
  simp only [step, hlegal, fetch_wired hin hd hw, consume_of_inputs hin, if_true]

/-- A request that is passed over is consumed, and that is all. -/
theorem step_passedOver (hlegal : s.legal = true) (hin : s.inputs = .request who ch bs :: rest)
    (h : PassedOver who (decode ch bs)) : step s = .next (s.setInputs rest) := by
  simp only [step, hlegal, fetch_passedOver hin h, consume_of_inputs hin, if_true]

end

/-- Select code 0xF is inert, whatever bits 7:4 and the further bytes are (U11). -/
theorem decode_port_inert {b : Byte} (rest : List Byte) (h : b.toNat % 16 = 15) :
    decode .port (b :: rest) = .inert := by
  simp only [decode, decodePort, h, decodeOp]

/-- Settles O4: the request is wired and well formed, so the step is its execution. -/
theorem stepRunsTheDecodedInstruction : Obligations.StepRunsTheDecodedInstruction := by
  unfold Obligations.StepRunsTheDecodedInstruction
  intro s who ch bs rest i hlegal hin hd hwf hw
  rw [step_wired hlegal hin hd hw, if_pos hwf]

/-- Settles O6: by what the bytes of the next request decode to. -/
theorem stepWithoutInstruction : Obligations.StepWithoutInstruction := by
  unfold Obligations.StepWithoutInstruction
  intro s
  refine ⟨step_illegal, step_no_input, fun who ch bs rest hlegal hin => ?_, fun b r => decode_port_inert r⟩
  have hpass {d : Decoded} (hd : decode ch bs = d) (h : PassedOver who d) : step s = .next (s.setInputs rest) :=
    step_passedOver hlegal hin (hd ▸ h)
  refine ⟨fun hd => hpass hd .inert, fun e hd => hpass hd (.rejected e), fun i hd hw => hpass hd (.unwired hw),
    fun l b hd hw => hpass hd (.stray l b hw), fun i hd hw hwf => ?_⟩
  rw [step_wired hlegal hin hd hw, if_neg (by simp [hwf])]

end Sys2Proof.Machine
end

section
/-! PROOFS for 40_codec.md (O8 to O14): what DF.DECODE makes of a byte sequence, said over the events of its bytes
(`decode_spec`), and what it makes of a packet whatever the deframer held before (`decode_packet`). -/

namespace Sys2Proof.Machine

open Sys2Proof.Config

/-! ### An operation at a node that is there -/

/-- Looking up a node that is there, after an update of it. -/
theorem node?_mapNode_some {s : State} {k : Addr} {n : Node} (h : s.node? k = some n) {f : Node → Node}
    (hf : ∀ m : Node, (f m).addr = m.addr) : (s.mapNode k f).node? k = some (f n) := by
  rw [node?_mapNode_self s k f fun m hm => (hf m).trans hm, h, Option.map_some]

/-- What an operation at a node answers, and all that differs after it. -/
theorem atNode_spec {s : State} {k : Addr} {n : Node} {op : Node → Result × Node} (h : s.node? k = some n)
    (hop : ∀ m : Node, m.OpFrame (op m).2) :
    ∃ t, s.atNode k op = .next t ∧ t.out = (op n).1 ∧ s.OnlyNode t k ∧ t.node? k = some (op n).2 := by
  have hat := atNode_some h op
  exact ⟨_, hat, rfl, atNode_onlyNode hop hat, node?_mapNode_some (s := s.start) h fun m => (hop m).addr⟩

theorem exec_dfStep_spec {s : State} {k : Addr} {n : Node} (h : s.node? k = some n) (b : Byte) :
    ∃ t, exec (.dfStep k b) s = .next t ∧ t.out = .event (n.df.step b).1 ∧ s.OnlyNode t k ∧
      t.node? k = some { n with df := (n.df.step b).2 } :=
  atNode_spec h fun _ => ⟨rfl, rfl, id⟩

theorem exec_dfDecode_spec {s : State} {k : Addr} {n : Node} (h : s.node? k = some n) (bs : List Byte) :
    ∃ t, exec (.dfDecode k bs) s = .next t ∧ t.out = .decoded (n.df.decode bs).1 (n.df.decode bs).2.1 ∧
      s.OnlyNode t k ∧ t.node? k = some { n with df := (n.df.decode bs).2.2 } :=
  atNode_spec h fun _ => ⟨rfl, rfl, id⟩

/-- Two updates of one node are one. -/
theorem mapNode_mapNode (s : State) (k : Addr) {f : Node → Node} (hf : ∀ n : Node, (f n).addr = n.addr)
    (g : Node → Node) : (s.mapNode k f).mapNode k g = s.mapNode k (g ∘ f) := by
  refine congrArg (fun ns => { s with nodes := ns }) ?_
  rw [mapNode_nodes, List.map_map]
  exact List.map_congr_left fun n _ => by by_cases hn : n.addr = k <;> simp [hn, hf]

theorem exec_nRecv {s : State} {k : Addr} {n : Node} (h : s.node? k = some n) (bs : List Byte) :
    exec (.nRecv k bs) s = .next ((s.start.mapNode k (fun m => m.recv bs)).ret .nothing) :=
  atNode_some h _

/-- The next operation forgets the result and the transactions of the last, and keeps its update. -/
theorem start_ret_mapNode (s : State) (k : Addr) (f : Node → Node) (r : Result) :
    ((s.start.mapNode k f).ret r).start = s.start.mapNode k f := rfl

/-! ### The framer (R80) -/

theorem framed_eq (m : List Byte) : framed m = [START] ++ (m ++ [trailer m]) ++ [END] := by
  simp [framed, packetBytes]

theorem exec_frEncode {m : List Byte} (hm : m ≠ []) (s : State) :
    exec (.frEncode m) s = .next (s.start.ret (.sent (framed m))) := by
  cases m with
  | nil => exact absurd rfl hm
  | cons b m => rfl

/-! ### The deframer's buffer (R81) -/

theorem setIfInBounds_getElem (v : Vector Byte 16) (j : Nat) (b : Byte) (i : Fin 16) :
    (v.setIfInBounds j b)[i] = if i.val = j then b else v[i] := by
  simp only [Fin.getElem_fin, Vector.getElem_setIfInBounds i.isLt, eq_comm]

theorem append_getElem (d : Deframer) (b : Byte) (i : Fin 16) :
    (d.append b).buf[i] = if i.val = d.cur.val then b else d.buf[i] := setIfInBounds_getElem _ _ b i

theorem terminate_getElem (d : Deframer) (b : Byte) (i : Fin 16) :
    (d.terminate b).buf[i] = if i.val = d.cur.val - 1 then 0 else d.buf[i] := setIfInBounds_getElem _ _ 0 i

/-- The payload of a termination is what was held but for its last byte, the trailer. -/
theorem terminate_held_eq_take (d : Deframer) (b : Byte) :
    (d.terminate b).held = d.buf.toList.take (d.cur.val - 1) := by
  have := d.cur.isLt
  rw [terminate_held, List.dropLast_eq_take, held_length, Deframer.held, List.take_take]
  congr 1
  omega

/-! ### The verdict (R62) -/

theorem parityOk_iff {x : Byte} : parityOk x = true ↔ x &&& 0x7F = 0 := beq_iff_eq

theorem verdict_valid {d : Deframer} (h : d.par &&& 0x7F = 0) : d.verdict = .valid d.held :=
  if_pos (parityOk_iff.2 h)

theorem verdict_invalid {d : Deframer} (h : d.par &&& 0x7F ≠ 0) : d.verdict = .invalid d.held :=
  if_neg fun hok => h (parityOk_iff.1 hok)

theorem verdict_invalid_iff (d : Deframer) : (∃ p, d.verdict = .invalid p) ↔ d.par &&& 0x7F ≠ 0 := by
  refine ⟨fun ⟨p, hp⟩ h => ?_, fun h => ⟨_, verdict_invalid h⟩⟩
  rw [verdict_valid h] at hp
  cases hp

theorem terminate_verdict (d : Deframer) (b : Byte) :
    (d.terminate b).verdict = if (d.par ^^^ b) &&& 0x7F = 0 then .valid (d.buf.toList.take (d.cur.val - 1))
      else .invalid (d.buf.toList.take (d.cur.val - 1)) := by
  rw [← terminate_held_eq_take d b, ← terminate_par]
  split
  · next h => exact verdict_valid h
  · next h => exact verdict_invalid h

/-! ### DF.DECODE over the events of its bytes (R82) -/

@[simp] theorem dfAfter_nil (d : Deframer) : dfAfter d [] = d := rfl
@[simp] theorem dfAfter_cons (d : Deframer) (b : Byte) (s : List Byte) :
    dfAfter d (b :: s) = dfAfter (d.step b).2 s := rfl
@[simp] theorem dfEvents_nil (d : Deframer) : dfEvents d [] = [] := rfl
@[simp] theorem dfEvents_cons (d : Deframer) (b : Byte) (s : List Byte) :
    dfEvents d (b :: s) = (d.step b).1 :: dfEvents (d.step b).2 s := rfl

/-- DF.DECODE goes on after bytes that terminate nothing. -/
theorem decode_append {d : Deframer} {s : List Byte} (h : ∀ e ∈ dfEvents d s, e = .noPacket) (rest : List Byte) :
    d.decode (s ++ rest) = (dfAfter d s).decode rest := by
  induction s generalizing d with
  | nil => rfl
  | cons b s ih =>
    rw [dfEvents_cons, List.forall_mem_cons] at h
    exact (decode_cons_noPacket (Prod.ext h.1 rfl) _).trans (ih h.2)

/-- DF.DECODE uses up the bytes to the first that terminates, or all of them. -/
theorem decode_spec (d : Deframer) (bs : List Byte) :
    ∃ e used rest, bs = used ++ rest ∧ d.decode bs = (e, rest, dfAfter d used) ∧
      ((e = .noPacket ∧ rest = [] ∧ ∀ x ∈ dfEvents d used, x = .noPacket) ∨
       (e ≠ .noPacket ∧ ∃ before, dfEvents d used = before ++ [e] ∧ ∀ x ∈ before, x = .noPacket)) := by
  induction bs generalizing d with
  | nil => exact ⟨.noPacket, [], [], rfl, rfl, .inl ⟨rfl, rfl, by simp⟩⟩
  | cons b bs ih =>
    by_cases hb : (d.step b).1 = .noPacket
    · obtain ⟨e, used, rest, hbs, hd, hcase⟩ := ih (d.step b).2
      refine ⟨e, b :: used, rest, by rw [hbs, List.cons_append],
        (decode_cons_noPacket (Prod.ext hb rfl) bs).trans hd, ?_⟩
      obtain ⟨he, hrest, hquiet⟩ | ⟨he, before, hev, hquiet⟩ := hcase
      · exact .inl ⟨he, hrest, List.forall_mem_cons.2 ⟨hb, hquiet⟩⟩
      · exact .inr ⟨he, (d.step b).1 :: before, by rw [dfEvents_cons, hev, List.cons_append],
          List.forall_mem_cons.2 ⟨hb, hquiet⟩⟩
    · exact ⟨_, [b], bs, rfl, decode_cons_event rfl hb bs, .inr ⟨hb, [], rfl, by simp⟩⟩

/-! ### The length of a payload (R86) -/

/-- Only a termination has a payload, and it drops one of the at most 16 bytes held. -/
theorem step_payload_length {d : Deframer} {b : Byte} {p : List Byte} (h : (d.step b).1.payload = some p) :
    p.length ≤ 15 := by
  obtain ⟨_, hd⟩ | ⟨_, _, hd⟩ | ⟨_, _, _, hd⟩ | ⟨_, _, _, _, hd⟩ := step_cases d b <;> rw [hd] at h
  case inr.inr.inl =>
    have hp : p = (d.terminate b).held := by simpa using h.symm
    have := d.cur.isLt
    rw [hp, held_length, terminate_cur]
    omega
  all_goals cases h

theorem dfEvents_payload_length {d : Deframer} {s p : List Byte} {e : DfEvent} (he : e ∈ dfEvents d s)
    (h : e.payload = some p) : p.length ≤ 15 := by
  induction s generalizing d with
  | nil => cases he
  | cons b s ih =>
    obtain rfl | he := List.mem_cons.1 he
    · exact step_payload_length h
    · exact ih he

theorem decode_payload_length {d : Deframer} {bs p : List Byte} (h : (d.decode bs).1.payload = some p) :
    p.length ≤ 15 := by
  obtain ⟨e, used, rest, _, hd, hcase⟩ := decode_spec d bs
  rw [hd] at h
  obtain ⟨rfl, _⟩ | ⟨_, before, hev, _⟩ := hcase
  · cases h
  · exact dfEvents_payload_length (s := used) (hev ▸ List.mem_append_right before (List.mem_singleton_self e)) h

/-! ### DF.DECODE of a packet (R83, R85) -/

/-- Bytes that are no delimiter and find room in a synchronised deframer are all held, and none terminates. -/
theorem dfAfter_body {d : Deframer} {s : List Byte} (hsync : d.sync = true)
    (hs : ∀ b ∈ s, b ≠ START ∧ b ≠ END) (hroom : d.cur.val + s.length ≤ 16) :
    (∀ e ∈ dfEvents d s, e = .noPacket) ∧ (dfAfter d s).sync = true ∧ (dfAfter d s).held = d.held ++ s ∧
      (dfAfter d s).par = d.par ^^^ xorAll s := by
  induction s generalizing d with
  | nil => simp [hsync]
  | cons b s ih =>
    obtain ⟨⟨hstart, hend⟩, hs⟩ := List.forall_mem_cons.1 hs
    rw [List.length_cons] at hroom
    have hc : d.cur.val < 16 := by omega
    have hstep := step_append hsync hstart hend hc.ne
    obtain ⟨hquiet, hsync', hheld, hpar⟩ := ih (d := d.append b) hsync hs (by rw [append_cur]; omega)
    rw [dfEvents_cons, dfAfter_cons, hstep]
    refine ⟨List.forall_mem_cons.2 ⟨rfl, hquiet⟩, hsync', ?_, ?_⟩
    · rw [hheld, append_held hc, List.append_assoc, List.singleton_append]
    · rw [hpar, append_par, xorAll_cons, BitVec.xor_assoc]

/-- Whatever the deframer held, a packet ends at its END byte with the verdict on exactly its own bytes. -/
theorem decode_packet (d : Deframer) {s : List Byte} (hs : ∀ b ∈ s, b ≠ START ∧ b ≠ END) (hlen : s.length ≤ 16) :
    ∃ d' : Deframer, d.decode ([START] ++ s ++ [END]) = (d'.verdict, [], d') ∧ d'.held = s.dropLast ∧
      d'.par = START ^^^ xorAll s ^^^ END := by
  obtain ⟨hquiet, hsync, hheld, hpar⟩ := dfAfter_body (restart_sync d) hs (by simpa using hlen)
  refine ⟨(dfAfter d.restart s).terminate END, ?_, ?_, ?_⟩
  · have hend := step_terminate hsync (by decide : END ≠ START) (.inl rfl)
    calc d.decode ([START] ++ s ++ [END])
        = d.restart.decode (s ++ [END]) := decode_cons_noPacket (step_start d) _
      _ = (dfAfter d.restart s).decode [END] := decode_append hquiet _
      _ = _ := decode_cons_event hend (verdict_ne_noPacket _) []
  · rw [terminate_held, hheld, restart_held, List.nil_append]
  · rw [terminate_par, hpar, restart_par]

/-! ### The trailer and the errors (R61, R85) -/

/-- A message and its trailer accumulate, between the delimiters, to nothing. -/
theorem xorAll_trailer (m : List Byte) : START ^^^ xorAll (m ++ [trailer m]) ^^^ END = 0 := by
  calc START ^^^ xorAll (m ++ [trailer m]) ^^^ END
      = (START ^^^ START) ^^^ (xorAll m ^^^ xorAll m) ^^^ (END ^^^ END) := by
        simp only [xorAll_append, xorAll_cons, xorAll_nil, trailer, BitVec.ofNat_eq_ofNat, BitVec.xor_zero]
        ac_rfl
    _ = 0 := by simp only [BitVec.xor_self]; rfl

/-- The trailer is START exactly where the message accumulates to END (R144). -/
theorem trailer_eq_start_iff {m : List Byte} : trailer m = START ↔ xorAll m = END := by
  rw [trailer_eq, show START = END ^^^ 0x01 by decide]
  exact BitVec.xor_left_inj _

/-- The trailer is END exactly where the message accumulates to START (R144). -/
theorem trailer_eq_end_iff {m : List Byte} : trailer m = END ↔ xorAll m = START := by
  rw [trailer_eq, show END = START ^^^ 0x01 by decide]
  exact BitVec.xor_left_inj _

@[simp] theorem corrupt_length (es s : List Byte) : (corrupt es s).length = s.length := by
  induction s generalizing es with
  | nil => cases es <;> rfl
  | cons b s ih => cases es <;> simp [corrupt, ih]

/-- Errors that all fall on bytes change what the bytes accumulate to by what the errors accumulate to. -/
theorem xorAll_corrupt {es s : List Byte} (h : es.length ≤ s.length) : xorAll (corrupt es s) = xorAll es ^^^ xorAll s := by
  induction s generalizing es with
  | nil => simp [List.length_eq_zero_iff.1 (Nat.le_zero.1 h), corrupt]
  | cons b s ih =>
    cases es with
    | nil => simp [corrupt]
    | cons e es =>
      rw [corrupt, xorAll_cons, ih (Nat.le_of_succ_le_succ h), xorAll_cons, xorAll_cons]
      ac_rfl

/-! ### The statements -/

/-- Settles O8: by whether the message is empty. -/
theorem frEncodeEmitsPacket : Obligations.FrEncodeEmitsPacket := by
  unfold Obligations.FrEncodeEmitsPacket
  intro m s
  cases m with
  | nil => rfl
  | cons b m =>
    rw [exec_frEncode (List.cons_ne_nil b m), foldl_xor, framed_eq]
    simp [State.ret, State.start, trailer, START, END]

/-- Settles O9: the four cases of `step_cases`. -/
theorem dfStepTransitions : Obligations.DfStepTransitions := by
  unfold Obligations.DfStepTransitions
  intro s k n b hn
  obtain ⟨t, ht, hout, honly, hnode⟩ := exec_dfStep_spec hn b
  refine ⟨t, _, _, ht, hout, honly, hnode, rfl, ?_, ?_, ?_, ?_⟩
  · intro hb
    obtain rfl : b = START := hb
    rw [step_start]
    exact ⟨rfl, rfl, rfl, rfl, fun i => Vector.getElem_replicate i.isLt⟩
  · intro hb hsync
    rw [step_hunt hsync hb]
    exact ⟨rfl, rfl⟩
  · intro hb hsync hend
    rw [step_terminate hsync hb hend]
    exact ⟨rfl, rfl, rfl, terminate_getElem n.df b, terminate_verdict n.df b⟩
  · intro hb he hsync hc
    rw [step_append hsync hb he hc.ne]
    exact ⟨rfl, hsync, by rw [append_cur]; omega, rfl, append_getElem n.df b⟩

/-- Settles O10: `decode_spec` at the node. -/
theorem dfDecodeStopsAtFirstPacket : Obligations.DfDecodeStopsAtFirstPacket := by
  unfold Obligations.DfDecodeStopsAtFirstPacket
  intro s k n bs hn
  obtain ⟨e, used, rest, hbs, hd, hcase⟩ := decode_spec n.df bs
  obtain ⟨t, ht, hout, honly, hnode⟩ := exec_dfDecode_spec hn bs
  rw [hd] at hout hnode
  exact ⟨t, _, e, used, rest, ht, hout, honly, hnode, rfl, hbs, rfl, hcase⟩

/-- Settles O11: the packet is its own body between delimiters, none of it a delimiter, and accumulates to 0. -/
theorem codecRoundTrip : Obligations.CodecRoundTrip := by
  unfold Obligations.CodecRoundTrip
  rintro s k n m hn ⟨hpos, hlen, hm, hstart, hend⟩
  have hbody : ∀ b ∈ m ++ [trailer m], b ≠ START ∧ b ≠ END :=
    List.forall_mem_append.2 ⟨hm, List.forall_mem_singleton.2
      ⟨mt trailer_eq_start_iff.1 hend, mt trailer_eq_end_iff.1 hstart⟩⟩
  obtain ⟨d, hd, hheld, hpar⟩ := decode_packet n.df hbody (by simp; omega)
  rw [xorAll_trailer] at hpar
  rw [verdict_valid (by rw [hpar]; rfl), hheld, List.dropLast_concat, ← framed_eq] at hd
  obtain ⟨t, ht, hout, _⟩ := exec_dfDecode_spec hn (framed m)
  exact ⟨_, t, framed m, exec_frEncode (List.length_pos_iff.1 hpos) s, rfl, ht, by rw [hout, hd]⟩

/-- Settles O12: N.RECV is a fold over its bytes, and two updates of one node are one. -/
theorem receptionIgnoresFragmentation : Obligations.ReceptionIgnoresFragmentation := by
  unfold Obligations.ReceptionIgnoresFragmentation
  intro s k n s1 s2 hn
  have hn1 : ((s.start.mapNode k fun m => m.recv s1).ret .nothing).node? k = some (n.recv s1) :=
    node?_mapNode_some (s := s.start) hn fun m => recv_addr m s1
  refine ⟨_, _, exec_nRecv hn s1, exec_nRecv hn1 s2, ?_⟩
  rw [exec_nRecv hn, start_ret_mapNode, mapNode_mapNode _ _ fun m => recv_addr m s1]
  simp only [Function.comp_def, recv_append]

/-- Settles O13: the corrupted bytes accumulate to what the errors accumulate to. -/
theorem corruptionDetection : Obligations.CorruptionDetection := by
  unfold Obligations.CorruptionDetection
  rintro s k n m es hn ⟨_, hlen, _⟩ hes hbody
  obtain ⟨d, hd, hheld, hpar⟩ := decode_packet n.df hbody (by simp; omega)
  have herrs : d.par = xorAll es := by
    have h0 := xorAll_trailer m
    rw [hpar, xorAll_corrupt (by simpa using hes)]
    calc START ^^^ (xorAll es ^^^ xorAll (m ++ [trailer m])) ^^^ END
        = xorAll es ^^^ (START ^^^ xorAll (m ++ [trailer m]) ^^^ END) := by ac_rfl
      _ = xorAll es := by rw [h0]; exact BitVec.xor_zero
  obtain ⟨t, ht, hout, _⟩ := exec_dfDecode_spec hn ([START] ++ corrupt es (m ++ [trailer m]) ++ [END])
  rw [hd] at hout
  exact ⟨t, d.verdict, ht, hout, by rw [verdict_payload, hheld], by rw [verdict_invalid_iff, herrs]⟩

/-- Settles O14: a payload is what is held after a termination, which drops one of at most 16 bytes. -/
theorem decodedPayloadBound : Obligations.DecodedPayloadBound := by
  unfold Obligations.DecodedPayloadBound
  intro s t k e p hp
  constructor
  · intro b h hout
    obtain ⟨n, _, rfl⟩ := atNode_next h
    cases hout
    exact step_payload_length hp
  · intro bs rest h hout
    obtain ⟨n, _, rfl⟩ := atNode_next h
    cases hout
    exact decode_payload_length hp

end Sys2Proof.Machine
end

section
/-! PROOFS for 41_queues.md (O17 to O22): a queue is named by its `QueueId` alone, `State.queue?` looks it up and
`State.mapQueue` updates it, so that Q.ENQ, Q.DEQ and Q.EMPTY are each one `State.atQueue`, and what they do is said once
for a queue controller of any capacity. -/

namespace Sys2Proof.Machine

open Sys2Proof.Config

/-! ### A queue, whichever it is (R95) -/

/-- The ring registers of a queue (R19). -/
def Queue.ring {cap : Nat} (c : Queue cap) : Nat × Nat × Nat := (c.head.val, c.tail.val, c.count.val)

/-- The queue controller `q`, where its node is there (R95). -/
def State.queue? (s : State) : (q : QueueId) → Option (Queue (queueCap q))
  | .hubRx => some s.hub.rxq
  | .nodeRx k => (s.node? k).map Node.rxq
  | .nodeTx k => (s.node? k).map Node.txq

/-- `node_rxq` becomes `f` of it. -/
def Node.mapRxq (f : Queue 20 → Queue 20) (n : Node) : Node := { n with rxq := f n.rxq }

/-- `node_txq` becomes `f` of it. -/
def Node.mapTxq (f : Queue 20 → Queue 20) (n : Node) : Node := { n with txq := f n.txq }

theorem mapRxq_opFrame (f : Queue 20 → Queue 20) (n : Node) : n.OpFrame (n.mapRxq f) := ⟨rfl, rfl, id⟩

theorem mapTxq_opFrame (f : Queue 20 → Queue 20) (n : Node) : n.OpFrame (n.mapTxq f) := ⟨rfl, rfl, id⟩

/-- The queue controller `q`, where its node is there, becomes `f` of it. -/
def State.mapQueue (s : State) : (q : QueueId) → (Queue (queueCap q) → Queue (queueCap q)) → State
  | .hubRx, f => s.mapHub (fun h => { h with rxq := f h.rxq })
  | .nodeRx k, f => s.mapNode k (Node.mapRxq f)
  | .nodeTx k, f => s.mapNode k (Node.mapTxq f)

/-- An operation presented at a port of the queue `q`: `op` gives its result and the queue after it. -/
def State.atQueue (s : State) :
    (q : QueueId) → (Queue (queueCap q) → Result × Queue (queueCap q)) → Host.Outcome State Fault Refusal
  | .hubRx, op => .next ((s.start.mapHub (fun h => { h with rxq := (op h.rxq).2 })).ret (op s.hub.rxq).1)
  | .nodeRx k, op => s.atNode k (fun n => ((op n.rxq).1, { n with rxq := (op n.rxq).2 }))
  | .nodeTx k, op => s.atNode k (fun n => ((op n.txq).1, { n with txq := (op n.txq).2 }))

theorem exec_qEnq (q : QueueId) (m : List Byte) (s : State) :
    exec (.qEnq q m) s = s.atQueue q (fun c => c.put m) := by cases q <;> rfl

theorem exec_qDeq (q : QueueId) (s : State) : exec (.qDeq q) s = s.atQueue q Queue.get := by cases q <;> rfl

theorem exec_qEmpty (q : QueueId) (s : State) :
    exec (.qEmpty q) s = s.atQueue q (fun c => (.truth c.empty, c)) := by cases q <;> rfl

theorem queueList_eq (s : State) (q : QueueId) : s.queueList q = (s.queue? q).map Queue.list := by
  cases q with
  | hubRx => rfl
  | nodeRx k | nodeTx k => simp only [State.queueList, State.queue?]; cases s.node? k <;> rfl

theorem ring_eq (s : State) (q : QueueId) : s.ring q = (s.queue? q).map Queue.ring := by
  cases q with
  | hubRx => rfl
  | nodeRx k | nodeTx k => simp only [State.ring, State.queue?]; cases s.node? k <;> rfl

/-- The ring invariant, said of the registers at `q`, is that of the queue controller there. -/
theorem ringWf_iff {s : State} {q : QueueId} {c : Queue (queueCap q)} (h : s.queue? q = some c) :
    s.ringWf q ↔ c.Wf := by
  simp [State.ringWf, ring_eq, h, Queue.ring]

/-- Where there are a content and ring registers there is a queue controller, and they are its own. -/
theorem queue?_of_content {s : State} {q : QueueId} {l : List (List Byte)} {h tl n : Nat}
    (hl : s.queueList q = some l) (hr : s.ring q = some (h, tl, n)) :
    ∃ c, s.queue? q = some c ∧ c.list = l ∧ c.head.val = h ∧ c.tail.val = tl ∧ c.count.val = n := by
  obtain ⟨c, hc, hlist⟩ := Option.map_eq_some_iff.mp (queueList_eq s q ▸ hl)
  rw [ring_eq, hc] at hr
  cases hr
  exact ⟨c, hc, hlist, rfl, rfl, rfl⟩

/-! ### An operation at a queue -/

/-- What an operation at a queue answers when the queue is there. -/
theorem atQueue_some {s : State} {q : QueueId} {c : Queue (queueCap q)} (h : s.queue? q = some c)
    (op : Queue (queueCap q) → Result × Queue (queueCap q)) :
    s.atQueue q op = .next ((s.start.mapQueue q (fun c => (op c).2)).ret (op c).1) := by
  cases q with
  | hubRx => cases h; rfl
  | nodeRx k | nodeTx k =>
    obtain ⟨n, hn, rfl⟩ := Option.map_eq_some_iff.mp h
    exact atNode_some hn _

/-- If an operation at a queue answers a next state, the queue is there. -/
theorem atQueue_next {s t : State} {q : QueueId} {op : Queue (queueCap q) → Result × Queue (queueCap q)}
    (h : s.atQueue q op = .next t) :
    ∃ c, s.queue? q = some c ∧ t = (s.start.mapQueue q (fun c => (op c).2)).ret (op c).1 := by
  cases hc : s.queue? q with
  | some c =>
    rw [atQueue_some hc] at h
    cases h
    exact ⟨c, rfl, rfl⟩
  | none =>
    cases q with
    | hubRx => cases hc
    | nodeRx k | nodeTx k =>
      obtain ⟨n, hn, _⟩ := atNode_next h
      cases hn.symm.trans (Option.map_eq_none_iff.mp hc)

/-! ### What an update of a queue leaves alone -/

/-- What an update of a node keeps, a look-up finds again. -/
theorem node?_mapNode_map {α : Type} (g : Node → α) (s : State) (k a : Addr) {f : Node → Node}
    (hf : ∀ n : Node, n.OpFrame (f n)) (hg : ∀ n, g (f n) = g n) :
    ((s.mapNode k f).node? a).map g = (s.node? a).map g := by
  by_cases h : a = k
  · subst h
    rw [node?_mapNode_self s a f fun n => (hf n).addr.trans, Option.map_map]
    exact congrArg (fun g' => (s.node? a).map g') (funext hg)
  · rw [node?_mapNode_other s k a f (fun n => (hf n).addr.trans) h]

theorem queue?_mapQueue_self (s : State) (q : QueueId) (f : Queue (queueCap q) → Queue (queueCap q)) :
    (s.mapQueue q f).queue? q = (s.queue? q).map f := by
  cases q with
  | hubRx => rfl
  | nodeRx k =>
    refine (congrArg (Option.map Node.rxq)
      (node?_mapNode_self s k _ fun n => (mapRxq_opFrame f n).addr.trans)).trans ?_
    simp only [State.queue?]
    cases s.node? k <;> rfl
  | nodeTx k =>
    refine (congrArg (Option.map Node.txq)
      (node?_mapNode_self s k _ fun n => (mapTxq_opFrame f n).addr.trans)).trans ?_
    simp only [State.queue?]
    cases s.node? k <;> rfl

theorem queue?_mapQueue_other (s : State) {q q' : QueueId} (h : q' ≠ q)
    (f : Queue (queueCap q) → Queue (queueCap q)) : (s.mapQueue q f).queue? q' = s.queue? q' := by
  cases q with
  | hubRx =>
    cases q' with
    | hubRx => exact absurd rfl h
    | nodeRx a | nodeTx a => rfl
  | nodeRx k =>
    cases q' with
    | hubRx => rfl
    | nodeRx a =>
      have ha : a ≠ k := fun e => h (e ▸ rfl)
      exact congrArg (Option.map Node.rxq)
        (node?_mapNode_other s k a _ (fun n => (mapRxq_opFrame f n).addr.trans) ha)
    | nodeTx a => exact node?_mapNode_map Node.txq s k a (mapRxq_opFrame f) fun _ => rfl
  | nodeTx k =>
    cases q' with
    | hubRx => rfl
    | nodeRx a => exact node?_mapNode_map Node.rxq s k a (mapTxq_opFrame f) fun _ => rfl
    | nodeTx a =>
      have ha : a ≠ k := fun e => h (e ▸ rfl)
      exact congrArg (Option.map Node.txq)
        (node?_mapNode_other s k a _ (fun n => (mapTxq_opFrame f n).addr.trans) ha)

theorem mapQueue_onlyQueue {s : State} {q : QueueId} {c : Queue (queueCap q)} (h : s.queue? q = some c)
    (f : Queue (queueCap q) → Queue (queueCap q)) (r : Result) : s.OnlyQueue ((s.start.mapQueue q f).ret r) q := by
  cases q with
  | hubRx => exact ⟨⟨rfl, rfl, rfl, rfl, rfl, rfl, rfl⟩, rfl⟩
  | nodeRx k =>
    obtain ⟨n, hn, _⟩ := Option.map_eq_some_iff.mp h
    exact ⟨(mapNode_onlyNode s k (mapRxq_opFrame f)).ret r, n, n.mapRxq f, hn,
      node?_mapNode_some (s := s.start) hn fun m => (mapRxq_opFrame f m).addr, rfl⟩
  | nodeTx k =>
    obtain ⟨n, hn, _⟩ := Option.map_eq_some_iff.mp h
    exact ⟨(mapNode_onlyNode s k (mapTxq_opFrame f)).ret r, n, n.mapTxq f, hn,
      node?_mapNode_some (s := s.start) hn fun m => (mapTxq_opFrame f m).addr, rfl⟩

/-- What an operation at a queue answers, and all that differs after it. -/
theorem atQueue_spec {s : State} {q : QueueId} {c : Queue (queueCap q)} (h : s.queue? q = some c)
    (op : Queue (queueCap q) → Result × Queue (queueCap q)) :
    ∃ t, s.atQueue q op = .next t ∧ t.out = (op c).1 ∧ t.queue? q = some (op c).2 ∧ s.OnlyQueue t q ∧
      ∀ q', q' ≠ q → t.queue? q' = s.queue? q' := by
  refine ⟨_, atQueue_some h op, rfl, ?_, mapQueue_onlyQueue h _ _,
    fun q' hq => queue?_mapQueue_other s.start hq _⟩
  calc (s.start.mapQueue q (fun c => (op c).2)).queue? q
      = (s.queue? q).map (fun c => (op c).2) := queue?_mapQueue_self s.start q _
    _ = some (op c).2 := by rw [h, Option.map_some]

/-- Where no two nodes share an address, an update that leaves the one node there as it is changes nothing. -/
theorem mapNode_eq_self {s : State} {k : Addr} {n : Node} {f : Node → Node} (hd : (s.nodes.map Node.addr).Nodup)
    (hn : s.node? k = some n) (hf : f n = n) : s.mapNode k f = s := by
  obtain ⟨hmem, haddr⟩ := node?_spec hn
  have hkept : ∀ m ∈ s.nodes, (if m.addr = k then f m else m) = m := by
    intro m hm
    split
    · next hk => rw [List.inj_on_of_nodup_map hd hm hmem (hk.trans haddr.symm), hf]
    · rfl
  exact congrArg (fun ns => { s with nodes := ns }) ((List.map_congr_left hkept).trans (List.map_id s.nodes))

theorem mapQueue_eq_self {s : State} {q : QueueId} {c : Queue (queueCap q)}
    {f : Queue (queueCap q) → Queue (queueCap q)} (hd : (s.nodes.map Node.addr).Nodup) (hc : s.queue? q = some c)
    (hf : f c = c) : s.mapQueue q f = s := by
  cases q with
  | hubRx =>
    cases hc
    simp only [State.mapQueue, State.mapHub, hf]
  | nodeRx k | nodeTx k =>
    obtain ⟨n, hn, rfl⟩ := Option.map_eq_some_iff.mp hc
    exact mapNode_eq_self hd hn (by simp only [Node.mapRxq, Node.mapTxq, hf])

/-- Where no two nodes share an address, an operation that leaves the queue as it is changes nothing but the result. -/
theorem atQueue_unchanged {s : State} {q : QueueId} {c : Queue (queueCap q)}
    {op : Queue (queueCap q) → Result × Queue (queueCap q)} (hd : (s.nodes.map Node.addr).Nodup)
    (hc : s.queue? q = some c) (hop : (op c).2 = c) : s.atQueue q op = .next (s.start.ret (op c).1) := by
  rw [atQueue_some hc, mapQueue_eq_self (s := s.start) hd hc hop]

theorem mapQueue_id (s : State) (q : QueueId) : s.mapQueue q (fun c => c) = s := by
  cases q with
  | hubRx => rfl
  | nodeRx k | nodeTx k => simp [State.mapQueue, State.mapNode, Node.mapRxq, Node.mapTxq]

/-! ### Q.ENQ and Q.DEQ on a queue (R90, R91) -/

section

variable {cap : Nat} {c : Queue cap}

theorem Queue.put_full (h : c.count.val = cap) (m : List Byte) : c.put m = (.queueFull, c) := by
  rw [Queue.put, Queue.enqueue_full h]

theorem Queue.put_room (hw : c.Wf) (h : c.count.val < cap) {m : List Byte} (hm : m.length ≤ 16) :
    ∃ c', c.put m = (.ok, c') ∧ c'.list = c.list ++ [m] ∧ c'.Wf ∧
      c'.ring = (c.head.val, (c.tail.val + 1) % cap, c.count.val + 1) := by
  obtain ⟨c', he, hlist, hw', hcount, hhead, htail, _⟩ := Queue.enqueue_room hw h m
  rw [List.take_of_length_le hm] at hlist
  refine ⟨c', by rw [Queue.put, he], hlist, hw', ?_⟩
  rw [Queue.ring, hhead, htail, hcount, nextIndex_val]

theorem Queue.get_empty (h : c.count.val = 0) : c.get = (.queueEmpty, c) := by
  rw [Queue.get, Queue.dequeue_empty h]

theorem Queue.get_some (h : c.count.val ≠ 0) :
    ∃ m c', c.get = (.msg m, c') ∧ c.list = m :: c'.list ∧ (c.Wf → c'.Wf) ∧
      c'.ring = ((c.head.val + 1) % cap, c.tail.val, c.count.val - 1) := by
  obtain ⟨m, c', hd, hlist, hw, hcount, hhead, htail, _⟩ := Queue.dequeue_some h
  refine ⟨m, c', by rw [Queue.get, hd], hlist, hw, ?_⟩
  rw [Queue.ring, hhead, htail, hcount, nextIndex_val]

theorem Queue.list_eq_nil_iff : c.list = [] ↔ c.count.val = 0 := by
  rw [← List.length_eq_zero_iff, Queue.list_length]

end

/-! ### The bounded first-in first-out list (R93) -/

/-- An operation on a queue, as its port shows it. -/
def QueueOp.onQueue {cap : Nat} : QueueOp → Queue cap → Result × Queue cap
  | .enq m => fun c => c.put m
  | .deq => Queue.get

/-- An operation on a first-in first-out list bounded by `cap`. -/
def QueueOp.onList (cap : Nat) : QueueOp → List (List Byte) → Result × List (List Byte)
  | .enq m, l => if l.length = cap then (.queueFull, l) else (.ok, l ++ [m])
  | .deq, [] => (.queueEmpty, [])
  | .deq, m :: l => (.msg m, l)

theorem fifoRun_cons (cap : Nat) (l : List (List Byte)) (op : QueueOp) (ops : List QueueOp) :
    fifoRun cap l (op :: ops) =
      ((op.onList cap l).1 :: (fifoRun cap (op.onList cap l).2 ops).1, (fifoRun cap (op.onList cap l).2 ops).2) := by
  cases op with
  | enq m =>
    simp only [fifoRun, QueueOp.onList]
    split <;> rfl
  | deq => cases l <;> rfl

theorem queueRun_cons {s t : State} {q : QueueId} {op : QueueOp} (h : s.atQueue q op.onQueue = .next t)
    (ops : List QueueOp) : queueRun q s (op :: ops) = (queueRun q t ops).map (fun x => (t.out :: x.1, x.2)) := by
  cases op with
  | enq m =>
    have hexec : exec (.qEnq q m) s = .next t := (exec_qEnq q m s).trans h
    simp only [queueRun, hexec]
  | deq =>
    have hexec : exec (.qDeq q) s = .next t := (exec_qDeq q s).trans h
    simp only [queueRun, hexec]

/-- One operation on a queue is the same operation on its content, and keeps the ring invariant. -/
theorem onQueue_refines {cap : Nat} {c : Queue cap} (hw : c.Wf) {op : QueueOp}
    (hop : ∀ m, op = .enq m → m.length ≤ 16) :
    (op.onQueue c).1 = (op.onList cap c.list).1 ∧ (op.onQueue c).2.list = (op.onList cap c.list).2 ∧
      (op.onQueue c).2.Wf := by
  cases op with
  | enq m =>
    simp only [QueueOp.onQueue, QueueOp.onList, Queue.list_length]
    by_cases h : c.count.val = cap
    · rw [Queue.put_full h, if_pos h]
      exact ⟨rfl, rfl, hw⟩
    · obtain ⟨c', hput, hlist, hw', _⟩ := Queue.put_room hw (by omega) (hop m rfl)
      rw [hput, if_neg h]
      exact ⟨rfl, hlist, hw'⟩
  | deq =>
    simp only [QueueOp.onQueue]
    by_cases h : c.count.val = 0
    · rw [Queue.get_empty h, Queue.list_eq_nil_iff.mpr h]
      exact ⟨rfl, rfl, hw⟩
    · obtain ⟨m, c', hget, hlist, hkeeps, _⟩ := Queue.get_some h
      rw [hget, hlist]
      exact ⟨rfl, rfl, hkeeps hw⟩

/-- A sequence of operations at a queue is the same sequence on its content (R93). -/
theorem queueRun_refines {s : State} {q : QueueId} {c : Queue (queueCap q)} {ops : List QueueOp}
    (hc : s.queue? q = some c) (hw : c.Wf) (hops : ∀ m, QueueOp.enq m ∈ ops → m.length ≤ 16) :
    ∃ t c', queueRun q s ops = some ((fifoRun (queueCap q) c.list ops).1, t) ∧ t.queue? q = some c' ∧
      c'.list = (fifoRun (queueCap q) c.list ops).2 ∧ c'.Wf := by
  induction ops generalizing s c with
  | nil => exact ⟨s, c, rfl, hc, rfl, hw⟩
  | cons op ops ih =>
    obtain ⟨hout, hlist, hw'⟩ := onQueue_refines hw (op := op) fun m hm => hops m (hm ▸ List.mem_cons_self)
    obtain ⟨u, hu, huout, huq, _⟩ := atQueue_spec hc op.onQueue
    obtain ⟨t, c', hrun, hq, hlist', hw''⟩ := ih huq hw' fun m hm => hops m (List.mem_cons_of_mem op hm)
    rw [hlist] at hrun hlist'
    refine ⟨t, c', ?_, hq, ?_, hw''⟩
    · rw [queueRun_cons hu, hrun, fifoRun_cons, huout, hout, Option.map_some]
    · rw [fifoRun_cons, hlist']

/-! ### The storage arrays (R40) -/

/-- The bytes of a slot past a message written to it stay. -/
theorem Slot.write_data_drop (c : Slot) {m : List Byte} {i : Nat} (h : m.length ≤ i) :
    (c.write m).data.toList.drop i = c.data.toList.drop i := by
  have hdrop : (m ++ c.data.toList.drop m.length).drop i = c.data.toList.drop i := by
    rw [List.drop_append, List.drop_of_length_le h, List.nil_append, List.drop_drop, Nat.add_sub_cancel' h]
  calc ((m ++ c.data.toList.drop m.length).take 16).drop i
      = (c.data.toList.drop i).take (16 - i) := by rw [List.drop_take, hdrop]
    _ = c.data.toList.drop i := List.take_of_length_le (by simp)

theorem Queue.slotBytes_congr {cap : Nat} {c c' : Queue cap} (h : c'.slots = c.slots) (j : Nat) :
    c'.slotBytes j = c.slotBytes j := by
  rw [Queue.slotBytes, Queue.slotBytes, h]

/-- A dequeue writes no slot. -/
theorem Queue.dequeue_slots {cap : Nat} {c c' : Queue cap} {m : List Byte} (h : c.dequeue = some (m, c')) :
    c'.slots = c.slots := by
  have hc : c.count.val ≠ 0 := fun hc => by rw [Queue.dequeue_empty hc] at h; cases h
  obtain ⟨m₁, c₁, hd, _, _, _, _, _, hslots⟩ := Queue.dequeue_some hc
  cases h.symm.trans hd
  exact hslots

theorem Queue.get_slots {cap : Nat} (c : Queue cap) : c.get.2.slots = c.slots := by
  unfold Queue.get
  split
  · exact Queue.dequeue_slots ‹_›
  · rfl

theorem Queue.put_slots {cap : Nat} {c : Queue cap} (h : c.count.val ≠ cap) (m : List Byte) :
    (c.put m).2.slots = c.slots.set c.tail ((c.slots[c.tail]).write m) := by
  rw [Queue.put, Queue.enqueue, dif_neg h]

/-- Q.ENQ stores to the first `|m|` bytes of the slot at the tail, and to none when the queue is full. -/
theorem Queue.put_slotBytes_drop {cap : Nat} (c : Queue cap) {m : List Byte} {i j : Nat}
    (h : ¬(j = c.tail.val ∧ i < m.length ∧ c.count.val < cap)) :
    ((c.put m).2.slotBytes j).drop i = (c.slotBytes j).drop i := by
  by_cases hfull : c.count.val = cap
  · rw [Queue.put_full hfull]
  · unfold Queue.slotBytes
    split
    · next hj =>
      simp only [Queue.put_slots hfull, Fin.getElem_fin]
      by_cases htail : j = c.tail.val
      · have hi : m.length ≤ i := by omega
        subst htail
        rw [Vector.getElem_set_self]
        exact Slot.write_data_drop _ hi
      · rw [Vector.getElem_set_ne _ _ (Ne.symm htail)]
    · rfl

/-- What a reading at index `i` finds is what stands from `i` on (R12). -/
theorem memRead_eq_of_drop {s t : State} {sp : Space} {i : Nat}
    (h : (t.space sp).drop i = (s.space sp).drop i) (n : Nat) : t.memRead sp i n = s.memRead sp i n := by
  rw [State.memRead, State.memRead, h]

theorem space_dfBuf (s : State) (a : Addr) :
    s.space (.dfBuf a) = ((s.node? a).map (fun n => n.df.buf.toList)).getD [] := by
  simp only [State.space]
  cases s.node? a <;> rfl

theorem space_nodeRx (s : State) (a : Addr) (j : Nat) :
    s.space (.slotData (.nodeRx a) j) = ((s.node? a).map (fun n => n.rxq.slotBytes j)).getD [] := by
  simp only [State.space]
  cases s.node? a <;> rfl

theorem space_nodeTx (s : State) (a : Addr) (j : Nat) :
    s.space (.slotData (.nodeTx a) j) = ((s.node? a).map (fun n => n.txq.slotBytes j)).getD [] := by
  simp only [State.space]
  cases s.node? a <;> rfl

theorem space_slotData (s : State) (q : QueueId) (j : Nat) :
    s.space (.slotData q j) = ((s.queue? q).map (fun c => c.slotBytes j)).getD [] := by
  cases q with
  | hubRx => rfl
  | nodeRx k | nodeTx k =>
    simp only [State.space, State.queue?]
    cases s.node? k <;> rfl

/-- The deframers are no part of the queues. -/
theorem node?_mapQueue_df (s : State) (q : QueueId) (f : Queue (queueCap q) → Queue (queueCap q)) (a : Addr) :
    ((s.mapQueue q f).node? a).map (fun n => n.df.buf.toList) = (s.node? a).map (fun n => n.df.buf.toList) := by
  cases q with
  | hubRx => rfl
  | nodeRx k => exact node?_mapNode_map _ s k a (mapRxq_opFrame f) fun _ => rfl
  | nodeTx k => exact node?_mapNode_map _ s k a (mapTxq_opFrame f) fun _ => rfl

/-- An update of a queue stores to no slot of another, to no deframer and not to the roster. -/
theorem space_mapQueue_other (s : State) {q : QueueId} {sp : Space} (h : ∀ j, sp ≠ .slotData q j)
    (f : Queue (queueCap q) → Queue (queueCap q)) : (s.mapQueue q f).space sp = s.space sp := by
  cases sp with
  | dfBuf a => rw [space_dfBuf, space_dfBuf, node?_mapQueue_df]
  | slotData q' j =>
    have hq : q' ≠ q := fun e => h j (e ▸ rfl)
    rw [space_slotData, space_slotData, queue?_mapQueue_other s hq]
  | roster => cases q <;> rfl

theorem space_mapQueue_self {s : State} {q : QueueId} {c : Queue (queueCap q)} (h : s.queue? q = some c)
    (f : Queue (queueCap q) → Queue (queueCap q)) (j : Nat) :
    (s.mapQueue q f).space (.slotData q j) = (f c).slotBytes j := by
  rw [space_slotData, queue?_mapQueue_self, h]
  rfl

/-- An update of a queue that keeps the slots stores nothing. -/
theorem space_mapQueue_of_slots (s : State) (q : QueueId) {f : Queue (queueCap q) → Queue (queueCap q)}
    (hf : ∀ c, (f c).slots = c.slots) (sp : Space) : (s.mapQueue q f).space sp = s.space sp := by
  by_cases h : ∃ j, sp = .slotData q j
  · obtain ⟨j, rfl⟩ := h
    rw [space_slotData, space_slotData, queue?_mapQueue_self, Option.map_map]
    simp only [Function.comp_def, Queue.slotBytes_congr (hf _)]
  · exact space_mapQueue_other s (not_exists.mp h) f

/-- The storage arrays of a node, its deframer's buffer and its queues' slots (R40), are the same. -/
structure Node.SameStorage (n m : Node) : Prop where
  buf : m.df.buf = n.df.buf
  rxq : m.rxq.slots = n.rxq.slots
  txq : m.txq.slots = n.txq.slots

theorem req_sameStorage (n : Node) : n.SameStorage n.req.2 := by
  obtain ⟨_, e⟩ | ⟨_, _, e⟩ | ⟨_, _, _, e⟩ | ⟨_, _, m, c, hd, e⟩ := req_cases n <;> rw [e]
  · exact ⟨rfl, rfl, rfl⟩
  · exact ⟨rfl, rfl, rfl⟩
  · exact ⟨rfl, rfl, rfl⟩
  · exact ⟨rfl, rfl, Queue.dequeue_slots hd⟩

theorem get_sameStorage (n : Node) : n.SameStorage n.get.2 := by
  obtain ⟨_, e⟩ | ⟨m, c, hd, e⟩ := get_cases n <;> rw [e]
  · exact ⟨rfl, rfl, rfl⟩
  · exact ⟨rfl, Queue.dequeue_slots hd, rfl⟩

/-- An operation at a node that stores nothing there stores nothing at all. -/
theorem space_mapNode (s : State) (k : Addr) {f : Node → Node} (hop : ∀ n : Node, n.OpFrame (f n))
    (hf : ∀ n : Node, n.SameStorage (f n)) (sp : Space) : (s.mapNode k f).space sp = s.space sp := by
  cases sp with
  | dfBuf a => rw [space_dfBuf, space_dfBuf, node?_mapNode_map _ s k a hop fun n => by rw [(hf n).buf]]
  | slotData q j =>
    cases q with
    | hubRx => rfl
    | nodeRx a =>
      rw [space_nodeRx, space_nodeRx, node?_mapNode_map _ s k a hop fun n => Queue.slotBytes_congr (hf n).rxq j]
    | nodeTx a =>
      rw [space_nodeTx, space_nodeTx, node?_mapNode_map _ s k a hop fun n => Queue.slotBytes_congr (hf n).txq j]
  | roster => rfl

theorem space_atNode {s t : State} {k : Addr} {op : Node → Result × Node} (hop : ∀ n : Node, n.OpFrame (op n).2)
    (hf : ∀ n : Node, n.SameStorage (op n).2) (h : s.atNode k op = .next t) (sp : Space) :
    t.space sp = s.space sp := by
  obtain ⟨n, _, rfl⟩ := atNode_next h
  exact space_mapNode s.start k hop hf sp

theorem space_atQueue {s t : State} {q : QueueId} {op : Queue (queueCap q) → Result × Queue (queueCap q)}
    (hop : ∀ c, (op c).2.slots = c.slots) (h : s.atQueue q op = .next t) (sp : Space) : t.space sp = s.space sp := by
  obtain ⟨c, _, rfl⟩ := atQueue_next h
  exact space_mapQueue_of_slots s.start q hop sp

/-- Bytes that bring the hub no message store nothing. -/
theorem space_arrive_toHub {s t : State} {bs : List Byte} (hp : polledMessage (bs.take 8) = none)
    (h : s.arrive .toHub bs = .next t) (sp : Space) : t.space sp = s.space sp := by
  rw [arrive_toHub_nothing s hp] at h
  cases h
  rfl

/-! ### The statements -/

/-- Settles O20: by induction on the operations (`queueRun_refines`), each the same on the queue and on its content. -/
theorem queuesAreFifo : Obligations.QueuesAreFifo := by
  unfold Obligations.QueuesAreFifo
  intro s q l ops hl hw hops
  obtain ⟨c, hc, rfl⟩ := Option.map_eq_some_iff.mp (queueList_eq s q ▸ hl)
  obtain ⟨t, c', hrun, hq, hlist, hw'⟩ := queueRun_refines hc ((ringWf_iff hc).mp hw) hops
  exact ⟨t, hrun, by rw [queueList_eq, hq, Option.map_some, hlist], (ringWf_iff hq).mpr hw'⟩

/-- Settles O17: `Queue.put_full` and `Queue.put_room`, at the queue named. -/
theorem enqueueAppendsOrFails : Obligations.EnqueueAppendsOrFails := by
  unfold Obligations.EnqueueAppendsOrFails
  intro s q m l h tl n hl hr hw hm
  obtain ⟨c, hc, rfl, rfl, rfl, rfl⟩ := queue?_of_content hl hr
  rw [ringWf_iff hc] at hw
  simp only [exec_qEnq, queueList_eq, ring_eq]
  obtain ⟨t, ht, hout, hq, honly, hothers⟩ := atQueue_spec hc (fun c => c.put m)
  obtain ⟨_, _, hw'⟩ := onQueue_refines hw (op := .enq m) fun m' hm' => by cases hm'; exact hm
  refine ⟨t, ht, honly, (ringWf_iff hq).mpr hw', fun q' hne => by simp only [hothers q' hne, and_self],
    fun hfull => ?_, fun hroom => ?_⟩
  · have hput := Queue.put_full hfull m
    rw [hout, hq, hput]
    refine ⟨rfl, rfl, rfl, fun hd => ?_⟩
    have hsame := atQueue_unchanged hd hc (op := fun c => c.put m) (congrArg Prod.snd hput)
    rw [ht, hput] at hsame
    cases hsame
    rfl
  · obtain ⟨c', hput, hlist, _, hring⟩ := Queue.put_room hw hroom hm
    rw [hout, hq, hput, Option.map_some, hlist, Option.map_some, hring]
    exact ⟨rfl, rfl, rfl⟩

/-- Settles O18: `Queue.get_empty` and `Queue.get_some`, at the queue named. -/
theorem dequeueTakesOldest : Obligations.DequeueTakesOldest := by
  unfold Obligations.DequeueTakesOldest
  intro s q l h tl n hl hr hw
  obtain ⟨c, hc, rfl, rfl, rfl, rfl⟩ := queue?_of_content hl hr
  rw [ringWf_iff hc] at hw
  simp only [exec_qDeq, queueList_eq, ring_eq]
  obtain ⟨t, ht, hout, hq, honly, hothers⟩ := atQueue_spec hc Queue.get
  obtain ⟨_, _, hw'⟩ := onQueue_refines hw (op := .deq) nofun
  refine ⟨t, ht, honly, (ringWf_iff hq).mpr hw', fun q' hne => by simp only [hothers q' hne, and_self],
    fun hempty => ?_, fun hsome => ?_⟩
  · have hnil := Queue.list_eq_nil_iff.mpr hempty
    rw [hout, hq, Queue.get_empty hempty, Option.map_some, hnil]
    exact ⟨rfl, rfl, rfl, rfl⟩
  · obtain ⟨m, c', hget, hlist, _, hring⟩ := Queue.get_some hsome
    rw [hout, hq, hget, Option.map_some, Option.map_some, hring]
    exact ⟨m, c'.list, hlist, rfl, rfl, rfl⟩

/-- Settles O21: for the slots of `q` it is `Queue.put_slotBytes_drop`, and no other byte is part of that queue. -/
theorem enqueueStoresOneSlot : Obligations.EnqueueStoresOneSlot := by
  unfold Obligations.EnqueueStoresOneSlot
  intro s t q m h tl n hr ht sp i hsp
  obtain ⟨c, hc, hring⟩ := Option.map_eq_some_iff.mp (ring_eq s q ▸ hr)
  cases hring
  rw [exec_qEnq, atQueue_some hc] at ht
  cases ht
  refine memRead_eq_of_drop ?_ 1
  by_cases hslot : ∃ j, sp = .slotData q j
  · obtain ⟨j, rfl⟩ := hslot
    have hbytes := Queue.put_slotBytes_drop c fun htail => hsp ⟨congrArg (Space.slotData q) htail.1, htail.2⟩
    rw [space_slotData s, hc]
    exact (congrArg (List.drop i) (space_mapQueue_self (s := s.start) hc _ j)).trans hbytes
  · exact congrArg (List.drop i) (space_mapQueue_other s.start (not_exists.mp hslot) _)

/-- Settles O22: a dequeue keeps the slots, and the other operations touch no array. -/
theorem readersStoreNothing : Obligations.ReadersStoreNothing := by
  unfold Obligations.ReadersStoreNothing
  intro s t i q k m copy hi h sp j
  refine memRead_eq_of_drop (congrArg (List.drop j) ?_) 1
  simp only [List.mem_cons, List.not_mem_nil, or_false] at hi
  obtain rfl | rfl | rfl | rfl | rfl | rfl | rfl | rfl | rfl := hi
  · exact space_atQueue (fun c => Queue.get_slots c) (exec_qDeq q s ▸ h) sp
  · exact space_atQueue (fun c => rfl) (exec_qEmpty q s ▸ h) sp
  · exact space_atNode req_opFrame req_sameStorage h sp
  · exact space_atNode get_opFrame get_sameStorage h sp
  · cases m <;> cases h <;> rfl
  · cases h; rfl
  · exact space_arrive_toHub (bs := [NO_DATA]) (by decide) h sp
  · exact space_arrive_toHub (bs := [ACK]) (by decide) h sp
  · exact space_arrive_toHub (bs := [NULL]) (by decide) h sp

/-- Settles O19: the operation leaves the queue as it is, and a content is empty when its length, the count, is 0. -/
theorem emptyTestReadsCount : Obligations.EmptyTestReadsCount := by
  unfold Obligations.EmptyTestReadsCount
  intro s q l h tl n hl hr
  obtain ⟨c, hc, rfl, rfl, rfl, rfl⟩ := queue?_of_content hl hr
  refine ⟨_, (exec_qEmpty q s).trans (atQueue_some hc _), rfl, Queue.list_eq_nil_iff.symm, ?_⟩
  rw [mapQueue_id]
  rfl

end Sys2Proof.Machine
end

section
/-! PROOFS for 42_node.md (O23 to O29, O36, O44): the node agent. Each of its four operations is said once of the node
alone (N.REQ by the pending command, N.RECV of one byte by its event and of the framed form of an intact message as one
acceptance, `recv_framed`), and read off at the node's port; O44 follows a message from N.SEND over one exchange of the
reference bus into H.GET. -/

namespace Sys2Proof.Machine

open Sys2Proof.Config

/-! ### The operations at the ports of a node that is there (R78) -/

section

variable {s : State} {k : Addr} {n : Node} (h : s.node? k = some n)
include h

theorem exec_nRecv_spec (bs : List Byte) :
    ∃ t, exec (.nRecv k bs) s = .next t ∧ t.out = .nothing ∧ s.OnlyNode t k ∧ t.node? k = some (n.recv bs) :=
  atNode_spec h fun m => recv_opFrame m bs

theorem exec_nReq_spec :
    ∃ t, exec (.nReq k) s = .next t ∧ t.out = .reply n.req.1 ∧ s.OnlyNode t k ∧ t.node? k = some n.req.2 :=
  atNode_spec h req_opFrame

theorem exec_nSend_spec (d : List Byte) :
    ∃ t, exec (.nSend k d) s = .next t ∧ t.out = (n.send d).1 ∧ s.OnlyNode t k ∧ t.node? k = some (n.send d).2 :=
  atNode_spec h fun m => send_opFrame m d

theorem exec_nGet_spec :
    ∃ t, exec (.nGet k) s = .next t ∧ t.out = n.get.1 ∧ s.OnlyNode t k ∧ t.node? k = some n.get.2 :=
  atNode_spec h get_opFrame

end

/-! ### A queue by its content (R90, R91) -/

theorem Queue.put_wf {cap : Nat} {c : Queue cap} (hw : c.Wf) (m : List Byte) : (c.put m).2.Wf := by
  by_cases hfull : c.count.val = cap
  · rw [Queue.put_full hfull]; exact hw
  · obtain ⟨c', he, _, hw', _⟩ := Queue.enqueue_room hw (by omega) m
    rw [Queue.put, he]; exact hw'

/-- A dequeue answers the oldest message and leaves the others. -/
theorem Queue.dequeue_of_list {cap : Nat} {c : Queue cap} {m : List Byte} {rest : List (List Byte)}
    (h : c.list = m :: rest) : ∃ c', c.dequeue = some (m, c') ∧ c'.list = rest ∧ (c.Wf → c'.Wf) := by
  have hc : c.count.val ≠ 0 := fun hc => by simp [Queue.list_eq_nil_iff.mpr hc] at h
  obtain ⟨m', c', hd, hlist, hw, _⟩ := Queue.dequeue_some hc
  obtain ⟨rfl, rfl⟩ := List.cons.inj (hlist.symm.trans h)
  exact ⟨c', hd, rfl, hw⟩

/-! ### N.SEND and N.GET (R102, R103) -/

/-- N.SEND with room in `node_txq` appends the prefixed payload (R102). -/
theorem send_room {n : Node} (hw : n.txq.Wf) (hroom : n.txq.count.val < 20) (d : List Byte) :
    (n.send d).1 = .ok ∧ (n.send d).2.txq.list = n.txq.list ++ [nodeMsg n.addr d] := by
  have hlen : (nodeMsg n.addr d).length ≤ 16 := by simp [nodeMsg]
  obtain ⟨q, hput, hlist, _⟩ := Queue.put_room hw hroom hlen
  rw [Node.send, hput]
  exact ⟨rfl, hlist⟩

/-- N.SEND with `node_txq` full changes nothing (R102). -/
theorem send_full {n : Node} (hfull : n.txq.count.val = 20) (d : List Byte) : n.send d = (.queueFull, n) := by
  rw [Node.send, Queue.put_full hfull]

theorem get_noData {n : Node} (h : n.rxq.list = []) : n.get = (.noData, n) := by
  rw [Node.get, dequeue_eq_none_iff.mpr h]

/-- N.GET takes the oldest message out of `node_rxq` and drops its address byte (R103). -/
theorem get_data {n : Node} {m : List Byte} {rest : List (List Byte)} (h : n.rxq.list = m :: rest) :
    ∃ q, n.get = (.data m.tail, { n with rxq := q }) ∧ q.list = rest ∧ (n.rxq.Wf → q.Wf) := by
  obtain ⟨q, hd, hlist, hw⟩ := Queue.dequeue_of_list h
  exact ⟨q, by rw [Node.get, hd, ← List.drop_one], hlist, hw⟩

/-! ### N.REQ by the pending command (R101, R104) -/

theorem pending_eq_none_iff {n : Node} : n.pending = none ↔ n.pcValid = false := by simp [Node.pending]

theorem pending_eq_some_iff {n : Node} {c : Byte} : n.pending = some c ↔ n.pcValid = true ∧ n.pcCmd = c := by
  simp [Node.pending]

section

variable {n : Node}

theorem req_noCommand (h : n.pending = none) : n.req = ([NO_DATA], n) := by
  have hv := pending_eq_none_iff.mp h
  rw [Node.req, if_pos hv, ← hv]

theorem req_command {c : Byte} (h : n.pending = some c) (hc : c ≠ READ) :
    n.req = ([ACK], { n with pcValid := false }) := by
  obtain ⟨hv, rfl⟩ := pending_eq_some_iff.mp h
  rw [Node.req, if_neg (by simp [hv]), if_pos hc]

theorem req_read_empty (h : n.pending = some READ) (hq : n.txq.list = []) :
    n.req = ([NULL], { n with pcValid := false }) := by
  obtain ⟨hv, hc⟩ := pending_eq_some_iff.mp h
  rw [Node.req, if_neg (by simp [hv]), if_neg (not_not.mpr hc), dequeue_eq_none_iff.mpr hq]

theorem req_read {m : List Byte} {rest : List (List Byte)} (h : n.pending = some READ) (hq : n.txq.list = m :: rest) :
    n.req.1 = m ∧ n.req.2.txq.list = rest := by
  obtain ⟨hv, hc⟩ := pending_eq_some_iff.mp h
  obtain ⟨c', hd, hlist, _⟩ := Queue.dequeue_of_list hq
  rw [Node.req, if_neg (by simp [hv]), if_neg (not_not.mpr hc), hd]
  exact ⟨rfl, hlist⟩

/-- A reply uses the pending command up and changes the outbound queue at most. -/
theorem req_frame (n : Node) :
    n.req.2 = { n with pcValid := false, txq := n.req.2.txq } ∧ (n.txq.Wf → n.req.2.txq.Wf) := by
  obtain ⟨_, e⟩ | ⟨_, _, e⟩ | ⟨_, _, _, e⟩ | ⟨_, _, m, q, hd, e⟩ := req_cases n <;> rw [e]
  · exact ⟨rfl, id⟩
  · exact ⟨rfl, id⟩
  · exact ⟨rfl, id⟩
  · obtain ⟨q', hd', _, hw⟩ := Queue.dequeue_of_list (list_of_dequeue hd)
    cases hd.symm.trans hd'
    exact ⟨rfl, hw⟩

theorem req_pending (n : Node) : n.req.2.pending = none := by
  rw [pending_eq_none_iff, (req_frame n).1]

theorem req_rxq (n : Node) : n.req.2.rxq = n.rxq := by rw [(req_frame n).1]

theorem req_allocFail (n : Node) : n.req.2.allocFail = n.allocFail := by rw [(req_frame n).1]

end

/-! ### N.RECV: what becomes of a completed packet (R100) -/

theorem controlOnly_iff {c : Byte} : controlOnly c = true ↔ c ∈ [PING, READ, NO_DATA] := by
  simp [controlOnly, or_assoc]

/-- A control-only packet leaves `node_rxq` alone, any other is one Q.ENQ there. -/
theorem accept_rxq (n : Node) (p : List Byte) :
    (n.accept p).rxq = if controlOnly n.df.buf[1] = true then n.rxq else (n.rxq.put p).2 := by
  obtain ⟨hc, h⟩ | ⟨hc, q, hq, h⟩ | ⟨hc, hq, h⟩ := accept_cases n p <;> rw [h, hc]
  · rfl
  · rw [if_neg (by decide), Queue.put, hq]
  · rw [if_neg (by decide), Queue.put, hq]

theorem accept_control {n : Node} (hc : n.df.buf[1] ∈ [PING, READ, NO_DATA]) (p : List Byte) :
    (n.accept p).rxq = n.rxq ∧ (n.accept p).allocFail = n.allocFail := by
  rw [Node.accept, if_pos (controlOnly_iff.mpr hc)]
  exact ⟨rfl, rfl⟩

theorem accept_room {n : Node} (hc : n.df.buf[1] ∉ [PING, READ, NO_DATA]) (hw : n.rxq.Wf)
    (hroom : n.rxq.count.val < 20) {p : List Byte} (hp : p.length ≤ 16) :
    (n.accept p).rxq.list = n.rxq.list ++ [p] ∧ (n.accept p).allocFail = n.allocFail := by
  obtain ⟨q, hq, hlist, _⟩ := Queue.enqueue_room hw hroom p
  rw [Node.accept, if_neg (mt controlOnly_iff.mp hc), hq]
  exact ⟨hlist.trans (by rw [List.take_of_length_le hp]), rfl⟩

theorem accept_full {n : Node} (hc : n.df.buf[1] ∉ [PING, READ, NO_DATA]) (hfull : n.rxq.count.val = 20)
    (p : List Byte) : (n.accept p).rxq = n.rxq ∧ (n.accept p).allocFail = true := by
  rw [Node.accept, if_neg (mt controlOnly_iff.mp hc), Queue.enqueue_full hfull]
  exact ⟨rfl, rfl⟩

theorem accept_pending (n : Node) (p : List Byte) : (n.accept p).pending = some n.df.buf[1] :=
  pending_eq_some_iff.mpr ⟨accept_pcValid n p, accept_pcCmd n p⟩

/-! ### N.RECV of one byte (R100) -/

/-- What N.RECV leaves alone, as one equation. -/
theorem Node.RecvFrame.eq {n m : Node} (h : n.RecvFrame m) :
    m = { n with df := m.df, pcValid := m.pcValid, pcCmd := m.pcCmd, rxq := m.rxq, allocFail := m.allocFail } := by
  obtain ⟨haddr, hpolicy, htxq, hwire⟩ := h
  rw [← haddr, ← hpolicy, ← htxq, ← hwire]

theorem recvByte_noPacket {n : Node} {b : Byte} (h : (n.df.step b).1 = .noPacket) :
    n.recvByte b = { n with df := (n.df.step b).2 } := by
  rw [Node.recvByte, h, onEvent_noPacket]

theorem recvByte_dropped {n : Node} {b : Byte} {p : List Byte} (h : (n.df.step b).1 = .invalid p)
    (hpolicy : n.policy = .drop) : n.recvByte b = { n with df := (n.df.step b).2 } := by
  rw [Node.recvByte, h]
  exact onEvent_invalid_drop (n := { n with df := (n.df.step b).2 }) hpolicy p

theorem recvByte_accepted {n : Node} {b : Byte} {p : List Byte}
    (h : (n.df.step b).1 = .valid p ∨ ((n.df.step b).1 = .invalid p ∧ n.policy = .accept)) :
    n.recvByte b = { n with df := (n.df.step b).2 }.accept p := by
  obtain h | ⟨h, hpolicy⟩ := h
  · rw [Node.recvByte, h, onEvent_valid]
  · rw [Node.recvByte, h]
    exact onEvent_invalid_accept (n := { n with df := (n.df.step b).2 }) hpolicy p

/-- All one byte can do to `node_rxq`: a completed packet is one Q.ENQ there. -/
theorem recvByte_rxq (n : Node) (b : Byte) :
    (n.recvByte b).rxq = n.rxq ∨
      ∃ p, (n.df.step b).1.payload = some p ∧ (n.recvByte b).rxq = (n.rxq.put p).2 := by
  obtain h | ⟨p, hp, h⟩ := onEvent_cases { n with df := (n.df.step b).2 } (n.df.step b).1
  · have hrxq : (n.recvByte b).rxq = n.rxq := by rw [Node.recvByte, h]
    exact .inl hrxq
  · rw [Node.recvByte, h, accept_rxq]
    split
    · exact .inl rfl
    · exact .inr ⟨p, hp, rfl⟩

theorem recvByte_rxq_wf {n : Node} (hw : n.rxq.Wf) (b : Byte) : (n.recvByte b).rxq.Wf := by
  obtain h | ⟨p, _, h⟩ := recvByte_rxq n b <;> rw [h]
  · exact hw
  · exact Queue.put_wf hw p

/-- The payload of a completed packet is what was held but for the last byte. -/
theorem step_payload_length_eq {d : Deframer} {b : Byte} {p : List Byte} (h : (d.step b).1.payload = some p) :
    p.length = d.cur.val - 1 := by
  obtain ⟨_, hd⟩ | ⟨_, _, hd⟩ | ⟨_, _, _, hd⟩ | ⟨_, _, _, _, hd⟩ := step_cases d b <;> rw [hd] at h
  case inr.inr.inl =>
    have hp : p = (d.terminate b).held := by simpa using h.symm
    rw [hp, held_length, terminate_cur]
  all_goals cases h

/-! ### N.RECV of an intact message (R83, R100) -/

/-- Bytes whose decoding uses them up to their last are received as its one event. -/
theorem recv_of_decode {n : Node} {bs : List Byte} {e : DfEvent} {d : Deframer}
    (h : n.df.decode bs = (e, [], d)) : n.recv bs = { n with df := d }.onEvent e := by
  induction bs generalizing n with
  | nil => cases h; rfl
  | cons b bs ih =>
    by_cases hb : (n.df.step b).1 = .noPacket
    · rw [decode_cons_noPacket (Prod.ext hb rfl)] at h
      rw [recv_cons, recvByte_noPacket hb]
      exact ih h
    · rw [decode_cons_event rfl hb] at h
      cases h
      rfl

/-- Only a termination ends a decoding with an event. -/
theorem decode_terminates {d d' : Deframer} {bs rest : List Byte} {e : DfEvent} (h : d.decode bs = (e, rest, d'))
    (he : e ≠ .noPacket) : ∃ (d₀ : Deframer) (b : Byte), d' = d₀.terminate b := by
  induction bs generalizing d with
  | nil => cases h; exact absurd rfl he
  | cons b bs ih =>
    by_cases hb : (d.step b).1 = .noPacket
    · exact ih ((decode_cons_noPacket (Prod.ext hb rfl) bs).symm.trans h)
    · have hlast : (d.step b).2 = d' := congrArg (fun x => x.2.2) ((decode_cons_event rfl hb bs).symm.trans h)
      obtain ⟨_, hd⟩ | ⟨_, _, hd⟩ | ⟨_, _, _, hd⟩ | ⟨_, _, _, _, hd⟩ := step_cases d b
      case inr.inr.inl => exact ⟨d, b, by rw [← hlast, hd]⟩
      all_goals exact absurd (by rw [hd]) hb

/-- After a termination the buffer reads, at any index up to the cursor, what is held, and 0 behind it. -/
theorem terminate_buf_getElem (d : Deframer) (b : Byte) {i : Fin 16} (hi : i.val ≤ (d.terminate b).cur.val) :
    (d.terminate b).buf[i] = (d.terminate b).held[i.val]?.getD 0 := by
  rw [terminate_cur] at hi
  rw [terminate_getElem, terminate_held_eq_take, List.getElem?_take]
  by_cases h : i.val = d.cur.val - 1
  · simp [h]
  · have hlt : i.val < d.cur.val - 1 := by omega
    simp [hlt, h]

/-- DF.DECODE of the framed form of an intact message is Valid and ends with the message held, whatever the deframer
held before (R83). Behind a one-byte message the command byte reads 0. -/
theorem decode_framed {m : List Byte} (h : Intact m) (d : Deframer) :
    ∃ d' : Deframer, d.decode (framed m) = (.valid m, [], d') ∧ d'.sync = false ∧ d'.cur.val = m.length ∧
      d'.par = 0 ∧ d'.held = m ∧ d'.buf[1] = m[1]?.getD 0 := by
  obtain ⟨hpos, hlen, hm, hstart, hend⟩ := h
  have hbody : ∀ b ∈ m ++ [trailer m], b ≠ START ∧ b ≠ END :=
    List.forall_mem_append.2 ⟨hm, List.forall_mem_singleton.2
      ⟨mt trailer_eq_start_iff.1 hend, mt trailer_eq_end_iff.1 hstart⟩⟩
  obtain ⟨d', hd, hheld, hpar⟩ := decode_packet d hbody (by simp; omega)
  obtain ⟨d₀, b, rfl⟩ := decode_terminates hd (verdict_ne_noPacket d')
  rw [xorAll_trailer] at hpar
  rw [List.dropLast_concat] at hheld
  rw [verdict_valid (by rw [hpar]; rfl), hheld, ← framed_eq] at hd
  have hcur : (d₀.terminate b).cur.val = m.length := by rw [← held_length, hheld]
  have hcmd := terminate_buf_getElem d₀ b (i := 1) (by rw [hcur]; exact hpos)
  rw [hheld] at hcmd
  exact ⟨_, hd, rfl, hcur, hpar, hheld, hcmd⟩

/-- N.RECV of the framed form of an intact message is the acceptance of the message. -/
theorem recv_framed {m : List Byte} (h : Intact m) (n : Node) :
    ∃ d : Deframer, n.recv (framed m) = { n with df := d }.accept m ∧ d.sync = false ∧ d.cur.val = m.length ∧
      d.par = 0 ∧ d.held = m ∧ d.buf[1] = m[1]?.getD 0 := by
  obtain ⟨d, hd, hrest⟩ := decode_framed h n.df
  exact ⟨d, recv_of_decode hd, hrest⟩

section

variable {m : List Byte} {c : Byte} (h : Intact m) (hc : m[1]?.getD 0 = c) {n : Node}
include h hc

theorem recv_framed_pending : (n.recv (framed m)).pending = some c := by
  obtain ⟨d, hrecv, _, _, _, _, hcmd⟩ := recv_framed h n
  rw [hrecv, accept_pending, hcmd, hc]

theorem recv_framed_control (hctl : c ∈ [PING, READ, NO_DATA]) :
    (n.recv (framed m)).rxq = n.rxq ∧ (n.recv (framed m)).allocFail = n.allocFail := by
  obtain ⟨d, hrecv, _, _, _, _, hcmd⟩ := recv_framed h n
  rw [hrecv]
  exact accept_control (n := { n with df := d }) (hcmd.trans hc ▸ hctl) m

theorem recv_framed_room (hctl : c ∉ [PING, READ, NO_DATA]) (hw : n.rxq.Wf) (hroom : n.rxq.count.val < 20) :
    (n.recv (framed m)).rxq.list = n.rxq.list ++ [m] ∧ (n.recv (framed m)).allocFail = n.allocFail := by
  obtain ⟨d, hrecv, _, _, _, _, hcmd⟩ := recv_framed h n
  have hlen : m.length ≤ 16 := by have := h.2.1; omega
  rw [hrecv]
  exact accept_room (n := { n with df := d }) (hcmd.trans hc ▸ hctl) hw hroom hlen

theorem recv_framed_full (hctl : c ∉ [PING, READ, NO_DATA]) (hfull : n.rxq.count.val = 20) :
    (n.recv (framed m)).rxq = n.rxq ∧ (n.recv (framed m)).allocFail = true := by
  obtain ⟨d, hrecv, _, _, _, _, hcmd⟩ := recv_framed h n
  rw [hrecv]
  exact accept_full (n := { n with df := d }) (hcmd.trans hc ▸ hctl) hfull m

end

theorem recv_rxq_wf {n : Node} (hw : n.rxq.Wf) (bs : List Byte) : (n.recv bs).rxq.Wf := by
  induction bs generalizing n with
  | nil => exact hw
  | cons b bs ih => exact ih (recvByte_rxq_wf hw b)

/-! ### The three transaction shapes (R76, R106) -/

theorem addrByte_ne {k : Addr} {b : Byte} (hb : b.msb = true) : addrByte k ≠ b := by
  rintro rfl
  rw [addrByte_msb] at hb
  cases hb

/-- A message of a 7-bit address and one control byte accumulates to `x` at one address at most (R161). -/
theorem xorAll_control_ne {k : Addr} {c x : Byte} (h : k ≠ (x ^^^ c).setWidth 7) : xorAll [addrByte k, c] ≠ x := by
  rintro rfl
  have hcancel : xorAll [addrByte k, c] ^^^ c = addrByte k := by
    rw [xorAll_cons, xorAll_cons, xorAll_nil, BitVec.ofNat_eq_ofNat, BitVec.xor_zero, BitVec.xor_assoc,
      BitVec.xor_self, BitVec.xor_zero]
  rw [hcancel, addrByte_setWidth] at h
  exact h rfl

/-- A ping frames intact at every address but 50 and 51 (R161). -/
theorem intact_ping {k : Addr} (h50 : k ≠ 50) (h51 : k ≠ 51) : Intact (pingMsg k) :=
  ⟨by simp [pingMsg], by simp [pingMsg], by simp [pingMsg, addrByte_ne (by decide : START.msb = true),
    addrByte_ne (by decide : END.msb = true)]; decide, xorAll_control_ne h51, xorAll_control_ne h50⟩

/-- A read-request frames intact at every address but 80 and 81 (R161). -/
theorem intact_read {k : Addr} (h80 : k ≠ 80) (h81 : k ≠ 81) : Intact (readMsg (addrByte k)) :=
  ⟨by simp [readMsg], by simp [readMsg], by simp [readMsg, addrByte_ne (by decide : START.msb = true),
    addrByte_ne (by decide : END.msb = true)]; decide, xorAll_control_ne h80, xorAll_control_ne h81⟩

/-- The proper trailer of a ping. -/
theorem trailer_ping (k : Addr) : trailer (pingMsg k) = addrByte k ^^^ 0xB0 := by
  simp only [trailer_eq, pingMsg, xorAll_cons, xorAll_nil, BitVec.xor_assoc]
  rfl

/-- The proper trailer of a read-request. -/
theorem trailer_read (k : Addr) : trailer (readMsg (addrByte k)) = addrByte k ^^^ 0xD3 := by
  simp only [trailer_eq, readMsg, xorAll_cons, xorAll_nil, BitVec.xor_assoc]
  rfl

theorem destination_addrByte (k : Addr) (m : List Byte) : destination (addrByte k :: m) = some k := by
  simp only [destination, addrByte_msb, addrByte_setWidth, Bool.false_eq_true, if_false]

/-- The packet of a message to a node for which the transport holds nothing, then N.REQ there. -/
theorem packet_then_req {s : State} {k : Addr} {n : Node} {m : List Byte} (hn : s.node? k = some n)
    (hwire : n.wire = []) (hm : destination m = some k) :
    ∃ t u : State, s.packetOnBus m (trailer m) = .next t ∧ exec (.nReq k) t = .next u ∧
      u.out = .reply (n.recv (framed m)).req.1 ∧ u.node? k = some (n.recv (framed m)).req.2 := by
  obtain ⟨t, ht, _, _, _, hnode⟩ := arrive_toNode_spec s k (framed m)
  have hrecv := hnode n hn
  rw [hwire, List.nil_append, ← hwire] at hrecv
  obtain ⟨u, hu, hout, _, hnode'⟩ := exec_nReq_spec hrecv
  exact ⟨t, u, by rw [packetOnBus_eq, hm]; exact ht, hu, hout, hnode'⟩

/-- The node answers ACK to an intact message whose command is not READ, and queues what N.RECV of it queues. -/
theorem packet_then_ack {s : State} {k : Addr} {n : Node} {m : List Byte} (hn : s.node? k = some n)
    (hwire : n.wire = []) (hm : destination m = some k) (hi : Intact m) (hc : m[1]?.getD 0 ≠ READ) :
    ∃ (t u : State) (n' : Node), s.packetOnBus m (trailer m) = .next t ∧ exec (.nReq k) t = .next u ∧
      u.out = .reply [ACK] ∧ u.node? k = some n' ∧ n'.rxq = (n.recv (framed m)).rxq ∧
      n'.allocFail = (n.recv (framed m)).allocFail ∧ n'.txq = n.txq ∧ n'.pending = none := by
  obtain ⟨t, u, ht, hu, hout, hnode⟩ := packet_then_req hn hwire hm
  have hreq := req_command (recv_framed_pending (n := n) hi rfl) hc
  have htxq : (n.recv (framed m)).req.2.txq = n.txq := by rw [hreq]; exact recv_txq n _
  exact ⟨t, u, _, ht, hu, hout.trans (by rw [hreq]), hnode, req_rxq _, req_allocFail _, htxq, req_pending _⟩

/-! ### Storage (R40) -/

/-- An update that keeps the address of the node at `k`, the node's outbound queue, and its inbound slots from index `i`
on, changes no storage array from `i` on but that node's `df_buf`. -/
theorem space_mapNode_drop {s : State} {k : Addr} {n : Node} {f : Node → Node} {sp : Space} {i : Nat}
    (hn : s.node? k = some n) (hop : ∀ m : Node, m.OpFrame (f m)) (hbuf : sp ≠ .dfBuf k)
    (hrxq : ∀ j, sp = .slotData (.nodeRx k) j → ((f n).rxq.slotBytes j).drop i = (n.rxq.slotBytes j).drop i)
    (htxq : (f n).txq = n.txq) : ((s.mapNode k f).space sp).drop i = (s.space sp).drop i := by
  have hself : (s.mapNode k f).node? k = some (f n) := node?_mapNode_some hn fun m => (hop m).addr
  have hother {a : Addr} (ha : a ≠ k) : (s.mapNode k f).node? a = s.node? a :=
    node?_mapNode_other s k a f (fun m => (hop m).addr.trans) ha
  cases sp with
  | roster => rfl
  | dfBuf a => rw [space_dfBuf, space_dfBuf, hother fun e => hbuf (e ▸ rfl)]
  | slotData q j =>
    cases q with
    | hubRx => rfl
    | nodeRx a =>
      rw [space_nodeRx, space_nodeRx]
      by_cases ha : a = k
      · subst ha
        rw [hself, hn]
        exact hrxq j rfl
      · rw [hother ha]
    | nodeTx a =>
      rw [space_nodeTx, space_nodeTx]
      by_cases ha : a = k
      · subst ha
        rw [hself, hn, Option.map_some, htxq, Option.map_some]
      · rw [hother ha]

/-- Operations that agree on the nodes at `k` agree at its port. -/
theorem atNode_congr {k : Addr} {op op' : Node → Result × Node} (h : ∀ n : Node, n.addr = k → op n = op' n)
    (s : State) : s.atNode k op = s.atNode k op' := by
  cases hn : s.node? k with
  | none => rw [atNode_none hn, atNode_none hn]
  | some n =>
    have hmap : s.start.mapNode k (fun m => (op m).2) = s.start.mapNode k (fun m => (op' m).2) := by
      refine congrArg (fun ns => { s.start with nodes := ns }) (List.map_congr_left fun m _ => ?_)
      split
      · next hm => exact congrArg Prod.snd (h m hm)
      · rfl
    rw [atNode_some hn, atNode_some hn, hmap, h n (node?_spec hn).2]

/-- N.SEND is one Q.ENQ of the prefixed payload on `node_txq` (R102). -/
theorem exec_nSend_eq_qEnq (k : Addr) (d : List Byte) (s : State) :
    exec (.nSend k d) s = exec (.qEnq (.nodeTx k) (nodeMsg k d)) s :=
  atNode_congr (fun n hn => by subst hn; rfl) s

theorem hub_accept_rxq (h : Hub) (m : List Byte) : (h.accept m).rxq = (h.rxq.put m).2 := by
  obtain ⟨hq, e⟩ | ⟨q, hq, e⟩ := hub_accept_cases h m <;> rw [e, Queue.put, hq]

/-- The hub's acceptance of a message stores what Q.ENQ of it on `hub_rxq` stores. -/
theorem space_hub_accept (s : State) (m : List Byte) (sp : Space) :
    (s.mapHub (fun h => h.accept m)).space sp = (s.mapQueue .hubRx (fun c => (c.put m).2)).space sp := by
  cases sp with
  | dfBuf a => rfl
  | roster =>
    have hroster : (s.hub.accept m).roster = s.hub.roster := by rw [hub_accept_frame]
    exact congrArg Vector.toList hroster
  | slotData q j =>
    cases q with
    | hubRx => exact congrArg (fun c : Queue 40 => c.slotBytes j) (hub_accept_rxq s.hub m)
    | nodeRx a | nodeTx a => rfl

/-- The message a reply brings is its bytes before the first 0xFF. -/
theorem polledMessage_eq_takeWhile {r m : List Byte} (h : polledMessage r = some m) :
    r.takeWhile (fun b => b ≠ POLL_TERM) = m := by
  unfold polledMessage at h
  split at h
  · cases h
  · split_ifs at h
    exact Option.some.inj h

/-! ### From N.SEND to H.GET on the reference bus (R49, R111, R112) -/

@[simp] theorem corrupt_nil (s : List Byte) : corrupt [] s = s := by cases s <;> rfl

/-- An exchange on the reference bus with a node that is there: the packet reaches it whole, and the read its reply. -/
theorem exchange_reference {s : State} {a : Addr} {n : Node} (bs : List Byte) (k : Nat) (hp : s.plans = [])
    (hn : s.node? a = some n) :
    s.exchange a bs k = some (true, Plan.reference.received k (n.accrue bs).answer.1,
      ((((s.setPlans []).mapNode a (fun m => m.accrue bs)).log (.write a bs)).mapNode a (fun m => m.answer.2)).log
        (.read a k true (Plan.reference.received k (n.accrue bs).answer.1))) := by
  have hplan : s.plan = Plan.reference := by simp [State.plan, hp]
  have hnode : (((s.setPlans []).mapNode a (fun m => m.accrue bs)).log (.write a bs)).node? a = some (n.accrue bs) :=
    node?_mapNode_some (s := s.setPlans []) hn fun m => accrue_addr m bs
  simp [State.exchange, hplan, hp, Plan.reference, State.runEvents, State.busWrite, State.busRead, hnode,
    Plan.received]

/-- Of a message with no 0xFF that a poll read takes whole, its bytes before the first 0xFF are all of it: past its end
the reference bus returns 0xFF (R148). -/
theorem received_reference_takeWhile {m : List Byte} (hlen : m.length ≤ 8) (hterm : POLL_TERM ∉ m) :
    (Plan.reference.received 8 m).takeWhile (fun b => b ≠ POLL_TERM) = m := by
  have hreceived : Plan.reference.received 8 m = m ++ List.replicate (8 - m.length) POLL_TERM := by
    have hfill : BUS_FILL = POLL_TERM := rfl
    simp only [Plan.received, Plan.reference, corrupt_nil, List.take_append,
      List.take_of_length_le hlen, List.take_replicate, hfill]
    congr 2
    omega
  have hm : ∀ b ∈ m, decide (b ≠ POLL_TERM) = true := fun b hb => decide_eq_true fun e => hterm (e ▸ hb)
  rw [hreceived, List.takeWhile_append_of_pos hm, List.takeWhile_replicate]
  simp

/-- The hub's poll read on the reference bus brings the whole of a short node message (R147, R148). -/
theorem polledMessage_received {k : Addr} {d : List Byte} (hk : k ≠ 0) (hlen : d.length ≤ 7) (hterm : POLL_TERM ∉ d) :
    polledMessage (Plan.reference.received 8 (addrByte k :: d)) = some (addrByte k :: d) := by
  have hpos : 1 ≤ k.toNat := by bv_omega
  have hdata : isDataReply (addrByte k :: d ++ List.replicate 8 BUS_FILL) = true :=
    isDataReply_of_addressed hpos rfl (by simp [MAX_MSG_LEN]; omega)
  have hreceived : Plan.reference.received 8 (addrByte k :: d) =
      (addrByte k :: d ++ List.replicate 8 BUS_FILL).take 8 := by
    simp [Plan.received, Plan.reference]
  have hpt : POLL_TERM ∉ addrByte k :: d :=
    List.not_mem_cons_of_ne_of_not_mem (addrByte_ne (by decide)).symm hterm
  have hall := received_reference_takeWhile (m := addrByte k :: d) (Nat.succ_le_succ hlen) hpt
  rw [hreceived, polledMessage_of_isDataReply hdata, ← hreceived, hall]

/-- One turn of a polling round over a roster of one entry, when its read completes. -/
theorem scan_singleton {s s' : State} {a : Byte} {r : List Byte} (hlive : s.hub.live = [a])
    (hx : s.exchange (a.setWidth 7) (framed (readMsg a)) 8 = some (true, r, s')) :
    s.scan = some (s'.mapHub (fun h => h.onPollReply r)) := by
  simp [State.scan, hlive, State.scanLoop, hx]

/-- A due H.GET is a clock sample, a polling round and a dequeue (R112). -/
theorem exec_hGet_due {s s' : State} (hdue : s.hub.scanDue s.now = true)
    (h : (s.start.mapHub (fun h => h.stamp s.now)).scan = some s') : exec .hGet s = .next s'.hubTake := by
  simp only [exec, execHGet, hdue, h, if_true, Option.map_some, hubOutcome]

/-- The dequeue of H.GET returns the oldest message, split into origin and payload. -/
theorem hubTake_out {s : State} {b : Byte} {m : List Byte} {rest : List (List Byte)}
    (h : s.hub.rxq.list = (b :: m) :: rest) : s.hubTake.out = .got b m := by
  obtain ⟨q, hd, _⟩ := Queue.dequeue_of_list h
  rw [State.hubTake, hd]
  rfl

/-- A node asked by an intact read-request, with nothing else held for it, answers its oldest outbound message. -/
theorem answer_readRequest {n : Node} {k : Addr} {m : List Byte} {rest : List (List Byte)} (h80 : k ≠ 80) (h81 : k ≠ 81)
    (hwire : n.wire = []) (hq : n.txq.list = m :: rest) :
    (n.accrue (framed (readMsg (addrByte k)))).answer.1 = m := by
  have hflush : (n.accrue (framed (readMsg (addrByte k)))).flush = n.recv (framed (readMsg (addrByte k))) := by
    rw [accrue_flush, hwire, List.nil_append, ← hwire]
  have hpending : (n.recv (framed (readMsg (addrByte k)))).pending = some READ :=
    recv_framed_pending (intact_read h80 h81) rfl
  rw [Node.answer, hflush]
  exact (req_read hpending (by rw [recv_txq, hq])).1

/-! ### The statements -/

/-- Settles O26: by the pending command and, for READ, the content of `node_txq`. -/
theorem nReqRepliesByPendingCommand : Obligations.NReqRepliesByPendingCommand := by
  unfold Obligations.NReqRepliesByPendingCommand
  intro s k n hn hw
  obtain ⟨t, ht, hout, honly, hnode⟩ := exec_nReq_spec hn
  obtain ⟨hframe, hwf⟩ := req_frame n
  refine ⟨t, n.req.2, n.req.1, ht, hout, honly, hnode, hframe, hwf hw, fun hv => ?_, fun hv hc => ?_,
    fun hv hc hempty => ?_, fun m rest hv hc hq => ?_⟩
  · rw [req_noCommand (pending_eq_none_iff.mpr hv)]
    exact ⟨rfl, rfl⟩
  · rw [req_command (pending_eq_some_iff.mpr ⟨hv, rfl⟩) hc]
    exact ⟨rfl, rfl⟩
  · rw [req_read_empty (pending_eq_some_iff.mpr ⟨hv, hc⟩) hempty]
    exact ⟨rfl, rfl⟩
  · exact req_read (pending_eq_some_iff.mpr ⟨hv, hc⟩) hq

/-- Settles O29: a reply uses the pending command up, and without one N.REQ answers NO_DATA. -/
theorem oneCommandPerTurn : Obligations.OneCommandPerTurn := by
  unfold Obligations.OneCommandPerTurn
  intro s t k h
  obtain ⟨n, hn, _⟩ := atNode_next h
  obtain ⟨t', ht', _, _, hnode⟩ := exec_nReq_spec hn
  cases h.symm.trans ht'
  obtain ⟨u, hu, hout, _, hnode'⟩ := exec_nReq_spec hnode
  rw [req_noCommand (req_pending n)] at hout hnode'
  exact ⟨n.req.2, u, hnode, req_pending n, hu, hout, hnode'⟩

/-- Settles O27: N.SEND is one Q.ENQ, which appends or fails. -/
theorem nSendQueuesPrefixedMessage : Obligations.NSendQueuesPrefixedMessage := by
  unfold Obligations.NSendQueuesPrefixedMessage
  intro s k n d hn hw
  obtain ⟨t, ht, hout, honly, hnode⟩ := exec_nSend_spec hn d
  refine ⟨t, (n.send d).2, ht, honly, hnode, rfl, Queue.put_wf hw _, fun hfull => ?_, fun hroom => ?_⟩
  · rw [hout, send_full hfull]
    exact ⟨rfl, rfl⟩
  · rw [hout, ← (node?_spec hn).2]
    exact send_room hw hroom d

/-- Settles O28: by the content of `node_rxq`. -/
theorem nGetStripsAddress : Obligations.NGetStripsAddress := by
  unfold Obligations.NGetStripsAddress
  intro s k n hn hw
  obtain ⟨t, ht, hout, honly, hnode⟩ := exec_nGet_spec hn
  refine ⟨t, n.get.2, ht, honly, hnode, ?_⟩
  rw [hout]
  cases hlist : n.rxq.list with
  | nil =>
    rw [get_noData hlist]
    exact ⟨rfl, hw, fun _ => ⟨rfl, rfl⟩, nofun⟩
  | cons m rest =>
    obtain ⟨q, hget, hq, hw'⟩ := get_data hlist
    rw [hget]
    refine ⟨rfl, hw' hw, nofun, fun m' rest' he => ?_⟩
    cases he
    exact ⟨rfl, hq⟩

/-- Settles O24: by the event of the byte. -/
theorem nRecvActsOnEachByte : Obligations.NRecvActsOnEachByte := by
  unfold Obligations.NRecvActsOnEachByte
  intro s k n b hn hw
  obtain ⟨t, ht, hout, honly, hnode⟩ := exec_nRecv_spec hn [b]
  refine ⟨t, n.recvByte b, ht, hout, honly, hnode, recvByte_df n b, recvByte_rxq_wf hw b, (recvByte_frame n b).eq,
    fun he => ?_, fun p he hpolicy => ?_, fun p he => ?_⟩
  · rw [recvByte_df]
    exact recvByte_noPacket he
  · rw [recvByte_df]
    exact recvByte_dropped he hpolicy
  · have hp : (n.df.step b).1.payload = some p := by obtain he | ⟨he, _⟩ := he <;> rw [he] <;> rfl
    have hlen : p.length ≤ 16 := (step_payload_length hp).trans (by decide)
    rw [recvByte_accepted he, accept_df, accept_pcCmd]
    exact ⟨accept_pcValid _ p, rfl, fun hc => accept_control hc p, fun hc hroom => accept_room hc hw hroom hlen,
      fun hc hfull => accept_full hc hfull p⟩

/-- Settles O25: `recv_framed`, the acceptance of the message. -/
theorem intactPacketReceived : Obligations.IntactPacketReceived := by
  unfold Obligations.IntactPacketReceived
  intro s k n m c hn hw hm hc
  obtain ⟨t, ht, _, honly, hnode⟩ := exec_nRecv_spec hn (framed m)
  obtain ⟨d, hrecv, hsync, hcur, hpar, hheld, _⟩ := recv_framed hm n
  have hdf : (n.recv (framed m)).df = d := by rw [hrecv, accept_df]
  refine ⟨t, n.recv (framed m), ht, honly, hnode, recv_framed_pending hm hc, recv_txq n _, recv_wire n _,
    recv_rxq_wf hw _, ?_, ?_, ?_, ?_, recv_framed_control hm hc, fun hctl => recv_framed_room hm hc hctl hw,
    recv_framed_full hm hc⟩ <;> rw [hdf]
  · exact hsync
  · exact hcur
  · exact hpar
  · exact hheld

/-- Settles O36: each shape frames intact, so the node accepts its message and N.REQ answers its command. -/
theorem nodeAnswersTransactionShapes : Obligations.NodeAnswersTransactionShapes := by
  unfold Obligations.NodeAnswersTransactionShapes
  intro s k n hn hwire hrw htw
  refine ⟨fun h50 h51 => ?_, fun h80 h81 => ?_, fun d hd => ?_⟩
  · have hm := intact_ping h50 h51
    obtain ⟨t, u, n', ht, hu, hout, hnode, hrxq, _, htxq, hpending⟩ :=
      packet_then_ack hn hwire (destination_addrByte k [PING]) hm (by decide : PING ≠ READ)
    rw [← pingMsg, trailer_ping] at ht
    exact ⟨t, u, n', ht, hu, hout, hnode, hrxq.trans (recv_framed_control hm rfl (by decide : PING ∈ _)).1, htxq,
      hpending⟩
  · have hm := intact_read h80 h81
    have hpending : (n.recv (framed (readMsg (addrByte k)))).pending = some READ := recv_framed_pending hm rfl
    have hrxq := (recv_framed_control (n := n) hm rfl (by decide : READ ∈ _)).1
    have htxq := recv_txq n (framed (readMsg (addrByte k)))
    obtain ⟨t, u, ht, hu, hout, hnode⟩ := packet_then_req hn hwire (destination_addrByte k [READ])
    rw [← readMsg, trailer_read] at ht
    refine ⟨t, u, _, _, ht, hu, hout, hnode, (req_rxq _).trans hrxq, req_pending _, fun hempty => ?_,
      fun m rest hq => ?_⟩
    · have hreq := req_read_empty hpending (htxq ▸ hempty)
      exact ⟨congrArg Prod.fst hreq, (congrArg (fun x => x.2.txq) hreq).trans htxq⟩
    · exact req_read hpending (htxq ▸ hq)
  · have hctl : WRITE ∉ [PING, READ, NO_DATA] := by decide
    obtain ⟨t, u, n', ht, hu, hout, hnode, hrxq, hflag, htxq, hpending⟩ :=
      packet_then_ack hn hwire (destination_addrByte k (WRITE :: d)) hd (by decide : WRITE ≠ READ)
    refine ⟨t, u, n', ht, hu, hout, hnode, htxq, hpending, ?_⟩
    rw [hrxq, hflag]
    exact ⟨recv_framed_room hd rfl hctl hrw, recv_framed_full hd rfl hctl⟩

/-- Settles O23: each of the three is at most one Q.ENQ, so that O21 bounds what it stores. -/
theorem storingOperationsStoreOneSlot : Obligations.StoringOperationsStoreOneSlot := by
  unfold Obligations.StoringOperationsStoreOneSlot
  intro s t sp i
  refine ⟨fun k n d hn h hsp => ?_, fun k n b hn h hbuf hsp => ?_, fun r h hsp => ?_⟩
  · have hring : s.ring (.nodeTx k) = some (n.txq.head.val, n.txq.tail.val, n.txq.count.val) := by
      simp only [State.ring, hn, Option.map_some]
    exact enqueueStoresOneSlot s t _ _ _ _ _ hring (exec_nSend_eq_qEnq k d s ▸ h) sp i hsp
  · rw [exec_nRecv hn] at h
    cases h
    refine memRead_eq_of_drop ?_ 1
    refine space_mapNode_drop (s := s.start) hn (fun m => recv_opFrame m [b]) hbuf (fun j hj => ?_) (recv_txq n [b])
    obtain hrxq | ⟨p, hp, hrxq⟩ := recvByte_rxq n b
    · exact congrArg (fun c : Queue 20 => (c.slotBytes j).drop i) hrxq
    · refine (congrArg (fun c : Queue 20 => (c.slotBytes j).drop i) hrxq).trans (Queue.put_slotBytes_drop n.rxq ?_)
      rintro ⟨rfl, hi, hroom⟩
      exact hsp ⟨hj, step_payload_length_eq hp ▸ hi, hroom⟩
  · cases hp : polledMessage (r.take 8) with
    | none => exact memRead_eq_of_drop (congrArg (List.drop i) (space_arrive_toHub hp h sp)) 1
    | some m =>
      obtain rfl : (r.take 8).takeWhile (fun b => b ≠ POLL_TERM) = m := polledMessage_eq_takeWhile hp
      rw [show exec (.rplData r) s = s.arrive .toHub r from rfl, arrive_toHub_message s hp] at h
      cases h
      rw [State.memRead, space_hub_accept]
      exact enqueueStoresOneSlot s _ .hubRx _ _ _ _ rfl (exec_qEnq .hubRx _ s) sp i hsp

/-- Settles O44: N.SEND leaves the message the oldest in `node_txq`, and the one poll of H.GET reads it whole. -/
theorem nodeMessageReachesHub : Obligations.NodeMessageReachesHub := by
  unfold Obligations.NodeMessageReachesHub
  intro s k n d hplans hn hwire htw htxq hhw hhub hlive hdue h0 h80 h81 hlen hterm
  obtain ⟨t, ht, hout, honly, hnode⟩ := exec_nSend_spec hn d
  have hcount : n.txq.count.val < 20 := by rw [Queue.list_eq_nil_iff.mp htxq]; decide
  obtain ⟨hok, hqueued⟩ := send_room htw hcount d
  rw [htxq, (node?_spec hn).2, nodeMsg, List.take_of_length_le (hlen.trans (by decide)), List.nil_append] at hqueued
  have hreply := answer_readRequest (n := (n.send d).2) h80 h81 hwire hqueued
  have hx := exchange_reference (s := t.start.mapHub (fun h => h.stamp t.now)) (framed (readMsg (addrByte k))) 8
    (honly.plans.trans hplans) hnode
  rw [hreply] at hx
  have hscan := scan_singleton (a := addrByte k) (s := t.start.mapHub (fun h => h.stamp t.now))
    ((congrArg Hub.live honly.hub).trans hlive) (by rw [addrByte_setWidth]; exact hx)
  have hdue' : t.hub.scanDue t.now = true := by rw [honly.hub, honly.now]; exact hdue
  refine ⟨t, _, ht, hout.trans hok, exec_hGet_due hdue' hscan, hubTake_out (rest := []) ?_⟩
  have hlist : t.hub.rxq.list = [] := by rw [honly.hub]; exact hhub
  have hlen8 : (Plan.reference.received 8 (addrByte k :: d)).length ≤ 16 := by simp [Plan.received]
  refine (onPollReply_list (h := t.hub.stamp t.now) (honly.hub ▸ hhw) hlen8).1.trans ?_
  rw [polledMessage_received h0 hlen hterm, show (t.hub.stamp t.now).rxq.list = [] from hlist]
  rfl

end Sys2Proof.Machine
end

section
/-! PROOFS for 43_hub.md (O37 to O43, O33, O47): the hub engine. H.IDENT and H.SCAN are the same polling run
(`State.Polled`): an exchange per turn, then what the hub makes of the reply. What each makes of its replies is a fold
over them; H.GET is the scan and a dequeue, H.SEND one exchange. -/

namespace Sys2Proof.Machine

open Sys2Proof.Config

/-! ### The replies read in an exchange (R45) -/

theorem repliesRead_append (xs ys : List BusEvent) : repliesRead (xs ++ ys) = repliesRead xs ++ repliesRead ys := by
  induction xs with
  | nil => rfl
  | cons x xs ih =>
    cases x with
    | write a bs => exact ih
    | read a k done r => cases done <;> simp [repliesRead, ih]
    | app a r => exact ih

theorem appAt_replies (s : State) (a : Addr) (op : Node → Result × Node) :
    repliesRead (s.appAt a op).trace = repliesRead s.trace := by
  unfold State.appAt
  split
  · rfl
  · rw [log_trace, repliesRead_append]
    exact List.append_nil _

theorem runEvent_replies (s : State) (e : Event) : repliesRead (s.runEvent e).trace = repliesRead s.trace := by
  cases e with
  | chunk a k => rfl
  | send a d => exact appAt_replies s a _
  | get a => exact appAt_replies s a _
  | clock t => rfl
  | resetNode a => rfl

theorem runEvents_replies (s : State) (es : List Event) :
    repliesRead (s.runEvents es).trace = repliesRead s.trace := by
  induction es generalizing s with
  | nil => rfl
  | cons e es ih => exact (ih (s.runEvent e)).trans (runEvent_replies s e)

theorem busWrite_replies (s : State) (p : Plan) (a : Addr) (bs : List Byte) :
    repliesRead (s.busWrite p a bs).trace = repliesRead s.trace := by
  unfold State.busWrite
  split <;> rw [log_trace, repliesRead_append] <;> exact List.append_nil _

/-- A read that completes brings one reply, of no more bytes than were asked for. -/
theorem busRead_replies {s t : State} {p : Plan} {a : Addr} {k : Nat} {done : Bool} {r : List Byte}
    (h : s.busRead p a k = some (done, r, t)) :
    repliesRead t.trace = repliesRead s.trace ++ (if done = true then [(a, r)] else []) ∧ r.length ≤ k := by
  unfold State.busRead at h
  split at h
  · cases h
  · cases h
    exact ⟨repliesRead_append _ _, Nat.zero_le k⟩
  · cases h
    exact ⟨repliesRead_append _ _, Nat.zero_le k⟩
  · split at h
    · cases h
      exact ⟨repliesRead_append _ _, Nat.zero_le k⟩
    · cases h
      exact ⟨repliesRead_append _ _, by simp only [Plan.received, List.length_take]; omega⟩

theorem exchange_replies {s t : State} {a : Addr} {bs : List Byte} {k : Nat} {done : Bool} {r : List Byte}
    (h : s.exchange a bs k = some (done, r, t)) :
    repliesRead t.trace = repliesRead s.trace ++ (if done = true then [(a, r)] else []) ∧ r.length ≤ k := by
  obtain ⟨hreplies, hlen⟩ := busRead_replies h
  rw [runEvents_replies, busWrite_replies, runEvents_replies, setPlans_trace] at hreplies
  exact ⟨hreplies, hlen⟩

theorem exchange_unstuck {s t : State} (hs : s.unstuck) {a : Addr} {bs : List Byte} {k : Nat} {done : Bool}
    {r : List Byte} (h : s.exchange a bs k = some (done, r, t)) : t.unstuck := by
  obtain ⟨_, hplans, _⟩ := exchange_frame h
  intro p hp
  rw [hplans] at hp
  exact hs p (List.mem_of_mem_tail hp)

/-! ### A polling run (R110, R111) -/

/-- One turn of a polling run: where the hub writes, the packet, and how many bytes it then reads there. -/
structure Turn where
  addr : Addr
  packet : List Byte
  readLen : Nat

/-- The two transactions of a turn. -/
def Turn.actions (x : Turn) : List HubAction := [.write x.addr x.packet, .read x.addr x.readLen]

/-- `t` is `s` after the hub took the turns `xs` and made `f` of each reply it read. -/
structure State.Polled (f : Hub → Addr × List Byte → Hub) (xs : List Turn) (s t : State) : Prop where
  frame : s.BusFrame { t with hub := s.hub }
  unstuck : s.unstuck → t.unstuck
  actions : hubActions t.trace = hubActions s.trace ++ xs.flatMap Turn.actions
  replies : ∃ rs, repliesRead t.trace = repliesRead s.trace ++ rs ∧ t.hub = rs.foldl f s.hub ∧
    rs.length ≤ xs.length ∧ ∀ x ∈ rs, x.2.length ≤ HUB_READ_LEN

section

variable {f : Hub → Addr × List Byte → Hub}

theorem State.Polled.rfl' (s : State) : State.Polled f [] s s :=
  ⟨.rfl' s, id, by simp, [], by simp, rfl, Nat.le_refl _, by simp⟩

theorem State.Polled.trans {xs ys : List Turn} {s t u : State} (h : State.Polled f xs s t)
    (g : State.Polled f ys t u) : State.Polled f (xs ++ ys) s u := by
  obtain ⟨hframe, hunstuck, hacts, rs, hreplies, hhub, hcount, hlen⟩ := h
  obtain ⟨gframe, gunstuck, gacts, rs', greplies, ghub, gcount, glen⟩ := g
  refine ⟨⟨gframe.maxClients.trans hframe.maxClients, rfl, gframe.config.trans hframe.config,
    gframe.inputs.trans hframe.inputs, gframe.out.trans hframe.out, gframe.freeCount.trans hframe.freeCount⟩,
    gunstuck ∘ hunstuck, ?_, rs ++ rs', ?_, ?_, ?_, List.forall_mem_append.2 ⟨hlen, glen⟩⟩
  · rw [gacts, hacts, List.flatMap_append, List.append_assoc]
  · rw [greplies, hreplies, List.append_assoc]
  · rw [ghub, hhub, List.foldl_append]
  · rw [List.length_append, List.length_append]; omega

/-- One turn on an unstuck transport: the exchange, and `f` of the reply if the read completed. -/
theorem exchange_polled (f : Hub → Addr × List Byte → Hub) {s : State} (hs : s.unstuck) {x : Turn}
    (hx : x.readLen ≤ HUB_READ_LEN) :
    ∃ done r s', s.exchange x.addr x.packet x.readLen = some (done, r, s') ∧
      State.Polled f [x] s (if done = true then s'.mapHub (fun h => f h (x.addr, r)) else s') := by
  obtain ⟨done, r, s', h⟩ := exchange_isSome x.addr x.packet x.readLen (unstuck_plan hs)
  obtain ⟨hframe, _, hacts⟩ := exchange_frame h
  obtain ⟨hreplies, hlen⟩ := exchange_replies h
  obtain ⟨hN, hhub, hconfig, hinputs, hout, hfree⟩ := hframe
  have hunstuck := exchange_unstuck hs h
  refine ⟨done, r, s', h, ?_⟩
  cases done with
  | false =>
    exact ⟨⟨hN, rfl, hconfig, hinputs, hout, hfree⟩, fun _ => hunstuck, hacts, [], hreplies, hhub, Nat.zero_le _,
      by simp⟩
  | true =>
    exact ⟨⟨hN, rfl, hconfig, hinputs, hout, hfree⟩, fun _ => hunstuck, hacts, [(x.addr, r)], hreplies,
      congrArg (fun h => f h (x.addr, r)) hhub, Nat.le_refl _, by simpa using hlen.trans hx⟩

end

/-! ### H.IDENT (R110) -/

/-- H.IDENT's turn at an address. -/
def pingTurn (a : Addr) : Turn := ⟨a, framed (pingMsg a), 1⟩

/-- What H.IDENT makes of a reply. -/
def Hub.onPing (h : Hub) (x : Addr × List Byte) : Hub := if x.2.head? = some ACK then h.enrol x.1 else h

theorem pingTurn_actions (a : Addr) : (pingTurn a).actions =
    [.write a [0x82, addrByte a, 0xB1, addrByte a ^^^ 0xB0, 0x83], .read a 1] := by
  rw [Turn.actions, pingTurn, framed, trailer_ping]
  rfl

/-- What the hub does on the bus in a sweep of the addresses `as`. -/
theorem flatMap_pingTurn (as : List Addr) : (as.map pingTurn).flatMap Turn.actions = as.flatMap (fun a =>
    [.write a [0x82, addrByte a, 0xB1, addrByte a ^^^ 0xB0, 0x83], .read a 1]) := by
  simp only [List.flatMap_map, pingTurn_actions]

theorem identLoop_polled (as : List Addr) {s : State} (hs : s.unstuck) :
    ∃ t, State.identLoop as s = some t ∧ State.Polled Hub.onPing (as.map pingTurn) s t := by
  induction as generalizing s with
  | nil => exact ⟨s, rfl, .rfl' s⟩
  | cons a as ih =>
    obtain ⟨done, r, s', hx, hturn⟩ := exchange_polled Hub.onPing hs (x := pingTurn a) (by simp [pingTurn])
    have hnext : (if done = true ∧ r.head? = some ACK then s'.mapHub (fun h => h.enrol a) else s') =
        if done = true then s'.mapHub (fun h => h.onPing (a, r)) else s' := by
      by_cases hack : r.head? = some ACK <;> simp [hack, Hub.onPing, State.mapHub]
    obtain ⟨t, ht, hrest⟩ := ih (hturn.unstuck hs)
    refine ⟨t, ?_, hturn.trans hrest⟩
    rw [State.identLoop, show s.exchange a (framed (pingMsg a)) 1 = _ from hx]
    exact (congrArg (State.identLoop as) hnext).trans ht

theorem live_length (h : Hub) : h.live.length = h.rosterCnt.val := by
  have := h.rosterCnt.isLt
  simp only [Hub.live, List.length_take, Vector.length_toList]
  omega

/-- The roster after a sweep: the addresses whose reply began with ACK, in order, as long as they fit. -/
theorem foldl_onPing (rs : List (Addr × List Byte)) {h : Hub} (hroom : h.rosterCnt.val + rs.length ≤ 125) :
    (rs.foldl Hub.onPing h).live =
        h.live ++ (rs.filter (fun x => x.2.head? = some ACK)).map (fun x => addrByte x.1) ∧
      rs.foldl Hub.onPing h = { h with
        roster := (rs.foldl Hub.onPing h).roster, rosterCnt := (rs.foldl Hub.onPing h).rosterCnt } := by
  induction rs generalizing h with
  | nil => exact ⟨(List.append_nil _).symm, rfl⟩
  | cons x rs ih =>
    rw [List.length_cons] at hroom
    rw [List.foldl_cons]
    by_cases hack : x.2.head? = some ACK
    · obtain ⟨hlive, hcnt, hframe⟩ := enrol_live h x.1 (by omega)
      obtain ⟨ihlive, ihframe⟩ := ih (h := h.enrol x.1) (by omega)
      rw [show h.onPing x = h.enrol x.1 from if_pos hack, ihlive, hlive]
      refine ⟨by simp [hack], ihframe.trans ?_⟩
      rw [hframe]
    · rw [show h.onPing x = h from if_neg hack]
      obtain ⟨ihlive, ihframe⟩ := ih (h := h) (by omega)
      exact ⟨by simp [ihlive, hack], ihframe⟩

theorem sweep_length (n : Nat) : (sweep n).length = n - 1 := by simp [sweep]

theorem exec_hIdent_polled {s : State} (hs : s.unstuck) :
    ∃ u, exec .hIdent s = .next (u.ret (.count u.hub.rosterCnt.val)) ∧
      State.Polled Hub.onPing ((sweep s.maxClients.val).map pingTurn) (s.start.mapHub Hub.clearRoster) u := by
  obtain ⟨u, hu, hpolled⟩ :=
    identLoop_polled (sweep s.maxClients.val) (s := s.start.mapHub Hub.clearRoster) hs
  exact ⟨u, by simp only [exec, execHIdent, hu, Option.map_some, hubOutcome], hpolled⟩

/-! ### H.SCAN (R111) -/

/-- H.SCAN's turn at a roster entry. -/
def readTurn (a : Byte) : Turn := ⟨a.setWidth 7, framed (readMsg a), HUB_READ_LEN⟩

/-- What H.SCAN makes of a reply. -/
def Hub.onPoll (h : Hub) (x : Addr × List Byte) : Hub := h.onPollReply x.2

theorem readTurn_actions (a : Byte) : (readTurn a).actions =
    [.write (a.setWidth 7) [0x82, a, 0xD2, a ^^^ 0xD3, 0x83], .read (a.setWidth 7) 8] := by
  have htrailer : trailer (readMsg a) = a ^^^ 0xD3 := by
    simp only [trailer_eq, readMsg, xorAll_cons, xorAll_nil, BitVec.xor_assoc]
    rfl
  rw [Turn.actions, readTurn, framed, htrailer]
  rfl

/-- What the hub does on the bus in a polling round over the entries `as`. -/
theorem flatMap_readTurn (as : List Byte) : (as.map readTurn).flatMap Turn.actions = as.flatMap (fun a =>
    [.write (a.setWidth 7) [0x82, a, 0xD2, a ^^^ 0xD3, 0x83], .read (a.setWidth 7) 8]) := by
  simp only [List.flatMap_map, readTurn_actions]

theorem scanLoop_polled (as : List Byte) {s : State} (hs : s.unstuck) :
    ∃ t, State.scanLoop as s = some t ∧ State.Polled Hub.onPoll (as.map readTurn) s t := by
  induction as generalizing s with
  | nil => exact ⟨s, rfl, .rfl' s⟩
  | cons a as ih =>
    obtain ⟨done, r, s', hx, hturn⟩ := exchange_polled Hub.onPoll hs (x := readTurn a) (Nat.le_refl _)
    obtain ⟨t, ht, hrest⟩ := ih (hturn.unstuck hs)
    refine ⟨t, ?_, hturn.trans hrest⟩
    rw [State.scanLoop, show s.exchange (a.setWidth 7) (framed (readMsg a)) HUB_READ_LEN = _ from hx]
    exact ht

theorem scan_polled {s : State} (hs : s.unstuck) :
    ∃ t, s.scan = some t ∧ State.Polled Hub.onPoll (s.hub.live.map readTurn) s t :=
  scanLoop_polled s.hub.live hs

theorem onPollReply_wf {h : Hub} (hw : h.rxq.Wf) (r : List Byte) : (h.onPollReply r).rxq.Wf := by
  rw [onPollReply_eq]
  split
  · exact hw
  · rw [hub_accept_rxq]; exact Queue.put_wf hw _

/-- A polling round changes the hub's queue and flag at most. -/
theorem foldl_onPoll_frame (rs : List (Addr × List Byte)) (h : Hub) :
    rs.foldl Hub.onPoll h = { h with
      rxq := (rs.foldl Hub.onPoll h).rxq, allocFail := (rs.foldl Hub.onPoll h).allocFail } := by
  induction rs generalizing h with
  | nil => rfl
  | cons x rs ih =>
    rw [List.foldl_cons]
    refine (ih (h.onPoll x)).trans ?_
    rw [Hub.onPoll, onPollReply_frame]

/-- What did not fit before does not fit later. -/
theorem take_take_append {α : Type} (n : Nat) (xs ys : List α) : (xs.take n ++ ys).take n = (xs ++ ys).take n := by
  rw [List.take_append, List.take_append, List.take_take, Nat.min_self, List.length_take]
  congr 2
  omega

/-- The hub's queue after a polling round: the messages the replies bring, as far as its 40 slots go. -/
theorem foldl_onPoll_list {rs : List (Addr × List Byte)} (hrs : ∀ x ∈ rs, x.2.length ≤ HUB_READ_LEN) {h : Hub}
    (hw : h.rxq.Wf) :
    (rs.foldl Hub.onPoll h).rxq.list = (h.rxq.list ++ rs.filterMap (fun x => polledMessage x.2)).take 40 ∧
      (rs.foldl Hub.onPoll h).allocFail = (h.allocFail ||
        decide (40 < (h.rxq.list ++ rs.filterMap (fun x => polledMessage x.2)).length)) ∧
      (rs.foldl Hub.onPoll h).rxq.Wf := by
  induction rs generalizing h with
  | nil =>
    have hle : h.rxq.list.length ≤ 40 := by
      have := h.rxq.count.isLt
      rw [Queue.list_length]; omega
    exact ⟨by simp [List.take_of_length_le hle], by simp [hle], hw⟩
  | cons x rs ih =>
    obtain ⟨hx, hrs⟩ := List.forall_mem_cons.1 hrs
    obtain ⟨hlist, hflag⟩ := onPollReply_list hw (hx.trans (by decide : HUB_READ_LEN ≤ 16))
    obtain ⟨ihlist, ihflag, ihwf⟩ := ih hrs (onPollReply_wf hw x.2)
    have hcons : (x :: rs).filterMap (fun x => polledMessage x.2) =
        (polledMessage x.2).toList ++ rs.filterMap (fun x => polledMessage x.2) := by
      cases hp : polledMessage x.2 <;> simp [hp]
    rw [List.foldl_cons, hcons, ← List.append_assoc]
    refine ⟨?_, ?_, ihwf⟩
    · rw [show h.onPoll x = h.onPollReply x.2 from rfl, ihlist, hlist, take_take_append]
    · rw [show h.onPoll x = h.onPollReply x.2 from rfl, ihflag, hlist, hflag, Bool.or_assoc]
      congr 1
      simp only [List.length_append, List.length_take, ← Bool.decide_or, decide_eq_decide]
      omega

theorem exec_hScan_polled {s : State} (hs : s.unstuck) :
    ∃ u, exec .hScan s = .next u ∧ State.Polled Hub.onPoll (s.hub.live.map readTurn) s.start u := by
  obtain ⟨u, hu, hpolled⟩ := scan_polled (s := s.start) hs
  exact ⟨u, by simp only [exec, execHScan, hu, hubOutcome], hpolled⟩

/-! ### H.GET (R112, R116) -/

theorem scanDue_iff {h : Hub} {now : Millis} :
    h.scanDue now = true ↔ h.lastScanValid = false ∨ 100 ≤ (now - h.lastScan).toNat := by
  simp [Hub.scanDue, SCAN_INTERVAL_MS]

theorem scanDue_eq_false_iff {h : Hub} {now : Millis} :
    h.scanDue now = false ↔ h.lastScanValid = true ∧ (now - h.lastScan).toNat < 100 := by
  rw [← Bool.not_eq_true, scanDue_iff, not_or, Bool.not_eq_false, Nat.not_le]

theorem exec_hGet_notDue {s : State} (h : s.hub.scanDue s.now = false) : exec .hGet s = .next s.start.hubTake := by
  simp only [exec, execHGet, h, Bool.false_eq_true, if_false]

/-- The dequeue of H.GET changes the result, the count of free values and the hub's queue at most. -/
theorem hubTake_frame (u : State) : u.hubTake = { u with
    out := u.hubTake.out, freeCount := u.hubTake.freeCount, hub := { u.hub with rxq := u.hubTake.hub.rxq } } := by
  obtain ⟨_, e⟩ | ⟨q, _, e⟩ | ⟨b, m, q, _, e⟩ := hubTake_cases u
  · rw [e]; rfl
  · rw [e]
  · rw [e]

/-- The dequeue of H.GET on an empty queue. -/
theorem hubTake_empty {u : State} (h : u.hub.rxq.list = []) : u.hubTake = u.ret (.got 0 []) := by
  rw [State.hubTake, dequeue_eq_none_iff.mpr h]

theorem hubTake_rest {u : State} {m : List Byte} {rest : List (List Byte)} (h : u.hub.rxq.list = m :: rest) :
    u.hubTake.hub.rxq.list = rest := by
  obtain ⟨q, hd, hlist, _⟩ := Queue.dequeue_of_list h
  rw [State.hubTake, hd]
  cases m <;> exact hlist

theorem hubTake_out_empty {u : State} {rest : List (List Byte)} (h : u.hub.rxq.list = [] :: rest) :
    ∃ a, u.hubTake.out = .got a [] := by
  obtain ⟨q, hd, _⟩ := Queue.dequeue_of_list h
  rw [State.hubTake, hd]
  exact ⟨_, rfl⟩

theorem hubTake_wf {u : State} (hw : u.hub.rxq.Wf) : u.hubTake.hub.rxq.Wf := by
  cases hlist : u.hub.rxq.list with
  | nil => rw [hubTake_empty hlist]; exact hw
  | cons m rest =>
    obtain ⟨q, hd, _, hq⟩ := Queue.dequeue_of_list hlist
    rw [State.hubTake, hd]
    cases m <;> exact hq hw

/-- A due H.GET on an unstuck transport: the scan from the stamped state, then the dequeue. -/
theorem exec_hGet_polled {s : State} (hs : s.unstuck) (hdue : s.hub.scanDue s.now = true) :
    ∃ u, exec .hGet s = .next u.hubTake ∧
      exec .hScan { s with hub := { s.hub with lastScan := s.now, lastScanValid := true } } = .next u ∧
      State.Polled Hub.onPoll (s.hub.live.map readTurn) (s.start.mapHub (fun h => h.stamp s.now)) u := by
  obtain ⟨u, hu, hpolled⟩ := scan_polled (s := s.start.mapHub (fun h => h.stamp s.now)) hs
  exact ⟨u, exec_hGet_due hdue hu, congrArg hubOutcome hu, hpolled⟩

/-- A due H.GET keeps its clock sample as the time of the last poll (R112). -/
theorem rateLimiter_of_hGet_due {s t : State} (hdue : s.hub.scanDue s.now = true) (h : exec .hGet s = .next t) :
    t.hub.lastScan = s.now ∧ t.hub.lastScanValid = true := by
  have hkept := keptBy_rateLimiter (i := .hScan) (by decide) s.now true
  simp only [exec, execHGet, hdue, if_true] at h
  obtain ⟨u, hu, rfl⟩ := Option.map_eq_some_iff.mp (hubOutcome_next h)
  exact hkept.hubTake (hkept.scanLoop hu ⟨rfl, rfl⟩)

/-! ### H.SEND (R113) -/

/-- The message of H.SEND is the payload cut to 14 bytes behind address and command. -/
theorem writeMsg_eq (a : Addr) (d : List Byte) : writeMsg a d = [addrByte a, WRITE] ++ d.take 14 := by
  simp [writeMsg, MAX_MSG_LEN]

/-! ### An exchange on the reference bus (R49) -/

/-- On the reference bus, at an address with no node, a write and a read change nothing but the trace (R44, R49). -/
theorem exchange_absent {s : State} {a : Addr} (bs : List Byte) (k : Nat) (hp : s.plans = [])
    (hn : s.node? a = none) :
    s.exchange a bs k = some (false, [], (s.log (.write a bs)).log (.read a k false [])) := by
  have hplan : s.plan = Plan.reference := by simp [State.plan, hp]
  have hset : s.setPlans [] = s := by rw [← hp]; rfl
  simp [State.exchange, hplan, hp, hset, Plan.reference, State.runEvents, State.busWrite, State.busRead,
    mapNode_absent s a _ hn, hn]

/-- A node that is reached by an intact packet whose command is not READ answers ACK, whatever it held before. -/
theorem answer_intact {m : List Byte} (hm : Intact m) (hc : m[1]?.getD 0 ≠ READ) (n : Node) :
    (n.accrue (framed m)).answer =
      ([ACK], { ({ n with wire := [] }.recv n.wire).recv (framed m) with pcValid := false }) := by
  rw [Node.answer, accrue_flush, recv_append]
  exact req_command (recv_framed_pending hm rfl) hc

/-- So it does when the transport held nothing for it. -/
theorem answer_intact_of_wire_nil {m : List Byte} (hm : Intact m) (hc : m[1]?.getD 0 ≠ READ) {n : Node}
    (hwire : n.wire = []) :
    (n.accrue (framed m)).answer = ([ACK], { n.recv (framed m) with pcValid := false }) := by
  have hheld : { n with wire := [] }.recv n.wire = n := by rw [hwire, recv_nil, ← hwire]
  rw [answer_intact hm hc, hheld]

/-- All an exchange on the reference bus with a node that is there does (R49): a write, a completed read, and the node
after its answer. -/
theorem exchange_reference_spec {s : State} {a : Addr} {n : Node} (bs : List Byte) (k : Nat) (hp : s.plans = [])
    (hn : s.node? a = some n) :
    ∃ t, s.exchange a bs k = some (true, Plan.reference.received k (n.accrue bs).answer.1, t) ∧ t.hub = s.hub ∧
      t.trace = s.trace ++ [.write a bs, .read a k true (Plan.reference.received k (n.accrue bs).answer.1)] ∧
      t.node? a = some (n.accrue bs).answer.2 ∧ ∀ j, j ≠ a → t.node? j = s.node? j := by
  have hwrite : ((s.setPlans []).mapNode a (fun m => m.accrue bs)).node? a = some (n.accrue bs) :=
    node?_mapNode_some hn fun m => accrue_addr m bs
  refine ⟨_, exchange_reference bs k hp hn, rfl, ?_, node?_mapNode_some hwrite answer_addr, fun j hj => ?_⟩
  · simp
  · calc _ = ((s.setPlans []).mapNode a (fun m => m.accrue bs)).node? j :=
          node?_mapNode_other _ a j _ (fun m => (answer_addr m).trans) hj
      _ = s.node? j := node?_mapNode_other _ a j _ (fun m => (accrue_addr m bs).trans) hj

/-! ### Discovery on the reference bus (R49, R110) -/

/-- Where nodes are present is part of the configuration. -/
theorem node?_isSome_of_config {s t : State}
    (h : t.nodes.map (fun n => (n.addr, n.policy)) = s.nodes.map (fun n => (n.addr, n.policy))) (a : Addr) :
    (t.node? a).isSome = (s.node? a).isSome := by
  have hany (u : State) : (u.node? a).isSome =
      (u.nodes.map (fun n => (n.addr, n.policy))).any (fun c => decide (c.1 = a)) := by
    rw [State.node?, List.any_map, List.isSome_find?]
    rfl
  rw [hany, hany, h]

/-- On the reference bus an intact ping is answered ACK where there is a node, and by nobody elsewhere. -/
theorem exchange_ping {s s' : State} {a : Addr} {done : Bool} {r : List Byte} (hp : s.plans = []) (h50 : a ≠ 50)
    (h51 : a ≠ 51) (h : s.exchange a (framed (pingMsg a)) 1 = some (done, r, s')) :
    done = (s.node? a).isSome ∧ (done = true → r = [ACK]) := by
  cases hn : s.node? a with
  | none =>
    rw [exchange_absent _ 1 hp hn] at h
    cases h
    exact ⟨rfl, nofun⟩
  | some n =>
    rw [exchange_reference _ 1 hp hn, answer_intact (intact_ping h50 h51) (by decide : PING ≠ READ),
      reference_received_singleton] at h
    cases h
    exact ⟨rfl, fun _ => rfl⟩

/-- The replies of a sweep on the reference bus: ACK from each node present, and no other. -/
theorem identLoop_reference {as : List Addr} (has : ∀ a ∈ as, a ≠ 50 ∧ a ≠ 51) {s t : State} (hp : s.plans = [])
    (h : State.identLoop as s = some t) :
    repliesRead t.trace = repliesRead s.trace ++
      (as.filter (fun a => (s.node? a).isSome)).map (fun a => (a, [ACK])) := by
  induction as generalizing s with
  | nil => cases h; simp
  | cons a as ih =>
    obtain ⟨⟨h50, h51⟩, has⟩ := List.forall_mem_cons.1 has
    obtain ⟨done, r, s', hx, hrest⟩ := identLoop_cons h
    obtain ⟨hframe, hplans, _⟩ := exchange_frame hx
    obtain ⟨hdone, hack⟩ := exchange_ping hp h50 h51 hx
    generalize hu : (if done = true ∧ r.head? = some ACK then s'.mapHub (fun h => h.enrol a) else s') = u at hrest
    have hsame : u.plans = s'.plans ∧ u.trace = s'.trace ∧ u.nodes = s'.nodes := by
      rw [← hu]; split <;> exact ⟨rfl, rfl, rfl⟩
    obtain ⟨huplans, hutrace, hunodes⟩ := hsame
    have hpresent (b : Addr) : (u.node? b).isSome = (s.node? b).isSome :=
      node?_isSome_of_config (by rw [hunodes]; exact hframe.config) b
    rw [ih has (by rw [huplans, hplans, hp]; rfl) hrest, hutrace, (exchange_replies hx).1]
    simp only [hpresent, List.append_assoc]
    cases done with
    | false => simp [← hdone]
    | true => simp [← hdone, hack rfl]

/-- A sweep of at most 50 clients pings addresses 1 to 49, none of those whose ping collides (R161). -/
theorem sweep_ne {n : Nat} (hn : n ≤ 50) : ∀ a ∈ sweep n, a ≠ 50 ∧ a ≠ 51 := by
  intro a ha
  obtain ⟨i, hi, rfl⟩ := List.mem_map.mp ha
  obtain ⟨hlow, hhigh⟩ := List.mem_range'_1.mp hi
  have hval : (BitVec.ofNat 7 i).toNat = i := by
    rw [BitVec.toNat_ofNat, Nat.mod_eq_of_lt (by omega)]
  constructor <;>
  · intro e
    rw [e] at hval
    bv_omega

/-! ### A control byte towards the hub (R77, R111) -/

/-- The row of each listed byte, towards the hub, is the byte's arrival there. -/
theorem exec_byteRow_toHub {x : (Lane → Instr) × Byte} (hx : x ∈ byteRows) (s : State) :
    exec (x.1 .toHub) s = s.arrive .toHub [x.2] := by
  simp only [byteRows, List.mem_cons, List.not_mem_nil, or_false] at hx
  obtain rfl | rfl | rfl | rfl | rfl | rfl | rfl | rfl | rfl | rfl | rfl := hx <;> rfl

/-- A reply of one byte brings that byte, unless it is one of the four that bring nothing (R77). -/
theorem polledMessage_singleton {b : Byte} (hb : b ∉ [NULL, ACK, NO_DATA, POLL_TERM]) :
    polledMessage [b] = some [b] := by
  have hterm : b ≠ POLL_TERM := by rintro rfl; exact hb (by decide)
  exact (if_neg hb).trans (by simp [hterm])

/-! ### The statements -/

/-- Settles O37: the sweep is a polling run that starts from the emptied roster, and has room for every address. -/
theorem hIdentBuildsRosterFromAcks : Obligations.HIdentBuildsRosterFromAcks := by
  unfold Obligations.HIdentBuildsRosterFromAcks
  intro s hs
  obtain ⟨u, hu, hpolled⟩ := exec_hIdent_polled hs
  obtain ⟨hframe, _, hacts, rs, hreplies, hhub, hcount, _⟩ := hpolled
  have hroom : (s.hub.clearRoster).rosterCnt.val + rs.length ≤ 125 := by
    have hN := s.maxClients.isLt
    rw [List.length_map, sweep_length] at hcount
    have hzero : (s.hub.clearRoster).rosterCnt.val = 0 := rfl
    omega
  obtain ⟨hlive, hrest⟩ := foldl_onPing rs hroom
  obtain rfl : repliesRead u.trace = rs := hreplies
  have hhub' : u.hub = (repliesRead u.trace).foldl Hub.onPing s.hub.clearRoster := hhub
  rw [← hhub'] at hlive hrest
  exact ⟨_, hu, hacts.trans (flatMap_pingTurn _), hlive, congrArg Result.count (live_length u.hub).symm, hrest,
    hframe.maxClients, hframe.inputs, hframe.freeCount, hframe.config⟩

/-- Settles O38: the roster is made of the replies, and on the reference bus these are the ACKs of the nodes present. -/
theorem discoveryFindsPresentNodes : Obligations.DiscoveryFindsPresentNodes := by
  unfold Obligations.DiscoveryFindsPresentNodes
  intro s hp hN
  obtain ⟨t, ht, _, hlive, hout, _⟩ := hIdentBuildsRosterFromAcks s (by simp [State.unstuck, hp])
  obtain ⟨u, hu, rfl⟩ := Option.map_eq_some_iff.mp (hubOutcome_next ht)
  have hreplies := identLoop_reference (sweep_ne hN) (s := s.start.mapHub Hub.clearRoster) hp hu
  have hpresent : u.hub.live = ((sweep s.maxClients.val).filter (fun a => (s.node? a).isSome)).map addrByte := by
    refine hlive.trans ?_
    rw [ret_trace, hreplies]
    simp [repliesRead, List.filter_map, Function.comp_def]
  refine ⟨_, ht, hpresent, hout.trans ?_⟩
  rw [ret_hub, hpresent, List.length_map]

/-- Settles O39: the polling round is a polling run over the roster. -/
theorem hScanQueuesPolledMessages : Obligations.HScanQueuesPolledMessages := by
  unfold Obligations.HScanQueuesPolledMessages
  intro s hs hw
  obtain ⟨u, hu, hpolled⟩ := exec_hScan_polled hs
  obtain ⟨hframe, _, hacts, rs, hreplies, hhub, _, hlen⟩ := hpolled
  obtain rfl : repliesRead u.trace = rs := hreplies
  obtain ⟨hlist, hflag, hwf⟩ := foldl_onPoll_list hlen hw
  have hrest := foldl_onPoll_frame (repliesRead u.trace) s.hub
  have hhub' : u.hub = (repliesRead u.trace).foldl Hub.onPoll s.hub := hhub
  rw [← hhub'] at hlist hflag hwf hrest
  exact ⟨u, hu, hframe.out, hacts.trans (flatMap_readTurn _), hlist, hflag, hwf, hrest, hframe.maxClients,
    hframe.inputs, hframe.freeCount, hframe.config⟩

/-- Settles O40: by whether a poll is due; the dequeue is the same. -/
theorem hGetPollsWhenDueThenDequeues : Obligations.HGetPollsWhenDueThenDequeues := by
  unfold Obligations.HGetPollsWhenDueThenDequeues
  intro s hs
  obtain ⟨u, hget, hwait, hpoll⟩ : ∃ u, exec .hGet s = .next u.hubTake ∧
      (s.hub.scanDue s.now = false → u = s.start) ∧ (s.hub.scanDue s.now = true →
        exec .hScan { s with hub := { s.hub with lastScan := s.now, lastScanValid := true } } = .next u) := by
    cases hdue : s.hub.scanDue s.now with
    | false => exact ⟨s.start, exec_hGet_notDue hdue, fun _ => rfl, nofun⟩
    | true =>
      obtain ⟨u, hget, hscan, _⟩ := exec_hGet_polled hs hdue
      exact ⟨u, hget, nofun, fun _ => hscan⟩
  refine ⟨u, u.hubTake, hget, fun hv hlt => hwait (scanDue_eq_false_iff.mpr ⟨hv, hlt⟩),
    fun hdue => hpoll (scanDue_iff.mpr hdue), hubTake_frame u, hubTake_wf, fun h => ?_,
    fun b m rest h => ⟨hubTake_out h, hubTake_rest h⟩, fun rest h => ⟨hubTake_out_empty h, hubTake_rest h⟩⟩
  rw [hubTake_empty h]
  exact ⟨rfl, rfl⟩

/-- Settles O41: after a poll the rate limiter holds its clock sample. -/
theorem rateLimit : Obligations.RateLimit := by
  unfold Obligations.RateLimit
  intro s t s' hdue ht hlast hvalid
  obtain ⟨hstamp, hset⟩ := rateLimiter_of_hGet_due hdue ht
  have hiff : s'.hub.scanDue s'.now = true ↔ 100 ≤ (s'.now - s.now).toNat := by
    rw [scanDue_iff, hlast, hvalid, hstamp, hset]
    simp
  constructor
  · intro hlt
    have hnot : s'.hub.scanDue s'.now = false := by
      rw [← Bool.not_eq_true, hiff]; omega
    exact ⟨_, exec_hGet_notDue hnot, by rw [hubTake_frame]; rfl⟩
  · intro hge hs'
    have hdue' := hiff.mpr hge
    obtain ⟨u, hget, _, hpolled⟩ := exec_hGet_polled hs' hdue'
    refine ⟨_, hget, (rateLimiter_of_hGet_due hdue' hget).1, ?_⟩
    rw [hubTake_frame]
    exact hpolled.actions.trans (flatMap_readTurn _)

/-- Settles O42: H.SEND is one exchange, of which it keeps no byte. -/
theorem hSendWritesThenProbes : Obligations.HSendWritesThenProbes := by
  unfold Obligations.HSendWritesThenProbes
  intro s a d
  rw [← writeMsg_eq]
  constructor
  · intro hs
    obtain ⟨done, r, u, hx⟩ := exchange_isSome (s := s.start) a (framed (writeMsg a d)) 1 (unstuck_plan hs)
    obtain ⟨hframe, _, hacts⟩ := exchange_frame hx
    have hreplies : repliesRead u.trace = if done = true then [(a, r)] else [] := (exchange_replies hx).1
    refine ⟨_, done, exec_hSend_of_exchange hx, rfl, hframe.hub, hacts, ?_, hframe.maxClients, hframe.inputs,
      hframe.freeCount, hframe.config⟩
    rw [ret_trace, hreplies]
    cases done <;> simp
  · intro hp hn
    exact exec_hSend_of_exchange (exchange_absent (s := s.start) _ 1 hp hn)

/-- Settles O43: the packet is received whole and accepted; the probe is answered ACK and uses the command up. -/
theorem hSendReachesNodeQueue : Obligations.HSendReachesNodeQueue := by
  unfold Obligations.HSendReachesNodeQueue
  intro s k n d hp hn hwire hw hm
  have hmsg : writeMsg k d = [addrByte k, WRITE] ++ d := by
    obtain ⟨_, hlen, _⟩ := hm
    rw [List.length_append, List.length_cons, List.length_singleton] at hlen
    rw [writeMsg_eq, List.take_of_length_le (by omega)]
  have hctl : WRITE ∉ [PING, READ, NO_DATA] := by decide
  obtain ⟨t, hx, hhub, htrace, hnode, hothers⟩ :=
    exchange_reference_spec (s := s.start) (framed ([addrByte k, WRITE] ++ d)) 1 hp hn
  have hanswer := answer_intact_of_wire_nil hm (by decide : WRITE ≠ READ) hwire
  rw [hanswer, reference_received_singleton] at hx htrace
  rw [hanswer] at hnode
  exact ⟨_, _, exec_hSend_of_exchange (by rw [hmsg]; exact hx), rfl, hhub, htrace, hnode, hothers,
    pending_eq_none_iff.mpr rfl, recv_txq n _, (recv_wire n _).trans hwire, recv_framed_room hm rfl hctl hw,
    recv_framed_full hm rfl hctl⟩

/-- Settles O33: each of the rows is its byte's arrival, which brings the hub that byte or nothing. -/
theorem controlBytesReachHub : Obligations.ControlBytesReachHub := by
  unfold Obligations.ControlBytesReachHub
  intro x hx s hw
  rw [exec_byteRow_toHub hx]
  by_cases hb : x.2 ∈ [NULL, ACK, NO_DATA, POLL_TERM]
  · have hnone : polledMessage ([x.2].take 8) = none := if_pos hb
    exact ⟨_, arrive_toHub_nothing s hnone, ⟨rfl, rfl, rfl, rfl, rfl, rfl, rfl⟩, rfl, rfl, fun _ => rfl,
      fun h => absurd hb h, fun h => absurd hb h⟩
  · have hsome : polledMessage ([x.2].take 8) = some [x.2] := polledMessage_singleton hb
    exact ⟨_, arrive_toHub_message s hsome, ⟨rfl, rfl, rfl, rfl, rfl, rfl, rfl⟩, rfl, hub_accept_frame _ _,
      fun h => absurd h hb, fun _ hroom => hub_accept_room hw hroom (Nat.le_add_left 1 15),
      fun _ hfull => by simp only [mapHub_hub, start_hub, hub_accept_full hfull, and_self]⟩

/-- Settles O47: H.CLIENTS reads two registers. -/
theorem hClientsReadsRoster : Obligations.HClientsReadsRoster := by
  unfold Obligations.HClientsReadsRoster
  intro s copy
  rfl

end Sys2Proof.Machine
end

section
/-! PROOFS for 70_reset_and_hazards.md (O15, O16, O30, O46, O49): what the framing does where R83 does not apply
(`decode_framed_cut`, `decode_framed_restarted`), that a hub operation which ends has spent no plan that never ends
(`State.Ends`), and what the two reset events leave. -/

namespace Sys2Proof.Machine

open Sys2Proof.Config

/-! ### Messages the framing does not carry (R144, R145) -/

/-- With its trailer but without END, a message accumulates to END. -/
theorem xorAll_message_trailer (m : List Byte) : START ^^^ xorAll m ^^^ trailer m = END := by
  calc START ^^^ xorAll m ^^^ trailer m
      = (START ^^^ START) ^^^ (xorAll m ^^^ xorAll m) ^^^ END := by rw [trailer]; ac_rfl
    _ = END := by simp only [BitVec.xor_self]; rfl

/-- A message of no delimiter that fits the buffer terminates nothing before its trailer. -/
theorem decode_framed_body (d : Deframer) {m : List Byte} (hm : ∀ b ∈ m, b ≠ START ∧ b ≠ END)
    (hlen : m.length ≤ 16) : d.decode (framed m) = (dfAfter d.restart m).decode [trailer m, END] := by
  obtain ⟨hquiet, _⟩ := dfAfter_body (restart_sync d) hm (by simpa using hlen)
  calc d.decode (framed m)
      = d.restart.decode (m ++ [trailer m, END]) := decode_cons_noPacket (step_start d) _
    _ = (dfAfter d.restart m).decode [trailer m, END] := decode_append hquiet _

/-- A trailer that terminates, for it is END or finds the buffer full, takes the place of END: the verdict is Invalid,
the last message byte is dropped as if it were the trailer, and END is left over. -/
theorem decode_framed_cut (d : Deframer) {m : List Byte} (hm : ∀ b ∈ m, b ≠ START ∧ b ≠ END) (hlen : m.length ≤ 16)
    (hstart : trailer m ≠ START) (hends : trailer m = END ∨ m.length = 16) :
    ∃ d' : Deframer, d.decode (framed m) = (.invalid m.dropLast, [END], d') := by
  obtain ⟨_, hsync, hheld, hpar⟩ := dfAfter_body (restart_sync d) hm (by simpa using hlen)
  rw [restart_held, List.nil_append] at hheld
  have hfull : trailer m = END ∨ (dfAfter d.restart m).cur.val = 16 := by rwa [← held_length, hheld]
  have hstep := step_terminate hsync hstart hfull
  have hpar' : ((dfAfter d.restart m).terminate (trailer m)).par = END := by
    rw [terminate_par, hpar, restart_par, xorAll_message_trailer]
  rw [verdict_invalid (by rw [hpar']; decide), terminate_held, hheld] at hstep
  exact ⟨_, (decode_framed_body d hm hlen).trans (decode_cons_event hstep nofun [END])⟩

/-- A trailer that is START restarts the deframer, and what follows it is a packet of no bytes. -/
theorem decode_framed_restarted (d : Deframer) {m : List Byte} (hm : ∀ b ∈ m, b ≠ START ∧ b ≠ END)
    (hlen : m.length ≤ 16) (hstart : trailer m = START) :
    ∃ d' : Deframer, d.decode (framed m) = (.invalid [], [], d') := by
  obtain ⟨d', hd, hheld, hpar⟩ := decode_packet (dfAfter d.restart m) (s := []) (by simp) (by decide)
  rw [verdict_invalid (by rw [hpar]; decide), hheld] at hd
  rw [decode_framed_body d hm hlen, hstart]
  exact ⟨d', hd⟩

/-- What DF.DECODE at a node returns, read off what the node's deframer makes of the bytes. -/
theorem exec_dfDecode_out {s : State} {k : Addr} {n : Node} {bs rest : List Byte} {e : DfEvent}
    (hn : s.node? k = some n) (h : ∃ d', n.df.decode bs = (e, rest, d')) :
    ∃ t, exec (.dfDecode k bs) s = .next t ∧ t.out = .decoded e rest := by
  obtain ⟨d', hd⟩ := h
  obtain ⟨t, ht, hout, _⟩ := exec_dfDecode_spec hn bs
  exact ⟨t, ht, by rw [hout, hd]⟩

/-! ### Transactions that never end (R159) -/

/-- None of the plans for the next `k` exchanges is of a transaction that never ends. -/
def State.Ends (s : State) (k : Nat) : Prop := ∀ p ∈ s.plans.take k, p.fate ≠ .stuck

theorem not_ends_iff {s : State} {k : Nat} : ¬ s.Ends k ↔ ∃ p ∈ s.plans.take k, p.fate = .stuck := by
  simp [State.Ends]

theorem exchange_stuck {s : State} (h : s.plan.fate = .stuck) (a : Addr) (bs : List Byte) (k : Nat) :
    s.exchange a bs k = none := by
  simp only [State.exchange, State.busRead, h]

/-- An exchange that ends spends one plan, and that one ends. -/
theorem exchange_ends {s t : State} {a : Addr} {bs : List Byte} {k j : Nat} {done : Bool} {r : List Byte}
    (h : s.exchange a bs k = some (done, r, t)) (ht : t.Ends j) : s.Ends (j + 1) := by
  obtain ⟨_, hplans, _⟩ := exchange_frame h
  rw [State.Ends, hplans] at ht
  rw [State.Ends]
  cases hp : s.plans with
  | nil => simp
  | cons p ps =>
    have hfirst : p.fate ≠ .stuck := by
      intro hstuck
      have hplan : s.plan = p := by rw [State.plan, hp, List.headD_cons]
      rw [exchange_stuck (hplan ▸ hstuck)] at h
      cases h
    rw [hp, List.tail_cons] at ht
    exact List.forall_mem_cons.2 ⟨hfirst, ht⟩

/-- A sweep that ends has spent one plan per address. -/
theorem identLoop_ends {as : List Addr} {s t : State} (h : State.identLoop as s = some t) : s.Ends as.length := by
  induction as generalizing s with
  | nil => simp [State.Ends]
  | cons a as ih =>
    obtain ⟨done, r, s', hx, hrest⟩ := identLoop_cons h
    refine exchange_ends hx ?_
    have hnext := ih hrest
    split at hnext <;> exact hnext

/-- A polling round that ends has spent one plan per entry. -/
theorem scanLoop_ends {as : List Byte} {s t : State} (h : State.scanLoop as s = some t) : s.Ends as.length := by
  induction as generalizing s with
  | nil => simp [State.Ends]
  | cons a as ih =>
    obtain ⟨done, r, s', hx, hrest⟩ := scanLoop_cons h
    refine exchange_ends hx ?_
    have hnext := ih hrest
    split at hnext <;> exact hnext

theorem scan_ends {s t : State} (h : s.scan = some t) : s.Ends s.hub.rosterCnt.val :=
  live_length s.hub ▸ scanLoop_ends h

/-- A hub operation stops with `busStuck` when its run cannot end. -/
theorem hubOutcome_stuck {o : Option State} (h : ∀ t, o ≠ some t) : hubOutcome o = .fault .busStuck := by
  rw [Option.eq_none_iff_forall_ne_some.2 h, hubOutcome]

section

variable {s : State}

theorem exec_hSend_stuck (h : ¬ s.Ends 1) (a : Addr) (d : List Byte) : exec (.hSend a d) s = .fault .busStuck := by
  refine hubOutcome_stuck fun t ht => h ?_
  obtain ⟨⟨done, r, u⟩, hx, _⟩ := Option.map_eq_some_iff.mp ht
  exact exchange_ends (s := s.start) (j := 0) hx (by simp [State.Ends])

theorem exec_hIdent_stuck (h : ¬ s.Ends (s.maxClients.val - 1)) : exec .hIdent s = .fault .busStuck := by
  refine hubOutcome_stuck fun t ht => h ?_
  obtain ⟨u, hu, _⟩ := Option.map_eq_some_iff.mp ht
  exact sweep_length s.maxClients.val ▸ identLoop_ends (s := s.start.mapHub Hub.clearRoster) hu

theorem exec_hScan_stuck (h : ¬ s.Ends s.hub.rosterCnt.val) : exec .hScan s = .fault .busStuck :=
  hubOutcome_stuck fun _ ht => h (scan_ends (s := s.start) ht)

theorem exec_hGet_stuck (hdue : s.hub.scanDue s.now = true) (h : ¬ s.Ends s.hub.rosterCnt.val) :
    exec .hGet s = .fault .busStuck := by
  simp only [exec, execHGet, hdue, if_true]
  refine hubOutcome_stuck fun t ht => h ?_
  obtain ⟨u, hu, _⟩ := Option.map_eq_some_iff.mp ht
  exact scan_ends (s := s.start.mapHub (fun h => h.stamp s.now)) hu

end

/-! ### Reset events (R140, R141) -/

/-- A step on an input that is no request runs that input. -/
theorem step_env {s : State} {i : Input} {rest : List Input} (hlegal : s.legal = true) (hin : s.inputs = i :: rest)
    (hi : s.fetch = .env i) : step s = (s.setInputs rest).runInput i := by
  simp only [step, hlegal, hi, consume_of_inputs hin, if_true]

theorem step_resetHub {s : State} {rest : List Input} (hlegal : s.legal = true) (hin : s.inputs = .resetHub :: rest) :
    step s = .next (s.setInputs rest).start.resetHub :=
  step_env hlegal hin (by rw [State.fetch, hin])

theorem step_resetNode {s : State} {k : Addr} {rest : List Input} (hlegal : s.legal = true)
    (hin : s.inputs = .event (.resetNode k) :: rest) :
    step s = .next ((s.setInputs rest).start.mapNode k Node.restart) :=
  step_env hlegal hin (by rw [State.fetch, hin])

/-! ### The statements -/

/-- Settles O15: the trailer, which is not START, finds the buffer full. -/
theorem sixteenByteMessageCut : Obligations.SixteenByteMessageCut := by
  unfold Obligations.SixteenByteMessageCut
  intro s k n m hn hlen hm hx
  have hcut := decode_framed_cut n.df hm hlen.le (mt trailer_eq_start_iff.1 hx) (.inr hlen)
  rw [List.dropLast_eq_take, hlen] at hcut
  exact exec_dfDecode_out hn hcut

/-- Settles O16: by which delimiter the trailer is. -/
theorem trailerCollision : Obligations.TrailerCollision := by
  unfold Obligations.TrailerCollision
  intro s k n m hn _ hlen hm
  constructor
  · intro hx
    have hend : trailer m = END := trailer_eq_end_iff.2 hx
    exact exec_dfDecode_out hn (decode_framed_cut n.df hm hlen (by rw [hend]; decide) (.inl hend))
  · intro hx
    exact exec_dfDecode_out hn (decode_framed_restarted n.df hm hlen (trailer_eq_start_iff.2 hx))

/-- Settles O30: whatever was pending, the second packet's command is pending after it, and N.REQ answers that one. -/
theorem laterCommandOverwrites : Obligations.LaterCommandOverwrites := by
  unfold Obligations.LaterCommandOverwrites
  intro s k n m1 m2 c hn _ hm2 _ hc hne
  obtain ⟨t1, ht1, _, _, hn1⟩ := exec_nRecv_spec hn (framed m1)
  obtain ⟨t2, ht2, _, _, hn2⟩ := exec_nRecv_spec hn1 (framed m2)
  obtain ⟨u, hu, hout, _, hnode⟩ := exec_nReq_spec hn2
  have hpending : ((n.recv (framed m1)).recv (framed m2)).pending = some c :=
    recv_framed_pending hm2 (by rw [hc, Option.getD_some])
  rw [req_command hpending hne] at hout hnode
  have htxq : ((n.recv (framed m1)).recv (framed m2)).txq = n.txq := by rw [recv_txq, recv_txq]
  exact ⟨t1, t2, u, _, ht1, ht2, hu, hout, hnode, htxq, pending_eq_none_iff.2 rfl⟩

/-- Settles O46: an operation that ended would have spent only plans that end. -/
theorem stuckTransactionStops : Obligations.StuckTransactionStops := by
  unfold Obligations.StuckTransactionStops
  intro s a d
  simp only [← not_ends_iff]
  exact ⟨fun h => exec_hSend_stuck h a d, exec_hIdent_stuck,
    fun h => ⟨exec_hScan_stuck h, fun hdue => exec_hGet_stuck hdue h⟩⟩

/-- Settles O49: either reset is one update of the hub or of the node. -/
theorem resetEventsRestoreBlocks : Obligations.ResetEventsRestoreBlocks := by
  unfold Obligations.ResetEventsRestoreBlocks
  intro s rest hlegal
  constructor
  · intro hin
    exact ⟨_, step_resetHub hlegal hin, rfl, rfl, rfl, rfl, rfl⟩
  · intro k n hin hn
    refine ⟨_, step_resetNode hlegal hin, rfl, ?_, fun j hj => ?_, rfl, rfl, rfl⟩
    · obtain ⟨_, rfl⟩ := node?_spec hn
      exact node?_mapNode_some (s := (s.setInputs rest).start) hn nodeRestart_addr
    · exact node?_mapNode_other _ k j Node.restart (fun m => (nodeRestart_addr m).trans) hj

end Sys2Proof.Machine
end

section
/-! PROOFS for 30_encoding.md (O1, O2, O3, O5): the decoder undoes the encoder, operand by operand at the port
(`withNode_addrSel`, `withQueue_queueSel`) and by the packet's row on the bus (`decode_packetBytes`); on the bus it drops
no bit (`Faithful`). -/

namespace Sys2Proof.Machine

open Sys2Proof.Config

/-! ### Operands at the port (R78; entry 1) -/

theorem selAddr_addrSel (k : Addr) : selAddr (addrSel k) = k := by
  rw [selAddr, addrSel, addrByte_setWidth, BitVec.sub_add_cancel]

@[simp] theorem withNode_addrSel (k : Addr) (rest : List Byte) (f : Addr → List Byte → Decoded) :
    withNode (addrSel k :: rest) f = f k rest := by
  have hmsb : (addrSel k).msb = false := addrByte_msb (k - 1)
  simp only [withNode, hmsb, selAddr_addrSel, Bool.false_eq_true, if_false]

@[simp] theorem withQueue_queueSel (q : QueueId) (rest : List Byte) (f : QueueId → List Byte → Decoded) :
    withQueue (queueSel q ++ rest) f = f q rest := by
  cases q with
  | hubRx => rfl
  | nodeRx k => exact withNode_addrSel k rest fun k => f (.nodeRx k)
  | nodeTx k => exact withNode_addrSel k rest fun k => f (.nodeTx k)

@[simp] theorem atEnd_nil (i : Instr) : atEnd i [] = .instr i := if_pos rfl

/-- A node operand, and the rest of the frame as the last operand. -/
theorem withNode_instr (k : Addr) (rest : List Byte) (f : Addr → List Byte → Instr) :
    withNode (addrSel k :: rest) (fun k r => .instr (f k r)) = .instr (f k rest) := withNode_addrSel k rest _

/-- A queue operand, and the rest of the frame as the last operand. -/
theorem withQueue_instr (q : QueueId) (rest : List Byte) (f : QueueId → List Byte → Instr) :
    withQueue (queueSel q ++ rest) (fun q r => .instr (f q r)) = .instr (f q rest) := withQueue_queueSel q rest _

/-- A queue operand with nothing after it. -/
theorem withQueue_atEnd (q : QueueId) (f : QueueId → Instr) :
    withQueue (queueSel q) (fun q r => atEnd (f q) r) = .instr (f q) := by
  rw [← List.append_nil (queueSel q), withQueue_queueSel, atEnd_nil]

/-- A node operand with nothing after it. -/
theorem withNode_atEnd (k : Addr) (f : Addr → Instr) :
    withNode [addrSel k] (fun k r => atEnd (f k) r) = .instr (f k) := by
  rw [withNode_addrSel, atEnd_nil]

theorem decode_dfStep (k : Addr) (b : Byte) : decode .port [0x01, addrSel k, b] = .instr (.dfStep k b) := by
  have hop : decode .port [0x01, addrSel k, b] = decodeOp 1 [addrSel k, b] := rfl
  simp only [hop, decodeOp, withNode_addrSel, atEnd_nil]

theorem decode_hSend (a : Addr) (d : List Byte) : decode .port (0x0D :: addrByte a :: d) = .instr (.hSend a d) := by
  have hop : decode .port (0x0D :: addrByte a :: d) = decodeOp 0xD (addrByte a :: d) := rfl
  simp only [hop, decodeOp, addrByte_msb, addrByte_setWidth, Bool.false_eq_true, if_false]

/-! ### Packets (R60, R76) -/

/-- A packet of 1 to 16 message bytes is read as its row. -/
theorem decode_packetBytes {m : List Byte} (hpos : 1 ≤ m.length) (hmax : m.length ≤ MAX_MSG_LEN) (t : Byte) :
    decode .packet (packetBytes m t) = .instr (packetRow m t) := by
  have hrev : (m ++ [t, END]).reverse = END :: t :: m.reverse := by simp
  have hlen : ¬ (m.reverse.length = 0 ∨ MAX_MSG_LEN < m.reverse.length) := by rw [List.length_reverse]; omega
  simp only [decode, decodePacket, packetBytes, hrev, hlen, List.reverse_reverse, ne_eq, not_true_eq_false, if_false]

/-- A message that begins with no address is no more specific row's. -/
theorem packetRow_of_msb {a : Byte} (ha : a.msb = true) (m : List Byte) (t : Byte) :
    packetRow (a :: m) t = .pkt (a :: m) t := by
  cases m with
  | nil => rfl
  | cons c d => exact if_pos ha

/-- A message to an address is a specific row's by its command byte (R76). -/
theorem not_shaped_addressed_iff {a : Addr} {c : Byte} {d : List Byte} :
    shaped (addrByte a :: c :: d) = false ↔ ¬ (c = PING ∧ d = []) ∧ ¬ (c = READ ∧ d = []) ∧ c ≠ WRITE := by
  simp [shaped, addrByte_msb, and_assoc]

/-- The row of a message that begins with an address (R76). -/
theorem packetRow_addressed (a : Addr) (c : Byte) (d : List Byte) (t : Byte) :
    packetRow (addrByte a :: c :: d) t =
      if c = PING ∧ d = [] then .pktPing a t else if c = READ ∧ d = [] then .pktRead a t
      else if c = WRITE then .pktWrite a d t else .pkt (addrByte a :: c :: d) t := by
  simp only [packetRow, addrByte_msb, addrByte_setWidth, Bool.false_eq_true, if_false]

/-- A packet to an address is read as the row of its command byte and what follows it. -/
theorem decode_packet_addressed (a : Addr) (c : Byte) {d : List Byte} (hmax : d.length + 2 ≤ MAX_MSG_LEN) (t : Byte) :
    decode .packet (packetBytes (addrByte a :: c :: d) t) = .instr (
      if c = PING ∧ d = [] then .pktPing a t else if c = READ ∧ d = [] then .pktRead a t
      else if c = WRITE then .pktWrite a d t else .pkt (addrByte a :: c :: d) t) := by
  rw [decode_packetBytes (m := addrByte a :: c :: d) (by simp) hmax, packetRow_addressed]

/-- A byte with bit 7 clear is an address. -/
theorem addrByte_of_msb {b : Byte} (hb : b.msb = false) : addrByte (b.setWidth 7) = b := by
  rw [BitVec.msb_eq_false_iff_two_mul_lt] at hb
  apply BitVec.eq_of_toNat_eq
  simp only [addrByte, BitVec.toNat_setWidth]
  omega

/-- A message that no more specific row encodes is the generic row's. -/
theorem packetRow_of_not_shaped {m : List Byte} (h : shaped m = false) (t : Byte) : packetRow m t = .pkt m t := by
  match m with
  | [] | [_] => rfl
  | a :: c :: d =>
    cases ha : a.msb with
    | true => exact packetRow_of_msb ha _ t
    | false =>
      rw [← addrByte_of_msb ha] at h ⊢
      obtain ⟨hping, hread, hwrite⟩ := not_shaped_addressed_iff.mp h
      rw [packetRow_addressed, if_neg hping, if_neg hread, if_neg hwrite]

/-! ### What bus bytes encode (R60, R63 to R76) -/

/-- If `d` is an instruction, it is well formed and `bs` on channel `ch` is its encoding. -/
def Faithful (ch : Channel) (bs : List Byte) (d : Decoded) : Prop :=
  ∀ i, d = .instr i → i.wellFormed = true ∧ encode i = (ch, bs)

section

variable {ch : Channel} {bs : List Byte}

theorem faithful_instr {i : Instr} (hwf : i.wellFormed = true) (henc : encode i = (ch, bs)) :
    Faithful ch bs (.instr i) := by
  rintro _ ⟨⟩
  exact ⟨hwf, henc⟩

theorem faithful_stray (l : Lane) (bs' : List Byte) : Faithful ch bs (.stray l bs') := nofun

theorem faithful_rejected (e : DecodeError) : Faithful ch bs (.rejected e) := nofun

end

theorem decodeByte_faithful (l : Lane) (b : Byte) : Faithful (.byte l) [b] (decodeByte l b) := by
  unfold decodeByte
  iterate 11
    split
    · next hb => exact hb ▸ faithful_instr rfl rfl
  exact faithful_stray l [b]

theorem decode_byte_faithful (l : Lane) (bs : List Byte) : Faithful (.byte l) bs (decode (.byte l) bs) := by
  match bs with
  | [] => exact faithful_rejected _
  | [b] => exact decodeByte_faithful l b
  | _ :: _ :: _ => exact faithful_stray _ _

theorem decode_reply_faithful (bs : List Byte) : Faithful .reply bs (decode .reply bs) := by
  cases bs with
  | nil => exact faithful_rejected _
  | cons b r =>
    simp only [decode, decodeReply]
    split_ifs with hnd hr hack hr hnull hr hpt hlen
    · rw [hnd, hr]; exact faithful_instr rfl rfl
    · exact faithful_stray _ _
    · rw [hack, hr]; exact faithful_instr rfl rfl
    · exact faithful_stray _ _
    · rw [hnull, hr]; exact faithful_instr rfl rfl
    · exact faithful_stray _ _
    · exact faithful_stray _ _
    · exact faithful_instr (isDataReply_cons_iff.mpr ⟨by simp [hnd, hack, hnull, hpt], hlen⟩) rfl
    · exact faithful_stray _ _

theorem pkt_wellFormed {m : List Byte} (hpos : 1 ≤ m.length) (hmax : m.length ≤ MAX_MSG_LEN) (h : shaped m = false)
    (t : Byte) : (Instr.pkt m t).wellFormed = true := by
  simp only [Instr.wellFormed, h, Bool.not_false, Bool.and_true, Bool.and_eq_true, decide_eq_true_eq]
  exact ⟨hpos, hmax⟩

/-- The row of a packet that begins with an address keeps every bit of it. -/
theorem packetRow_addressed_faithful (a : Addr) (c : Byte) {d : List Byte} (hmax : d.length + 2 ≤ MAX_MSG_LEN)
    (t : Byte) : Faithful .packet (packetBytes (addrByte a :: c :: d) t)
      (.instr (packetRow (addrByte a :: c :: d) t)) := by
  rw [packetRow_addressed]
  split_ifs with hping hread hwrite
  · obtain ⟨rfl, rfl⟩ := hping; exact faithful_instr rfl rfl
  · obtain ⟨rfl, rfl⟩ := hread; exact faithful_instr rfl rfl
  · subst hwrite; exact faithful_instr (decide_eq_true hmax) rfl
  · have hshaped := not_shaped_addressed_iff (a := a).mpr ⟨hping, hread, hwrite⟩
    exact faithful_instr (pkt_wellFormed (m := addrByte a :: c :: d) (by simp) hmax hshaped t) rfl

theorem packetRow_faithful {m : List Byte} (hpos : 1 ≤ m.length) (hmax : m.length ≤ MAX_MSG_LEN) (t : Byte) :
    Faithful .packet (packetBytes m t) (.instr (packetRow m t)) := by
  match m with
  | [] => simp at hpos
  | [_] => exact faithful_instr rfl rfl
  | a :: c :: d =>
    cases ha : a.msb with
    | true =>
      rw [packetRow_of_msb ha]
      exact faithful_instr (pkt_wellFormed hpos hmax (by simp [shaped, ha]) t) rfl
    | false =>
      rw [← addrByte_of_msb ha]
      exact packetRow_addressed_faithful _ c hmax t

theorem strayPacket_faithful (bs : List Byte) : Faithful .packet bs (strayPacket bs) := by
  match bs with
  | [] | [_] => exact faithful_rejected _
  | b :: x :: r =>
    simp only [strayPacket]
    split
    · exact faithful_rejected _
    · exact faithful_stray _ _

theorem decode_packet_faithful (bs : List Byte) : Faithful .packet bs (decode .packet bs) := by
  obtain rfl | hstray | ⟨m, t, rfl, hpos, hmax, hrow⟩ := decodePacket_cases bs
  · exact faithful_rejected _
  · rw [decode, hstray]; exact strayPacket_faithful bs
  · rw [decode, hrow]; exact packetRow_faithful hpos hmax t

/-! ### A table word (entry 3) -/

theorem decode_of_tableWord {nbits w : Nat} {i : Instr} (h : decodeTableWord nbits w = some i) :
    decode (tableChannel nbits w) (tableBytes nbits w) = .instr i := by
  unfold decodeTableWord at h
  split at h
  · next hd => cases h; exact hd
  all_goals cases h

/-- A table word is presented by an agent wired to its instruction (R78). -/
theorem tableInvoker_mem {nbits w : Nat} {i : Instr} (h : decodeTableWord nbits w = some i) :
    tableInvoker nbits w ∈ invokers i := by
  rw [tableInvoker, h]
  exact invokers_headD i .transport

/-! ### The statements -/

/-- Settles O1: by the row; a port frame by its operands, a packet and a data reply by their bounds. -/
theorem decodeEncodeRoundTrip : Obligations.DecodeEncodeRoundTrip := by
  unfold Obligations.DecodeEncodeRoundTrip
  intro i hwf
  cases i with
  | byteStart l | byteEnd l | byteAck l | byteNak l | byteWrite l | byteRead l | byteNoData l | bytePing l | byteEsc l
  | byteNull l | bytePollTerm l | rplNoData | rplAck | rplNull | frEncode m | hIdent | hScan | hGet => rfl
  | pktPing a t => exact decode_packet_addressed a PING (d := []) (by decide) t
  | pktRead a t => exact decode_packet_addressed a READ (d := []) (by decide) t
  | pktWrite a d t => exact decode_packet_addressed a WRITE (of_decide_eq_true hwf) t
  | pkt m t =>
    simp only [Instr.wellFormed, Bool.and_eq_true, decide_eq_true_eq, Bool.not_eq_true'] at hwf
    obtain ⟨⟨hpos, hmax⟩, hshaped⟩ := hwf
    exact (decode_packetBytes hpos hmax t).trans (congrArg _ (packetRow_of_not_shaped hshaped t))
  | rplData r => exact decode_reply_data hwf
  | dfStep k b => exact decode_dfStep k b
  | dfDecode k s => exact withNode_instr k s .dfDecode
  | nRecv k s => exact withNode_instr k s .nRecv
  | nSend k d => exact withNode_instr k d .nSend
  | qEnq q m => exact withQueue_instr q m .qEnq
  | qDeq q => exact withQueue_atEnd q .qDeq
  | qEmpty q => exact withQueue_atEnd q .qEmpty
  | nReq k => exact withNode_atEnd k .nReq
  | nGet k => exact withNode_atEnd k .nGet
  | hSend a d => exact decode_hSend a d
  | hClients copy => cases copy <;> rfl

/-- Settles O2: by the channel. -/
theorem busBytesHaveOneMeaning : Obligations.BusBytesHaveOneMeaning := by
  unfold Obligations.BusBytesHaveOneMeaning
  intro ch bs i hport hd
  cases ch with
  | port => exact absurd rfl hport
  | byte l => exact decode_byte_faithful l bs i hd
  | packet => exact decode_packet_faithful bs i hd
  | reply => exact decode_reply_faithful bs i hd

/-- Settles O3: each word is the encoding of its instruction, well formed by computation, so O1 reads it back. -/
theorem listedWordsDecode : Obligations.ListedWordsDecode := by
  unfold Obligations.ListedWordsDecode
  have hread (i : Instr) (hwf : i.wellFormed = true) := decodeEncodeRoundTrip i hwf
  exact ⟨hread (.byteStart .toHub) rfl, hread (.pktPing 3 0xB3) rfl, hread (.pktRead 3 0xD0) rfl,
    hread (.pktWrite 3 [0x68, 0x69] 0xD4) rfl, hread .rplAck rfl, hread (.rplData [0x03, 0x78]) rfl,
    hread (.nReq 3) rfl, hread (.hSend 3 [0x68, 0x69]) rfl⟩

/-- Settles O5: the word is a wired request at the head of the inputs, and what is left after it is `s`. -/
theorem stepRunsTableWord : Obligations.StepRunsTableWord := by
  unfold Obligations.StepRunsTableWord
  intro s nbits w i hlegal hword hwf
  have hlegal' : (s.withFetchWord nbits w).legal = true := hlegal
  rw [step_wired hlegal' rfl (decode_of_tableWord hword) (tableInvoker_mem hword), if_pos hwf]
  rfl

end Sys2Proof.Machine
end

section
/-! PROOFS for bytes and operations at a node (O7, O32, O34): an operation at an absent node is refused, and a row on the
lane to a node is the arrival of its bytes there (R44, R135). -/

namespace Sys2Proof.Machine

open Sys2Proof.Config

/-! ### Arrival at a node (R44, R47) -/

/-- The row of each listed byte, towards a node, is the byte's arrival there. -/
theorem exec_byteRow_toNode {x : (Lane → Instr) × Byte} (hx : x ∈ byteRows) (a : Addr) (s : State) :
    exec (x.1 (.toNode a)) s = s.arrive (.toNode a) [x.2] := by
  simp only [byteRows, List.mem_cons, List.not_mem_nil, or_false] at hx
  obtain rfl | rfl | rfl | rfl | rfl | rfl | rfl | rfl | rfl | rfl | rfl := hx <;> rfl

/-- Bytes to an address with no node go nowhere. -/
theorem arrive_toNode_absent {s : State} {a : Addr} (h : s.node? a = none) (bs : List Byte) :
    s.arrive (.toNode a) bs = .next s.start := by
  rw [arrive_toNode, mapNode_absent s.start a _ h]

/-- Bytes to a node that is there are received by it after what the transport held, and nothing else changes. -/
theorem arrive_toNode_present {s : State} {a : Addr} {n : Node} (h : s.node? a = some n) (bs : List Byte) :
    ∃ t : State, s.arrive (.toNode a) bs = .next t ∧ s.OnlyNode t a ∧ t.out = .nothing ∧
      t.node? a = some ({ n with wire := [] }.recv (n.wire ++ bs)) := by
  obtain ⟨t, ht, honly, hout, _, hnode⟩ := arrive_toNode_spec s a bs
  exact ⟨t, ht, honly, hout, hnode n h⟩

/-- A packet whose message begins with no bus address goes nowhere (R46). -/
theorem packetOnBus_of_msb {b : Byte} (hb : b.msb = true) (s : State) (m : List Byte) (t : Byte) :
    s.packetOnBus (b :: m) t = .next s.start := by
  simp only [packetOnBus_eq, destination, hb, if_true]

/-! ### The statements -/

/-- Settles O7: each of them is an operation at the node. -/
theorem operationAtAbsentNodeRefused : Obligations.OperationAtAbsentNodeRefused := by
  unfold Obligations.OperationAtAbsentNodeRefused
  intro s k hnone b bs
  exact ⟨atNode_none hnone _, atNode_none hnone _, atNode_none hnone _, atNode_none hnone _, atNode_none hnone _,
    atNode_none hnone _, atNode_none hnone _, atNode_none hnone _, atNode_none hnone _, atNode_none hnone _,
    atNode_none hnone _, atNode_none hnone _⟩

/-- Settles O32: each of the rows is its byte's arrival. -/
theorem controlBytesReachNode : Obligations.ControlBytesReachNode := by
  unfold Obligations.ControlBytesReachNode
  intro x hx s a
  rw [exec_byteRow_toNode hx]
  exact ⟨fun hnone => arrive_toNode_absent hnone _, fun n hn => arrive_toNode_present hn _⟩

/-- Settles O34: each of the four rows is its packet's arrival at the node its message names. -/
theorem packetsReachNode : Obligations.PacketsReachNode := by
  unfold Obligations.PacketsReachNode
  intro s a d m tr
  refine ⟨fun x hx => ?_, fun b hb => packetOnBus_of_msb hb s m tr⟩
  have harrive : exec x.1 s = s.arrive (.toNode a) ([START] ++ x.2 ++ [tr, END]) := by
    simp only [List.mem_cons, List.not_mem_nil, or_false] at hx
    obtain rfl | rfl | rfl | rfl := hx <;> exact packetOnBus_addrByte s a _ tr
  rw [harrive]
  exact ⟨fun hnone => arrive_toNode_absent hnone _, fun n hn => arrive_toNode_present hn _⟩

end Sys2Proof.Machine
end

section
/-! PROOFS for the system invariant (O50, O51): 10_state.md R14 to R17, R20, R24 and 40_codec.md R81. The deframer and
the ring invariants (`State.BlocksWf`) are kept by every update an instruction is made of; the configuration is O52's and
the roster O55's, but for H.IDENT, whose roster is a sublist of its sweep. -/

namespace Sys2Proof.Machine

open Sys2Proof.Config

/-! ### The deframer (R14 to R17, R81) -/

theorem cleared_wf {d : Deframer} (hbuf : d.buf = Vector.replicate 16 0) (hcur : d.cur = 0)
    (hpar : d.sync = true → d.par = START) : d.Wf := by
  have hheld : d.held = [] := by rw [Deframer.held, hcur]; rfl
  refine ⟨fun i _ => ?_, fun _ => by rw [hcur]; exact Nat.zero_le 15, by simp [hheld], fun hs => ?_⟩
  · rw [hbuf]; exact Vector.getElem_replicate i.isLt
  · rw [hpar hs, hheld]; rfl

theorem deframer_reset_wf : Deframer.reset.Wf := cleared_wf rfl rfl nofun

theorem restart_wf (d : Deframer) : d.restart.Wf := cleared_wf rfl rfl fun _ => rfl

/-- A byte that is no delimiter, appended where there is room, extends what is held and what has accumulated alike. -/
theorem append_wf {d : Deframer} (hw : d.Wf) (hsync : d.sync = true) (hc : d.cur.val < 16) {b : Byte}
    (hb : b ≠ START ∧ b ≠ END) : (d.append b).Wf := by
  obtain ⟨hzero, _, hheld, hpar⟩ := hw
  refine ⟨fun i hi => ?_, fun hs => ?_, ?_, fun _ => ?_⟩
  · rw [append_cur] at hi
    rw [append_getElem, if_neg (by omega)]
    exact hzero i (by omega)
  · rw [append_sync, hsync] at hs
    cases hs
  · rw [append_held hc]
    exact List.forall_mem_append.2 ⟨hheld, by simpa using hb⟩
  · rw [append_par, append_held hc, hpar hsync, xorAll_append, xorAll_cons, xorAll_nil, BitVec.xor_assoc]
    exact congrArg _ (congrArg _ (BitVec.xor_zero (x := b)).symm)

/-- Termination zeroes the place of the byte it drops. -/
theorem terminate_wf {d : Deframer} (hw : d.Wf) (b : Byte) : (d.terminate b).Wf := by
  obtain ⟨hzero, _, hheld, _⟩ := hw
  refine ⟨fun i hi => ?_, fun _ => ?_, fun x hx => ?_, nofun⟩
  · rw [terminate_cur] at hi
    rw [terminate_getElem]
    split
    · rfl
    · exact hzero i (by omega)
  · have := d.cur.isLt
    rw [terminate_cur]
    omega
  · rw [terminate_held] at hx
    exact hheld x (List.mem_of_mem_dropLast hx)

theorem step_wf {d : Deframer} (hw : d.Wf) (b : Byte) : (d.step b).2.Wf := by
  obtain ⟨_, h⟩ | ⟨_, _, h⟩ | ⟨_, _, _, h⟩ | ⟨hstart, hend, hsync, hc, h⟩ := step_cases d b <;> rw [h]
  · exact restart_wf d
  · exact hw
  · exact terminate_wf hw b
  · exact append_wf hw hsync hc ⟨hstart, hend⟩

theorem dfAfter_wf {d : Deframer} (hw : d.Wf) (bs : List Byte) : (dfAfter d bs).Wf := by
  induction bs generalizing d with
  | nil => exact hw
  | cons b bs ih => exact ih (step_wf hw b)

theorem decode_wf {d : Deframer} (hw : d.Wf) (bs : List Byte) : (d.decode bs).2.2.Wf := by
  obtain ⟨_, used, _, _, hd, _⟩ := decode_spec d bs
  rw [hd]
  exact dfAfter_wf hw used

/-! ### The queues and the node agent (R20, R100 to R103) -/

theorem Queue.get_wf {cap : Nat} {c : Queue cap} (hw : c.Wf) : c.get.2.Wf := by
  by_cases hempty : c.count.val = 0
  · rw [Queue.get_empty hempty]; exact hw
  · obtain ⟨m, c', hget, _, hw', _⟩ := Queue.get_some hempty
    rw [hget]; exact hw' hw

theorem node_reset_wf (a : Addr) (p : Policy) : (Node.reset a p).Wf := ⟨deframer_reset_wf, rfl, rfl⟩

section

variable {n : Node}

theorem recv_df (n : Node) (bs : List Byte) : (n.recv bs).df = dfAfter n.df bs := by
  induction bs generalizing n with
  | nil => rfl
  | cons b bs ih => rw [recv_cons, ih, recvByte_df, dfAfter_cons]

variable (hw : n.Wf)
include hw

theorem recv_wf (bs : List Byte) : (n.recv bs).Wf := by
  obtain ⟨hdf, hrxq, htxq⟩ := hw
  exact ⟨recv_df n bs ▸ dfAfter_wf hdf bs, recv_rxq_wf hrxq bs, (recv_txq n bs).symm ▸ htxq⟩

theorem req_wf : n.req.2.Wf := by
  obtain ⟨hdf, hrxq, htxq⟩ := hw
  obtain ⟨hframe, htxq'⟩ := req_frame n
  exact ⟨by rw [hframe]; exact hdf, (req_rxq n).symm ▸ hrxq, htxq' htxq⟩

theorem send_wf (d : List Byte) : (n.send d).2.Wf := by
  obtain ⟨hdf, hrxq, htxq⟩ := hw
  exact ⟨hdf, hrxq, Queue.put_wf htxq _⟩

theorem get_wf : n.get.2.Wf := by
  obtain ⟨hdf, hrxq, htxq⟩ := hw
  cases hlist : n.rxq.list with
  | nil => rw [get_noData hlist]; exact ⟨hdf, hrxq, htxq⟩
  | cons m rest =>
    obtain ⟨q, hget, _, hq⟩ := get_data hlist
    rw [hget]; exact ⟨hdf, hq hrxq, htxq⟩

theorem handOver_wf (k : Nat) : (n.handOver k).Wf := recv_wf (n := { n with wire := n.wire.drop k }) hw _

theorem deliver_wf (bs : List Byte) : (n.accrue bs).flush.Wf := handOver_wf (n := n.accrue bs) hw _

theorem answer_wf : n.answer.2.Wf := req_wf (handOver_wf hw _)

end

theorem enrol_rxq (h : Hub) (a : Addr) : (h.enrol a).rxq = h.rxq := by
  unfold Hub.enrol
  split <;> rfl

/-! ### The blocks of the system -/

/-- The blocks of hub and nodes are well formed: all of the invariant but configuration and roster. -/
structure State.BlocksWf (s : State) : Prop where
  hub : s.hub.rxq.Wf
  nodes : ∀ n ∈ s.nodes, n.Wf

section

variable {s t : State} (hs : s.BlocksWf)
include hs

/-- The invariant of the blocks is about the hub's queue and the nodes alone. -/
theorem blocksWf_congr (hrxq : t.hub.rxq = s.hub.rxq) (hnodes : t.nodes = s.nodes) : t.BlocksWf :=
  ⟨hrxq ▸ hs.hub, hnodes ▸ hs.nodes⟩

theorem start_blocksWf : s.start.BlocksWf := blocksWf_congr hs rfl rfl

theorem mapNode_blocksWf (k : Addr) {f : Node → Node} (hf : ∀ n : Node, n.Wf → (f n).Wf) :
    (s.mapNode k f).BlocksWf := by
  refine ⟨hs.hub, fun m hm => ?_⟩
  obtain ⟨n, hn, rfl⟩ := List.mem_map.mp hm
  split
  · exact hf n (hs.nodes n hn)
  · exact hs.nodes n hn

theorem atNode_blocksWf {k : Addr} {op : Node → Result × Node} (h : s.atNode k op = .next t)
    (hop : ∀ n : Node, n.Wf → (op n).2.Wf) : t.BlocksWf := by
  obtain ⟨n, _, rfl⟩ := atNode_next h
  exact blocksWf_congr (mapNode_blocksWf hs k hop) rfl rfl

theorem atQueue_blocksWf {q : QueueId} {op : Queue (queueCap q) → Result × Queue (queueCap q)}
    (h : s.atQueue q op = .next t) (hop : ∀ c, c.Wf → (op c).2.Wf) : t.BlocksWf := by
  cases q with
  | hubRx => cases h; exact ⟨hop _ hs.hub, hs.nodes⟩
  | nodeRx k => exact atNode_blocksWf hs h fun n ⟨hdf, hrxq, htxq⟩ => ⟨hdf, hop _ hrxq, htxq⟩
  | nodeTx k => exact atNode_blocksWf hs h fun n ⟨hdf, hrxq, htxq⟩ => ⟨hdf, hrxq, hop _ htxq⟩

theorem arrive_blocksWf {l : Lane} {bs : List Byte} (h : s.arrive l bs = .next t) : t.BlocksWf := by
  cases l with
  | toNode a =>
    cases h
    exact blocksWf_congr (mapNode_blocksWf hs a fun n hn => deliver_wf hn bs) rfl rfl
  | toHub => cases h; exact ⟨onPollReply_wf hs.hub _, hs.nodes⟩

theorem packetOnBus_blocksWf {m : List Byte} {b : Byte} (h : s.packetOnBus m b = .next t) : t.BlocksWf := by
  rw [packetOnBus_eq] at h
  split at h
  · cases h; exact blocksWf_congr hs rfl rfl
  · exact arrive_blocksWf hs h

/-! ### The bus (R44, R45, R52) -/

theorem appAt_blocksWf (a : Addr) {op : Node → Result × Node} (hop : ∀ n : Node, n.Wf → (op n).2.Wf) :
    (s.appAt a op).BlocksWf := by
  unfold State.appAt
  split
  · exact hs
  · exact blocksWf_congr (mapNode_blocksWf hs a hop) rfl rfl

theorem runEvent_blocksWf (e : Event) : (s.runEvent e).BlocksWf := by
  cases e with
  | chunk a k => exact mapNode_blocksWf hs a fun n hn => handOver_wf hn k
  | send a d => exact appAt_blocksWf hs a fun n hn => send_wf hn d
  | get a => exact appAt_blocksWf hs a fun n hn => get_wf hn
  | clock t => exact blocksWf_congr hs rfl rfl
  | resetNode a => exact mapNode_blocksWf hs a fun n _ => node_reset_wf n.addr n.policy

theorem runEvents_blocksWf (es : List Event) : (s.runEvents es).BlocksWf := by
  induction es generalizing s with
  | nil => exact hs
  | cons e es ih => exact ih (runEvent_blocksWf hs e)

theorem busWrite_blocksWf (p : Plan) (a : Addr) (bs : List Byte) : (s.busWrite p a bs).BlocksWf := by
  unfold State.busWrite
  split
  · exact blocksWf_congr hs rfl rfl
  · exact blocksWf_congr (mapNode_blocksWf hs a (f := fun n => n.accrue (corrupt p.errs bs)) fun n hn => hn) rfl rfl

theorem busRead_blocksWf {p : Plan} {a : Addr} {k : Nat} {done : Bool} {r : List Byte}
    (h : s.busRead p a k = some (done, r, t)) : t.BlocksWf := by
  have hanswered := mapNode_blocksWf hs a fun n hn => answer_wf hn
  unfold State.busRead at h
  split at h
  · cases h
  · cases h; exact blocksWf_congr hs rfl rfl
  · cases h; exact blocksWf_congr hanswered rfl rfl
  · split at h
    · cases h; exact blocksWf_congr hs rfl rfl
    · cases h; exact blocksWf_congr hanswered rfl rfl

theorem exchange_blocksWf {a : Addr} {bs : List Byte} {k : Nat} {done : Bool} {r : List Byte}
    (h : s.exchange a bs k = some (done, r, t)) : t.BlocksWf := by
  have hplans : (s.setPlans s.plans.tail).BlocksWf := blocksWf_congr hs rfl rfl
  have hwrite := busWrite_blocksWf (runEvents_blocksWf hplans s.plan.before) s.plan a bs
  exact busRead_blocksWf (runEvents_blocksWf hwrite s.plan.between) h

/-! ### The hub engine (R110 to R113) -/

theorem identLoop_blocksWf {as : List Addr} (h : State.identLoop as s = some t) : t.BlocksWf := by
  induction as generalizing s with
  | nil => cases h; exact hs
  | cons a as ih =>
    obtain ⟨done, r, s', hx, hrest⟩ := identLoop_cons h
    have hread := exchange_blocksWf hs hx
    refine ih ?_ hrest
    split
    · exact blocksWf_congr hread (enrol_rxq s'.hub a) rfl
    · exact hread

theorem scanLoop_blocksWf {as : List Byte} (h : State.scanLoop as s = some t) : t.BlocksWf := by
  induction as generalizing s with
  | nil => cases h; exact hs
  | cons a as ih =>
    obtain ⟨done, r, s', hx, hrest⟩ := scanLoop_cons h
    have hread := exchange_blocksWf hs hx
    refine ih ?_ hrest
    split
    · exact ⟨onPollReply_wf hread.hub r, hread.nodes⟩
    · exact hread

theorem hubTake_blocksWf : s.hubTake.BlocksWf := by
  refine ⟨hubTake_wf hs.hub, ?_⟩
  obtain ⟨_, e⟩ | ⟨q, _, e⟩ | ⟨b, m, q, _, e⟩ := hubTake_cases s <;> rw [e] <;> exact hs.nodes

theorem execHIdent_blocksWf (h : execHIdent s = .next t) : t.BlocksWf := by
  obtain ⟨u, hu, rfl⟩ := Option.map_eq_some_iff.mp (hubOutcome_next h)
  have hcleared : (s.start.mapHub Hub.clearRoster).BlocksWf := blocksWf_congr hs rfl rfl
  exact blocksWf_congr (identLoop_blocksWf hcleared hu) rfl rfl

theorem execHGet_blocksWf (h : execHGet s = .next t) : t.BlocksWf := by
  unfold execHGet at h
  split at h
  · obtain ⟨u, hu, rfl⟩ := Option.map_eq_some_iff.mp (hubOutcome_next h)
    have hstamped : (s.start.mapHub fun g => g.stamp s.now).BlocksWf := blocksWf_congr hs rfl rfl
    exact hubTake_blocksWf (scanLoop_blocksWf hstamped hu)
  · cases h; exact hubTake_blocksWf (start_blocksWf hs)

theorem execHSend_blocksWf {a : Addr} {d : List Byte} (h : execHSend a d s = .next t) : t.BlocksWf := by
  obtain ⟨⟨done, r, u⟩, hu, rfl⟩ := Option.map_eq_some_iff.mp (hubOutcome_next h)
  exact blocksWf_congr (exchange_blocksWf (start_blocksWf hs) hu) rfl rfl

/-- Every instruction keeps the blocks well formed. -/
theorem exec_blocksWf {i : Instr} (h : exec i s = .next t) : t.BlocksWf := by
  cases i with
  | byteStart l | byteEnd l | byteAck l | byteNak l | byteWrite l | byteRead l | byteNoData l | bytePing l | byteEsc l
  | byteNull l | bytePollTerm l => exact arrive_blocksWf hs h
  | pktPing a b | pktRead a b | pktWrite a d b | pkt m b => exact packetOnBus_blocksWf hs h
  | rplNoData | rplAck | rplNull | rplData r => exact arrive_blocksWf hs (l := .toHub) h
  | frEncode m => cases m <;> cases h <;> exact blocksWf_congr hs rfl rfl
  | dfStep k b => exact atNode_blocksWf hs h fun n ⟨hdf, hqueues⟩ => ⟨step_wf hdf b, hqueues⟩
  | dfDecode k bs => exact atNode_blocksWf hs h fun n ⟨hdf, hqueues⟩ => ⟨decode_wf hdf bs, hqueues⟩
  | qEnq q m => exact atQueue_blocksWf hs (exec_qEnq q m s ▸ h) fun c hc => Queue.put_wf hc m
  | qDeq q => exact atQueue_blocksWf hs (exec_qDeq q s ▸ h) fun c hc => Queue.get_wf hc
  | qEmpty q => exact atQueue_blocksWf hs (exec_qEmpty q s ▸ h) fun c hc => hc
  | nRecv k bs => exact atNode_blocksWf hs h fun n hn => recv_wf hn bs
  | nReq k => exact atNode_blocksWf hs h fun n hn => req_wf hn
  | nSend k d => exact atNode_blocksWf hs h fun n hn => send_wf hn d
  | nGet k => exact atNode_blocksWf hs h fun n hn => get_wf hn
  | hIdent => exact execHIdent_blocksWf hs h
  | hScan => exact scanLoop_blocksWf (start_blocksWf hs) (hubOutcome_next h)
  | hGet => exact execHGet_blocksWf hs h
  | hSend a d => exact execHSend_blocksWf hs h
  | hClients copy => cases h; exact blocksWf_congr hs rfl rfl

end

/-! ### The roster (R24, R110) -/

/-- The roster's live entries are node addresses in strictly ascending order, and no more than `N - 1`. -/
def Hub.RosterWf (N : Nat) (h : Hub) : Prop :=
  h.rosterCnt.val ≤ N - 1 ∧ (∀ b ∈ h.live, 1 ≤ b.toNat ∧ b.toNat < N) ∧
    h.live.Pairwise (fun a b => a.toNat < b.toNat)

theorem rosterWf_congr {N : Nat} {h g : Hub} (hw : h.RosterWf N) (hroster : g.roster = h.roster)
    (hcnt : g.rosterCnt = h.rosterCnt) : g.RosterWf N := by
  rw [Hub.RosterWf, Hub.live, hroster, hcnt]
  exact hw

theorem rosterWf_of_empty (N : Nat) {h : Hub} (hc : h.rosterCnt = 0) : h.RosterWf N := by
  have hlive : h.live = [] := by rw [Hub.live, hc]; rfl
  rw [Hub.RosterWf, hlive, hc]
  exact ⟨Nat.zero_le _, by simp, List.Pairwise.nil⟩

/-- The bytes of the addresses H.IDENT sweeps are the numbers from 1 to `N - 1`, in order. -/
theorem sweep_bytes {N : Nat} (hN : N ≤ 128) :
    ((sweep N).map addrByte).map BitVec.toNat = List.range' 1 (N - 1) := by
  rw [sweep, List.map_map, List.map_map]
  conv_rhs => rw [← List.map_id (List.range' 1 (N - 1))]
  refine List.map_congr_left fun i hi => ?_
  obtain ⟨_, hhigh⟩ := List.mem_range'_1.mp hi
  simp only [Function.comp_apply, addrByte, BitVec.toNat_setWidth, BitVec.toNat_ofNat, id_eq]
  omega

/-- A roster of some of the sweep's addresses, in the sweep's order, is well formed. -/
theorem rosterWf_of_sublist {N : Nat} (hN : N ≤ 128) {h : Hub} (hsub : h.live.Sublist ((sweep N).map addrByte)) :
    h.RosterWf N := by
  have hnats : (h.live.map BitVec.toNat).Sublist (List.range' 1 (N - 1)) := sweep_bytes hN ▸ hsub.map BitVec.toNat
  refine ⟨?_, fun b hb => ?_, ?_⟩
  · rw [← live_length]
    simpa using hnats.length_le
  · obtain ⟨hlow, hhigh⟩ := List.mem_range'_1.mp (hnats.subset (List.mem_map_of_mem hb))
    omega
  · exact List.pairwise_map.mp ((List.pairwise_lt_range' 1).sublist hnats)

/-- An enrolment appends the address, if it does anything. -/
theorem enrol_live_sublist (h : Hub) (a : Addr) : (h.enrol a).live.Sublist (h.live ++ [addrByte a]) := by
  by_cases hc : h.rosterCnt.val < 125
  · rw [(enrol_live h a hc).1]
  · rw [Hub.enrol, dif_neg hc]
    exact List.sublist_append_left _ _

/-- A sweep adds to the roster some of its addresses, in its order. -/
theorem identLoop_live_sublist {as : List Addr} {s t : State} (h : State.identLoop as s = some t) :
    t.hub.live.Sublist (s.hub.live ++ as.map addrByte) := by
  induction as generalizing s with
  | nil => cases h; simp
  | cons a as ih =>
    obtain ⟨done, r, s', hx, hrest⟩ := identLoop_cons h
    have hhub : s'.hub = s.hub := (exchange_frame hx).1.hub
    have hturn : (if done = true ∧ r.head? = some ACK then s'.mapHub (fun g => g.enrol a) else s').hub.live.Sublist
        (s.hub.live ++ [addrByte a]) := by
      rw [← hhub]
      split
      · exact enrol_live_sublist s'.hub a
      · exact List.sublist_append_left _ _
    refine (ih hrest).trans ((hturn.append_right _).trans ?_)
    rw [List.append_assoc]
    exact List.Sublist.refl _

theorem execHIdent_rosterWf {s t : State} (h : exec .hIdent s = .next t) : t.hub.RosterWf s.maxClients.val := by
  obtain ⟨u, hu, rfl⟩ := Option.map_eq_some_iff.mp (hubOutcome_next h)
  have hN : s.maxClients.val ≤ 128 := by have := s.maxClients.isLt; omega
  exact rosterWf_of_sublist hN (identLoop_live_sublist hu)

/-- H.IDENT alone writes the roster (O55), and writes it well formed. -/
theorem exec_rosterWf {i : Instr} {s t : State} (h : exec i s = .next t) (hw : s.hub.RosterWf s.maxClients.val) :
    t.hub.RosterWf s.maxClients.val := by
  by_cases hi : i = .hIdent
  · subst hi; exact execHIdent_rosterWf h
  · obtain ⟨hroster, hcnt⟩ := (onlyHubOperationsWriteHubRegisters i s t h).1 hi
    exact rosterWf_congr hw hroster hcnt

/-! ### The invariant -/

theorem inv_iff {s : State} :
    s.Inv ↔ s.legal = true ∧ s.hub.RosterWf s.maxClients.val ∧ s.BlocksWf :=
  ⟨fun ⟨hlegal, ⟨hrxq, hroster⟩, hnodes⟩ => ⟨hlegal, hroster, hrxq, hnodes⟩,
    fun ⟨hlegal, hroster, hrxq, hnodes⟩ => ⟨hlegal, ⟨hrxq, hroster⟩, hnodes⟩⟩

/-- A legal configuration, said of the addresses alone (R163; U7, U8). -/
theorem legal_iff {s : State} : s.legal = true ↔ 2 ≤ s.maxClients.val ∧
    (∀ a ∈ s.nodes.map Node.addr, 1 ≤ a.toNat ∧ a.toNat < s.maxClients.val) ∧ (s.nodes.map Node.addr).Nodup := by
  simp [State.legal]

/-- The configuration decides what is legal. -/
theorem legal_congr {s t : State} (hN : t.maxClients = s.maxClients)
    (hconfig : t.nodes.map (fun n => (n.addr, n.policy)) = s.nodes.map (fun n => (n.addr, n.policy))) :
    t.legal = true ↔ s.legal = true := by
  have haddrs : t.nodes.map Node.addr = s.nodes.map Node.addr := by
    simpa [Function.comp_def] using congrArg (List.map Prod.fst) hconfig
  rw [legal_iff, legal_iff, haddrs, hN]

/-- What changes neither configuration nor roster keeps the invariant if it keeps the blocks well formed. -/
theorem inv_of_frame {s t : State} (hs : s.Inv) (hN : t.maxClients = s.maxClients)
    (hconfig : t.nodes.map (fun n => (n.addr, n.policy)) = s.nodes.map (fun n => (n.addr, n.policy)))
    (hroster : t.hub.roster = s.hub.roster) (hcnt : t.hub.rosterCnt = s.hub.rosterCnt) (hblocks : t.BlocksWf) :
    t.Inv := by
  obtain ⟨hlegal, hw, _⟩ := inv_iff.mp hs
  exact inv_iff.mpr ⟨(legal_congr hN hconfig).mpr hlegal, hN ▸ rosterWf_congr hw hroster hcnt, hblocks⟩

theorem exec_inv {i : Instr} {s t : State} (hs : s.Inv) (h : exec i s = .next t) : t.Inv := by
  obtain ⟨hlegal, hroster, hblocks⟩ := inv_iff.mp hs
  obtain ⟨hN, hconfig⟩ := instructionsKeepConfiguration i s t h
  exact inv_iff.mpr
    ⟨(legal_congr hN hconfig).mpr hlegal, hN ▸ exec_rosterWf h hroster, exec_blocksWf hblocks h⟩

theorem arrive_inv {s t : State} (hs : s.Inv) {l : Lane} {bs : List Byte} (h : s.arrive l bs = .next t) : t.Inv := by
  obtain ⟨_, _, hold⟩ := inv_iff.mp hs
  have hblocks := arrive_blocksWf hold h
  cases l with
  | toNode a =>
    cases h
    have hframe := mapNode_onlyNode s a fun n => deliver_opFrame n bs
    exact inv_of_frame hs rfl hframe.config rfl rfl hblocks
  | toHub =>
    cases h
    have hframe := onPollReply_queueFrame s.hub (bs.take 8)
    exact inv_of_frame hs rfl rfl hframe.roster hframe.rosterCnt hblocks

theorem runEvent_inv {s : State} (hs : s.Inv) (e : Event) : (s.runEvent e).Inv := by
  obtain ⟨_, _, hblocks⟩ := inv_iff.mp hs
  obtain ⟨hframe, _⟩ := runEvent_frame s e
  exact inv_of_frame hs hframe.maxClients hframe.config (congrArg Hub.roster hframe.hub)
    (congrArg Hub.rosterCnt hframe.hub) (runEvent_blocksWf hblocks e)

/-- The hub comes out of reset with an empty roster and an empty queue (R34). -/
theorem resetHub_inv {s : State} (hs : s.Inv) : s.resetHub.Inv := by
  obtain ⟨hlegal, _, hblocks⟩ := inv_iff.mp hs
  exact inv_iff.mpr ⟨hlegal, rosterWf_of_empty _ rfl, rfl, hblocks.nodes⟩

theorem mayJoin_iff {s : State} {a : Addr} :
    s.mayJoin a = true ↔ (1 ≤ a.toNat ∧ a.toNat < s.maxClients.val) ∧ a ∉ s.nodes.map Node.addr := by
  simp [State.mayJoin, and_assoc]

/-- A node that may come up has a legal address of its own, and is at reset. -/
theorem join_inv {s : State} (hs : s.Inv) {a : Addr} (ha : s.mayJoin a = true) (p : Policy) : (s.join a p).Inv := by
  obtain ⟨hlegal, hroster, hrxq, hnodes⟩ := inv_iff.mp hs
  obtain ⟨htwo, hrange, hnodup⟩ := legal_iff.mp hlegal
  obtain ⟨hbounds, hnew⟩ := mayJoin_iff.mp ha
  refine inv_iff.mpr ⟨legal_iff.mpr ⟨htwo, ?_, ?_⟩, hroster, hrxq, ?_⟩
  · rw [join_nodes, List.map_append]
    exact List.forall_mem_append.2 ⟨hrange, by simpa [Node.reset] using hbounds⟩
  · rw [join_nodes, List.map_append]
    exact hnodup.append (List.nodup_singleton a) (by simpa [Node.reset] using hnew)
  · rw [join_nodes]
    exact List.forall_mem_append.2 ⟨hnodes, by simpa using node_reset_wf a p⟩

theorem leave_inv {s : State} (hs : s.Inv) (a : Addr) : (s.leave a).Inv := by
  obtain ⟨hlegal, hroster, hrxq, hnodes⟩ := inv_iff.mp hs
  obtain ⟨htwo, hrange, hnodup⟩ := legal_iff.mp hlegal
  have hsub : ((s.leave a).nodes.map Node.addr).Sublist (s.nodes.map Node.addr) := List.filter_sublist.map _
  exact inv_iff.mpr ⟨legal_iff.mpr ⟨htwo, fun b hb => hrange b (hsub.subset hb), hnodup.sublist hsub⟩, hroster, hrxq,
    fun n hn => hnodes n (List.mem_of_mem_filter hn)⟩

theorem runInput_inv {s t : State} (hs : s.Inv) {i : Input} (h : s.runInput i = .next t) : t.Inv := by
  cases i with
  | request who ch bs => cases h; exact hs
  | event e => cases h; exact runEvent_inv (s := s.start) hs e
  | resetHub => cases h; exact resetHub_inv (s := s.start) hs
  | join a p =>
    simp only [State.runInput] at h
    split at h
    · next ha => cases h; exact join_inv (s := s.start) hs ha p
    · cases h
  | leave a => cases h; exact leave_inv (s := s.start) hs a

/-- All a step that answers a next state can be. -/
theorem step_next_cases {s t : State} (h : step s = .next t) :
    t = s ∨ (∃ i, exec i s.consume = .next t) ∨ (∃ l bs, s.consume.arrive l bs = .next t) ∨ t = s.consume ∨
      ∃ i, s.consume.runInput i = .next t := by
  unfold step at h
  split at h
  · split at h
    · cases h; exact .inl rfl
    · next i _ =>
      split at h
      · exact .inr (.inl ⟨i, h⟩)
      · cases h
    · next l bs _ => exact .inr (.inr (.inl ⟨l, bs, h⟩))
    · cases h; exact .inr (.inr (.inr (.inl rfl)))
    · next i _ => exact .inr (.inr (.inr (.inr ⟨i, h⟩)))
  · cases h

/-! ### The statements -/

/-- Settles O51: by what the step was; what it consumes is no part of the invariant. -/
theorem everyStepKeepsInvariant : Obligations.EveryStepKeepsInvariant := by
  unfold Obligations.EveryStepKeepsInvariant
  intro s t hs h
  have hconsume : s.consume.Inv := hs
  obtain rfl | ⟨i, hexec⟩ | ⟨l, bs, harrive⟩ | rfl | ⟨i, hrun⟩ := step_next_cases h
  · exact hs
  · exact exec_inv hconsume hexec
  · exact arrive_inv hconsume harrive
  · exact hconsume
  · exact runInput_inv hconsume hrun

/-- Settles O50: the nodes at reset are at the addresses 1 to 15, and every block is at its own reset. -/
theorem resetSatisfiesInvariant : Obligations.ResetSatisfiesInvariant := by
  unfold Obligations.ResetSatisfiesInvariant
  refine inv_iff.mpr ⟨legal_iff.mpr ⟨by decide, by decide, by decide⟩, rosterWf_of_empty _ rfl, rfl, fun n hn => ?_⟩
  obtain ⟨a, _, rfl⟩ := List.mem_map.mp hn
  exact node_reset_wf a .accept

end Sys2Proof.Machine
end
